-- ==== Sys2Proof/Word.lean ====
section
/-!
DEFINITION. The words of the block: framebuffer cells and transport bytes (8 bits), host command words (64 bits) and
response words (32 bits). spec/00_scope.md R11, spec/30_encoding.md R46 and R53.
-/

namespace Sys2Proof

/-- One framebuffer cell, or one byte of the panel byte stream (R11). -/
abbrev Byte := BitVec 8

/-- A host command word: every host command is one of these (R46, R52). -/
abbrev CommandWord := BitVec 64

/-- A response word: every host command ends with exactly one (R53). -/
abbrev ResponseWord := BitVec 32

end Sys2Proof
end

