-- ==== Sys2Proof/Syntax.lean ====
section
/-!
DEFINITION. The host commands, one constructor for each row of spec/opcode_table.json, with the operands of
spec/30_encoding.md R48 as the values its rules use: coordinates and page offsets are mathematical integers (R12).
-/

namespace Sys2Proof

/-- The values of the orientation register: the enumeration of R20. -/
inductive Orientation
  | deg0
  | deg90
  | deg180
  | deg270
  deriving DecidableEq, Repr

/-- The eleven host commands (R49). -/
inductive Instr
  /-- INITIALIZE (R99). -/
  | initializePanel
  /-- UPDATE (R100). -/
  | update
  /-- SLEEP (R101). -/
  | sleep
  /-- READ_STATUS (R104). -/
  | readStatus
  /-- SET_ORIENTATION o (R102). -/
  | setOrientation (o : Orientation)
  /-- SET_PAGE p (R103). -/
  | setPage (p : Int)
  /-- CLEAR value (R72). -/
  | clear (value : Byte)
  /-- DRAW_PIXEL x, y, color (R73). -/
  | drawPixel (x y : Int) (color : Byte)
  /-- RAW_WRITE x, y, color (R74). -/
  | rawWrite (x y : Nat) (color : Byte)
  /-- GET_PIXEL x, y (R75). -/
  | getPixel (x y : Int)
  /-- READ_CELL addr (R76). -/
  | readCell (addr : Nat)
  deriving DecidableEq, Repr

/-- The mnemonics of R49, which name the opcodes. -/
inductive Opcode
  | initializePanel
  | update
  | sleep
  | readStatus
  | setOrientation
  | setPage
  | clear
  | drawPixel
  | rawWrite
  | getPixel
  | readCell
  deriving DecidableEq, Repr

/-- The seven operand formats of R47. -/
inductive Format
  | none
  | value
  | orientation
  | page
  | pixelColor
  | pixel
  | address
  deriving DecidableEq, Repr

/-- The assembler's pseudo-instructions (R57). The colors of a FLUSH are listed in the order of its pixels:
row-major, y outer, x inner, each ascending. That a FLUSH lists them so is a DESIGN CHOICE, unsafe (log entry 18).
A pseudo-instruction is a value of this type and no line of the assembler: DESIGN CHOICE, unsafe (log entry 22). -/
inductive Pseudo
  | clearWhite
  | clearBlack
  | flush (x0 y0 x1 y1 : Int) (colors : List Byte)
  | refreshCycle
  deriving DecidableEq, Repr

/-- Which row of the opcode map a command is (R49). -/
def Instr.opcode : Instr → Opcode
  | .initializePanel => .initializePanel
  | .update => .update
  | .sleep => .sleep
  | .readStatus => .readStatus
  | .setOrientation _ => .setOrientation
  | .setPage _ => .setPage
  | .clear _ => .clear
  | .drawPixel _ _ _ => .drawPixel
  | .rawWrite _ _ _ => .rawWrite
  | .getPixel _ _ => .getPixel
  | .readCell _ => .readCell

end Sys2Proof
end

