-- ==== Sys2Proof/WellFormed.lean ====
section
/-!
DEFINITION. Which commands can be encoded: every operand lies in the range of its field. spec/30_encoding.md R48, and
the operands an assembler refuses (R56).
-/

namespace Sys2Proof

/-- The range of a 16-bit two's-complement operand (R48). -/
abbrev InS16 (v : Int) : Prop := -32768 ≤ v ∧ v ≤ 32767

/-- The range of a 16-bit unsigned operand (R48). -/
abbrev InU16 (v : Nat) : Prop := v ≤ 65535

/-- Every operand lies in the range of its field (R48, R56). Orientations and bytes hold no other value. -/
def Instr.wellFormed : Instr → Bool
  | .initializePanel | .update | .sleep | .readStatus => true
  | .setOrientation _ | .clear _ => true
  | .setPage p => decide (InS16 p)
  | .drawPixel x y _ => decide (InS16 x ∧ InS16 y)
  | .rawWrite x y _ => decide (InU16 x ∧ InU16 y)
  | .getPixel x y => decide (InS16 x ∧ InS16 y)
  | .readCell addr => decide (InU16 addr)

end Sys2Proof
end

