-- ==== Sys2Proof/Decode.lean ====
section
/-!
DEFINITION. The decoder and the encoder of host command words. spec/30_encoding.md R46 to R52 and R62.
-/

namespace Sys2Proof

/-- Why a word is no command: both answer ILLEGAL_COMMAND (R50, R51). -/
inductive DecodeError
  | undefinedOpcode
  | reservedBit
  deriving DecidableEq, Repr

/-- Field `OPC`, bits 63:56 (R46). -/
def opcField (w : CommandWord) : BitVec 8 := w.extractLsb' 56 8

/-- Field `A8`, bits 55:48 (R46). -/
def argField (w : CommandWord) : BitVec 8 := w.extractLsb' 48 8

/-- Field `O`, bits 49:48 (R46). -/
def orientField (w : CommandWord) : BitVec 2 := w.extractLsb' 48 2

/-- Field `X`, bits 31:16 (R46). -/
def xField (w : CommandWord) : BitVec 16 := w.extractLsb' 16 16

/-- Field `Y` / `P` / `ADDR`, bits 15:0 (R46). -/
def yField (w : CommandWord) : BitVec 16 := w.extractLsb' 0 16

/-- `sext_16` (R11). -/
def sext16 (v : BitVec 16) : Int := v.toInt

/-- `zext_16` (R11). -/
def zext16 (v : BitVec 16) : Nat := v.toNat

/-- The 2-bit encoding of an orientation (R20). -/
def Orientation.code : Orientation → BitVec 2
  | .deg0 => 0
  | .deg90 => 1
  | .deg180 => 2
  | .deg270 => 3

/-- Every 2-bit value is an orientation (R20). -/
def Orientation.ofCode (b : BitVec 2) : Orientation :=
  if b = 0 then .deg0 else if b = 1 then .deg90 else if b = 2 then .deg180 else .deg270

/-- The opcode map: `OPC` of each command (R49). -/
def Opcode.code : Opcode → BitVec 8
  | .initializePanel => 0x01
  | .update => 0x02
  | .sleep => 0x03
  | .readStatus => 0x04
  | .setOrientation => 0x10
  | .setPage => 0x11
  | .clear => 0x20
  | .drawPixel => 0x21
  | .rawWrite => 0x22
  | .getPixel => 0x30
  | .readCell => 0x31

/-- The commands of the opcode map, in its order (R49). -/
def Opcode.all : List Opcode :=
  [.initializePanel, .update, .sleep, .readStatus, .setOrientation, .setPage, .clear, .drawPixel, .rawWrite,
    .getPixel, .readCell]

/-- The command whose opcode is `b`; every other opcode is undefined (R49, R51). -/
def Opcode.ofCode (b : BitVec 8) : Option Opcode := Opcode.all.find? fun op => op.code == b

/-- The format of each command (R49). -/
def Opcode.format : Opcode → Format
  | .initializePanel | .update | .sleep | .readStatus => .none
  | .setOrientation => .orientation
  | .setPage => .page
  | .clear => .value
  | .drawPixel | .rawWrite => .pixelColor
  | .getPixel => .pixel
  | .readCell => .address

/-- The bits below `OPC` that must be zero in each format (R47). -/
def Format.reserved : Format → CommandWord
  | .none => 0x00FFFFFFFFFFFFFF
  | .value => 0x0000FFFFFFFFFFFF
  | .orientation => 0x00FCFFFFFFFFFFFF
  | .page => 0x00FFFFFFFFFF0000
  | .pixelColor => 0x0000FFFF00000000
  | .pixel => 0x00FFFFFF00000000
  | .address => 0x00FFFFFFFFFF0000

/-- The command of an opcode with the operands of the word (R48). -/
def operandsOf (w : CommandWord) : Opcode → Instr
  | .initializePanel => .initializePanel
  | .update => .update
  | .sleep => .sleep
  | .readStatus => .readStatus
  | .setOrientation => .setOrientation (Orientation.ofCode (orientField w))
  | .setPage => .setPage (sext16 (yField w))
  | .clear => .clear (argField w)
  | .drawPixel => .drawPixel (sext16 (xField w)) (sext16 (yField w)) (argField w)
  | .rawWrite => .rawWrite (zext16 (xField w)) (zext16 (yField w)) (argField w)
  | .getPixel => .getPixel (sext16 (xField w)) (sext16 (yField w))
  | .readCell => .readCell (zext16 (yField w))

/-- The decoder: every 64-bit word is exactly one command or illegal (R62). -/
def decode (w : CommandWord) : Except DecodeError Instr :=
  match Opcode.ofCode (opcField w) with
  | none => .error .undefinedOpcode
  | some op => if w &&& op.format.reserved = 0 then .ok (operandsOf w op) else .error .reservedBit

/-- A word from its fields: `OPC`, `A8`, `RSV` = 0, `X`, `Y` (R46). -/
def packWord (opc a8 : BitVec 8) (x y : BitVec 16) : CommandWord := opc ++ a8 ++ 0#16 ++ x ++ y

/-- The `A8`, `X` and `Y` fields a command's operands fill (R46, R47, R48). -/
def Instr.fields : Instr → BitVec 8 × BitVec 16 × BitVec 16
  | .initializePanel | .update | .sleep | .readStatus => (0, 0, 0)
  | .setOrientation o => (o.code.setWidth 8, 0, 0)
  | .setPage p => (0, 0, BitVec.ofInt 16 p)
  | .clear value => (value, 0, 0)
  | .drawPixel x y color => (color, BitVec.ofInt 16 x, BitVec.ofInt 16 y)
  | .rawWrite x y color => (color, BitVec.ofNat 16 x, BitVec.ofNat 16 y)
  | .getPixel x y => (0, BitVec.ofInt 16 x, BitVec.ofInt 16 y)
  | .readCell addr => (0, 0, BitVec.ofNat 16 addr)

/-- The encoder: the word of a command (R46 to R49). -/
def encode (i : Instr) : CommandWord := packWord i.opcode.code i.fields.1 i.fields.2.1 i.fields.2.2

/-- A row of spec/opcode_table.json: its "mask" (R62). -/
def Opcode.tableMask : Opcode → CommandWord
  | .initializePanel | .update | .sleep | .readStatus => 0xFFFFFFFFFFFFFFFF
  | .setOrientation => 0xFFFCFFFFFFFFFFFF
  | .setPage => 0xFFFFFFFFFFFF0000
  | .clear => 0xFF00FFFFFFFFFFFF
  | .drawPixel | .rawWrite => 0xFF00FFFF00000000
  | .getPixel => 0xFFFFFFFF00000000
  | .readCell => 0xFFFFFFFFFFFF0000

/-- A row of spec/opcode_table.json: its "match" (R62). -/
def Opcode.tableMatch : Opcode → CommandWord
  | .initializePanel => 0x0100000000000000
  | .update => 0x0200000000000000
  | .sleep => 0x0300000000000000
  | .readStatus => 0x0400000000000000
  | .setOrientation => 0x1000000000000000
  | .setPage => 0x1100000000000000
  | .clear => 0x2000000000000000
  | .drawPixel => 0x2100000000000000
  | .rawWrite => 0x2200000000000000
  | .getPixel => 0x3000000000000000
  | .readCell => 0x3100000000000000

/-- The command word whose lowest `nbits` bits are `w` and whose bits above them are 0. A command is one 64-bit unit
with fixed bit positions; how a host splits it into bytes is outside the block (R33), so bit `k` of the table's word is
bit `k` of the command word. DEDUCED, safe (log entry 17). -/
def tableWord (nbits w : Nat) : CommandWord := BitVec.ofNat 64 (w % 2 ^ nbits)

/-- The command the decoder reads from a table row's word. -/
def decodeTableWord (nbits w : Nat) : Option Instr := (decode (tableWord nbits w)).toOption

end Sys2Proof
end

