-- ==== Sys2Proof/Config.lean ====
section
/-!
DEFINITION. What is fixed for one block: the panel geometry (R7), the names of the protocol's delays (R9), the open
parameters (R10), and the values the spec leaves free.
-/

namespace Sys2Proof

/-- `W`: pixels per physical row (R7). -/
abbrev Config.width : Nat := 104

/-- `H`: physical rows (R7). -/
abbrev Config.height : Nat := 212

/-- `BPR`: cells per row, `W/8` (R7). -/
abbrev Config.rowCells : Nat := 13

/-- `N`: framebuffer cells, `W*H/8` (R7). -/
abbrev Config.cells : Nat := 2756

/-- The protocol's time parameters, by name; no rule reads a duration (R9, R88). -/
inductive DelayName
  /-- `T_RST_LOW`: reset-line low hold. -/
  | rstLow
  /-- `T_RST_HIGH`: reset-line high hold. -/
  | rstHigh
  /-- `T_REFRESH`: after the display-refresh command. -/
  | refresh
  /-- `T_POWEROFF`: after the power-off command. -/
  | powerOff
  /-- `T_POLL`: busy-poll back-off. -/
  | poll
  deriving DecidableEq, Repr

/-- The open parameters of a block (R10): the twelve panel command bytes (R59), the eleven initialisation data bytes
(R61) and the busy-wait bound (R89). DESIGN CHOICE, safe: `busyTimeoutPolls = none` is the infinite bound, `some k` the
bound `k` (log entry 3). -/
structure Params where
  cmdBoosterSoftStart : Byte
  cmdPowerSetting : Byte
  cmdPowerOn : Byte
  cmdPanelSetting : Byte
  cmdPllControl : Byte
  cmdResolutionSetting : Byte
  cmdVcomDataInterval : Byte
  cmdDtm1 : Byte
  cmdDtm2 : Byte
  cmdDisplayRefresh : Byte
  cmdPowerOff : Byte
  cmdDeepSleep : Byte
  boosterData : Vector Byte 3
  powerData : Vector Byte 5
  panelData : Vector Byte 2
  pllData : Byte
  busyTimeoutPolls : Option Nat
  deriving DecidableEq, Repr, Inhabited

/-- FREE. The parameters of the block that runs from `State.reset`: the spec gives none of them (R10, D19, D22, D23).
Every statement quantifies over a state, and so over every value of its `params` (log entry 2). -/
opaque Config.params : Params

/-- FREE. The ok (true) or fail (false) answer of the `n`-th fallible transport action once the answers listed in the
state are used up (R14, U12; log entry 4). -/
opaque Config.freeAck : Nat → Bool

/-- FREE. The level of the `n`-th busy-line sample once the levels listed in the state are used up (R80, U4;
log entry 4). -/
opaque Config.freeBusy : Nat → Bool

end Sys2Proof
end

