-- ==== Sys2Proof/Machine/State.lean ====
section
/-!
DEFINITION. The state of the block as plain data, and its value after block reset. spec/10_state.md; what the host and
the transport send and have seen stands beside it (R14, agents).
-/

namespace Sys2Proof.Machine

/-- The framebuffer store (R18, R30): the cells that hold something other than 0x00, addresses strictly rising. A cell
that is not listed reads 0x00, its reset value (log entry 11). -/
abbrev Memory := List Host.Cell

/-- `SESSION`, the state of the controller's state machine (R22). -/
inductive Session
  | uninitialized
  | ready
  | asleep
  | updating
  deriving DecidableEq, Repr

/-- `SEQ`, the sequence in progress (R25). -/
inductive SeqId
  | none
  | initSeq
  | updateSeq
  | sleepSeq
  deriving DecidableEq, Repr

/-- The outcome a response reports (R54). -/
inductive Status
  | ok
  | invalidCoordinate
  | panelNotReady
  | transportFailure
  | panelTimeout
  | illegalCommand
  deriving DecidableEq, Repr

/-- One event of the transport trace: a transport action with its argument and its answer, or a delay (R78, R88). -/
inductive Event
  /-- `T.SetReset(level)`, `high = false` is level 0; answered ok or fail. -/
  | setReset (high ok : Bool)
  /-- `T.SetControl(is_data)`, answered ok or fail. -/
  | setControl (isData ok : Bool)
  /-- `T.Write(b)`, answered ok or fail. -/
  | write (b : Byte) (ok : Bool)
  /-- `T.ReadBusy()`, answered asserted or not (R80). -/
  | readBusy (asserted : Bool)
  /-- `Delay(P)`. -/
  | delay (p : DelayName)
  deriving DecidableEq, Repr

/-- The protocol primitives (R81). -/
inductive Primitive
  | reset
  | sendCmd (c : Byte)
  | sendData (d : Byte)
  | sendDataFill (v : Byte) (n : Nat)
  | sendDataFb
  | delay (p : DelayName)
  | waitBusy
  deriving DecidableEq, Repr

/-- What `PixelTarget` answers for a coordinate it does not discard: a cell and a bit of it (R63). -/
structure PixelAddr where
  cell : Fin Config.cells
  bit : Fin 8
  deriving DecidableEq, Repr

/-- The machine. -/
structure State where
  /-- `FB` (R17, R18). -/
  fb : Memory
  /-- `ORIENT` (R20). -/
  orient : Orientation
  /-- `PAGE`, two's complement (R21). -/
  page : BitVec 16
  /-- `SESSION` (R22). -/
  session : Session
  /-- `PORT_BUSY` (R25). -/
  portBusy : Bool
  /-- `SEQ` (R25). -/
  seq : SeqId
  /-- `STEP`, the index of the current primitive in `SEQ` (R16, R25). -/
  stepIdx : Nat
  /-- `STREAM_IDX`, the data bytes sent by the current stream (R25). -/
  streamIdx : Nat
  /-- `POLL_COUNT`, the samples taken by the current WAIT_BUSY (R25). -/
  pollCount : Nat
  /-- The event of the current primitive that comes next. The model's own field, DEDUCED, safe (log entry 8). -/
  phase : Nat
  /-- The block's open parameters (R10); no step writes them (R27; log entry 2). -/
  params : Params
  /-- The command words the host offers, the one offered now first (R96; log entry 5). -/
  offers : List CommandWord
  /-- The block's reset input: a sample for each coming step, true where block reset strikes, no more resets where the
  list ends (R127, R135; log entry 6). -/
  resetLine : List Bool
  /-- The responses given so far, newest first (R53; log entry 10). -/
  responses : List ResponseWord
  /-- The transport's next answers to fallible actions, true for ok; free values follow (R14, R78; log entry 4). -/
  acks : List Bool
  /-- How many fallible actions have been answered; it numbers the free answers. The model's own (log entry 4). -/
  acksTaken : Nat
  /-- The next levels of the busy line, true for asserted; free values follow (R80; log entry 4). -/
  busyLevels : List Bool
  /-- How many busy samples have been taken; it numbers the free levels. The model's own (log entry 4). -/
  busyTaken : Nat
  /-- The transport trace, newest event first (R78; log entry 10). -/
  trace : List Event
  deriving DecidableEq, Repr

/-- The reasons the machine stops. The spec gives the block no trap (R109), so none comes from it. -/
inductive Fault
  /-- Raised by `step` alone, in a state no run reaches: PORT_BUSY = 1 with no sequence in progress, so no command is
  there to go on with. Safe: the machine stops where the spec says nothing (log entry 12). -/
  | noSequence
  deriving DecidableEq, Repr

/-- The reasons an instruction has no meaning. Every command of the table has one. -/
inductive Refusal
  /-- Raised by `exec` for an instruction that is not modelled; no arm of it does. Safe: nothing is claimed of it. -/
  | notModelled (mnemonic : String)
  deriving DecidableEq, Repr

/-- The three outcomes of a step of this machine. -/
abbrev Result := Host.Outcome State Fault Refusal

/-- The machine right after block reset (R127). The last nine fields are the model's own: nothing is offered, listed or
logged yet, the counters are 0 (DESIGN CHOICE, log entry 14), and the parameters are free (log entry 2). -/
def State.reset : State where
  fb := []
  orient := .deg0
  page := 0xFFFF
  session := .uninitialized
  portBusy := false
  seq := .none
  stepIdx := 0
  streamIdx := 0
  pollCount := 0
  phase := 0
  params := Config.params
  offers := []
  resetLine := []
  responses := []
  acks := []
  acksTaken := 0
  busyLevels := []
  busyTaken := 0
  trace := []

end Sys2Proof.Machine
end

