-- ==== Sys2Proof/Machine/Flags.lean ====
section
/-!
DEFINITION. The block has no flags (R24). What stands in their place is the STATUS field of each response word:
spec/30_encoding.md R53 to R55.
-/

namespace Sys2Proof.Machine

/-- The STATUS codes (R54). Codes 0x6 to 0xF are never produced. -/
def Status.code : Status → BitVec 4
  | .ok => 0x0
  | .invalidCoordinate => 0x1
  | .panelNotReady => 0x2
  | .transportFailure => 0x3
  | .panelTimeout => 0x4
  | .illegalCommand => 0x5

/-- A response word: STATUS in bits 31:28, DATA in bits 27:0 (R53). -/
def responseWord (st : Status) (data : BitVec 28) : ResponseWord := st.code ++ data

/-- The 2-bit encoding of SESSION (R22). -/
def Session.code : Session → BitVec 2
  | .uninitialized => 0
  | .ready => 1
  | .asleep => 2
  | .updating => 3

/-- READ_STATUS's DATA: SESSION in 19:18, ORIENT in 17:16, PAGE in 15:0, zeros above (R55). -/
def statusData (session : Session) (orient : Orientation) (page : BitVec 16) : BitVec 28 :=
  0#8 ++ session.code ++ orient.code ++ page

/-- GET_PIXEL's DATA: the stored bit in bit 0 (R55). -/
def bitData (v : Bool) : BitVec 28 := (BitVec.ofBool v).setWidth 28

/-- READ_CELL's DATA: the cell in 7:0 (R55). -/
def cellData (v : Byte) : BitVec 28 := v.setWidth 28

end Sys2Proof.Machine
end

