-- ==== Sys2Proof/Machine/Operands.lean ====
section
/-!
DEFINITION. Coordinates: the rotation-aware pixel pipeline, stage by stage, and the strict address of RAW_WRITE.
spec/41_framebuffer.md R63 to R68 and R74; all arithmetic is on mathematical integers (R12).
-/

namespace Sys2Proof.Machine

/-- Stage 1: the logical bounds, the same for every orientation (R64). -/
abbrev InLogicalBounds (x y : Int) : Prop := 0 ≤ x ∧ x < 104 ∧ 0 ≤ y ∧ y < 212

/-- Stage 2: the orientation transform (R65). -/
def orientTransform (o : Orientation) (x y : Int) : Int × Int :=
  match o with
  | .deg0 => (x, y)
  | .deg90 => (104 - y - 1, x)
  | .deg180 => (104 - x - 1, 212 - y - 1)
  | .deg270 => (y, 212 - x - 1)

/-- Stage 3: the page transform of the physical row; `none` is Discard (R66). -/
def pageTransform (page : BitVec 16) (yp : Int) : Option Int :=
  if 1 ≤ sext16 page then
    if 0 ≤ yp - sext16 page * 212 ∧ yp - sext16 page * 212 < 212 then some (yp - sext16 page * 212) else none
  else some yp

/-- The cell and bit at `a`, for the physical position `xp` along its row; `none` where the cell does not exist. -/
def pixelAddr (a xp : Int) : Option PixelAddr :=
  if h : a.toNat < Config.cells then some ⟨⟨a.toNat, h⟩, ⟨7 - xp.toNat % 8, by omega⟩⟩ else none

/-- Stages 4 and 5: the physical x sign and the address; `none` is Discard (R67, R68). -/
def cellStage (xp yp : Int) : Option PixelAddr :=
  if xp < 0 then none else pixelAddr (xp / 8 + yp * 13) xp

/-- `PixelTarget(x, y)`: it reads ORIENT and PAGE and nothing else; `none` is Discard (R63). -/
def pixelTarget (orient : Orientation) (page : BitVec 16) (x y : Int) : Option PixelAddr :=
  if InLogicalBounds x y then
    (pageTransform page (orientTransform orient x y).2).bind (cellStage (orientTransform orient x y).1)
  else none

/-- RAW_WRITE's cell and bit: no rotation, no page, and a strict bound (R74). -/
def rawTarget (x y : Nat) : Option PixelAddr :=
  if 104 ≤ x ∨ 212 ≤ y then none else pixelAddr (x / 8 + y * 13) x

end Sys2Proof.Machine
end

