-- ==== Sys2Proof/Machine/Ops.lean ====
section
/-!
DEFINITION. The named operations over the state: framebuffer cells, the response that ends a command, raising an error,
accepting a command, block reset, the transport actions, and how a sequence starts, advances and ends.
-/

namespace Sys2Proof.Machine

/-- What a cell that is not listed reads as: its reset value (R18; log entry 11). -/
def Memory.unlisted : Byte := 0x00

/-- The value of the cell at `a` (R13 `MemRead`). No side effect (R37). -/
def Memory.read : Memory → Nat → Byte
  | [], _ => Memory.unlisted
  | (k, v) :: rest, a => if k = a then v else Memory.read rest a

/-- Write the cell at `a` (R13 `MemWrite`); a cell written with the unlisted value leaves the list. -/
def Memory.write : Memory → Nat → Byte → Memory
  | [], a, v => if v = Memory.unlisted then [] else [(a, v)]
  | (k, u) :: rest, a, v =>
    if a < k then (if v = Memory.unlisted then (k, u) :: rest else (a, v) :: (k, u) :: rest)
    else if a = k then (if v = Memory.unlisted then rest else (a, v) :: rest)
    else (k, u) :: Memory.write rest a v

/-- `Fill(value)`: every cell holds `value` (R71). -/
def Memory.fill (v : Byte) : Memory :=
  if v = Memory.unlisted then [] else (List.range Config.cells).map fun a => (a, v)

/-- The canonical form: addresses strictly rising, every one a cell of the store (R30), no entry equal to what an
unlisted cell reads as. -/
abbrev Memory.wf (m : Memory) : Prop :=
  m.Pairwise (fun c d => c.1 < d.1) ∧ ∀ c ∈ m, c.1 < Config.cells ∧ c.2 ≠ Memory.unlisted

/-- `FB[a]` (R13, R35). -/
def State.cell (s : State) (a : Fin Config.cells) : Byte := s.fb.read a.val

/-- The new value of a cell whose bit `b` is written with `color`: 0 sets the bit, any other color clears it (R69). -/
def paintBit (old : Byte) (b : Fin 8) (color : Byte) : Byte :=
  if color = 0 then old ||| (1#8 <<< b.val) else old &&& ~~~(1#8 <<< b.val)

/-- `WriteBit(a, b, color)`: a read-modify-write of one cell (R35, R69). -/
def State.writeBit (s : State) (t : PixelAddr) (color : Byte) : State :=
  { s with fb := s.fb.write t.cell.val (paintBit (s.cell t.cell) t.bit color) }

/-- The stored bit of a pixel: `(FB[a] >> b) AND 1` (R75). -/
def State.pixelBit (s : State) (t : PixelAddr) : Bool := (s.cell t.cell).getLsbD t.bit.val

/-- `respond(status, data)`: the command ends with its one response and the port is idle (R13, R53, R96). -/
def State.respond (s : State) (st : Status) (data : BitVec 28) : State :=
  { s with responses := responseWord st data :: s.responses, portBusy := false }

/-- The effects of an error before its response: a failed sequence ends and leaves SESSION UNINITIALIZED, every other
error changes nothing (R105, R117). -/
def State.failureEffects (s : State) : Status → State
  | .transportFailure | .panelTimeout => { s with seq := .none, session := .uninitialized }
  | .ok | .invalidCoordinate | .panelNotReady | .illegalCommand => s

/-- `raise <Status>`: an error is a response with DATA = 0, not a trap; nothing is saved and nothing returns (R13, R109,
R117, R119). -/
def State.raise (s : State) (st : Status) : State := (s.failureEffects st).respond st 0

/-- The step's reset sample is used up (log entry 6). -/
def State.tick (s : State) : State := { s with resetLine := s.resetLine.tail }

/-- Block reset: every piece of block state takes its reset value, with no transport action and no response (R127). The
parameters, what the host offers and what has been logged are not block state (log entry 7). -/
def State.blockReset (s : State) : State :=
  { s with
    fb := State.reset.fb
    orient := State.reset.orient
    page := State.reset.page
    session := State.reset.session
    portBusy := State.reset.portBusy
    seq := State.reset.seq
    stepIdx := State.reset.stepIdx
    streamIdx := State.reset.streamIdx
    pollCount := State.reset.pollCount
    phase := State.reset.phase }

/-- Does block reset strike in this step? -/
def State.resetStrikes (s : State) : Bool := s.resetLine.head?.getD false

/-- The word the host offers now (R96). -/
def State.offered (s : State) : Option CommandWord := s.offers.head?

/-- The port accepts the offered word: `PORT_BUSY <- 1` (R96). -/
def State.accept (s : State) : State := { s with portBusy := true, offers := s.offers.tail }

/-- The transport's answer to the `k`-th coming fallible action: any value (R14, U12). -/
def State.ackAt (s : State) (k : Nat) : Bool := (s.acks[k]?).getD (Config.freeAck (s.acksTaken + k))

/-- The level the `k`-th coming busy sample reads: any value (R80, U4). -/
def State.busyAt (s : State) (k : Nat) : Bool := (s.busyLevels[k]?).getD (Config.freeBusy (s.busyTaken + k))

/-- Record an event in the transport trace (R78). -/
def State.log (s : State) (e : Event) : State := { s with trace := e :: s.trace }

/-- One answer to a fallible action is used up. -/
def State.takeAck (s : State) : State := { s with acks := s.acks.tail, acksTaken := s.acksTaken + 1 }

/-- One busy level is used up. -/
def State.takeBusy (s : State) : State := { s with busyLevels := s.busyLevels.tail, busyTaken := s.busyTaken + 1 }

/-- A fallible transport action: it is recorded with its answer; ok goes on, fail ends the sequence at once with
TRANSPORT_FAILURE (R78, R79, R113). -/
def State.act (s : State) (e : Bool → Event) (next : State → State) : State :=
  if s.ackAt 0 then next ((s.log (e true)).takeAck) else ((s.log (e false)).takeAck).raise .transportFailure

/-- A delay event: it takes no answer and cannot fail (R88). -/
def State.pause (s : State) (p : DelayName) : State := s.log (.delay p)

/-- A sequence starts at its first primitive with its counters at 0 (R25, R93). -/
def State.startSeq (s : State) (q : SeqId) : State :=
  { s with seq := q, stepIdx := 0, streamIdx := 0, pollCount := 0, phase := 0 }

/-- SESSION after a sequence that ended without error (R97, R99 to R101). -/
def SeqId.sessionAfter : SeqId → Session → Session
  | .none, session => session
  | .initSeq, _ => .ready
  | .updateSeq, _ => .ready
  | .sleepSeq, _ => .asleep

/-- A sequence that has run its last primitive: SEQ returns to NONE, the command writes SESSION and responds OK (R93,
R99 to R101). -/
def State.finishSeq (s : State) : State :=
  ({ s with seq := .none, session := s.seq.sessionAfter s.session }).respond .ok 0

end Sys2Proof.Machine
end

