-- ==== Sys2Proof/Machine/Protocol.lean ====
section
/-!
DEFINITION. The display command protocol engine: the primitives, the three fixed sequences and how a sequence executes,
one transport action or delay at a time. spec/42_command_protocol.md R81 to R94.
-/

namespace Sys2Proof.Machine

/-- `INIT_SEQ`, 24 primitives (R90). -/
def initSeqPrims (p : Params) : List Primitive :=
  [.reset,
    .sendCmd p.cmdBoosterSoftStart,
    .sendData p.boosterData[0], .sendData p.boosterData[1], .sendData p.boosterData[2],
    .sendCmd p.cmdPowerSetting,
    .sendData p.powerData[0], .sendData p.powerData[1], .sendData p.powerData[2], .sendData p.powerData[3],
    .sendData p.powerData[4],
    .sendCmd p.cmdPowerOn,
    .waitBusy,
    .sendCmd p.cmdPanelSetting,
    .sendData p.panelData[0], .sendData p.panelData[1],
    .sendCmd p.cmdPllControl,
    .sendData p.pllData,
    .sendCmd p.cmdResolutionSetting,
    .sendData 0x68, .sendData 0x00, .sendData 0xD4,
    .sendCmd p.cmdVcomDataInterval,
    .sendData 0x97]

/-- `UPDATE_SEQ`, 7 primitives (R91). -/
def updateSeqPrims (p : Params) : List Primitive :=
  [.sendCmd p.cmdDtm1,
    .sendDataFill 0xFF Config.cells,
    .sendCmd p.cmdDtm2,
    .sendDataFb,
    .sendCmd p.cmdDisplayRefresh,
    .delay .refresh,
    .waitBusy]

/-- `SLEEP_SEQ`, 6 primitives (R92). -/
def sleepSeqPrims (p : Params) : List Primitive :=
  [.sendCmd p.cmdVcomDataInterval,
    .sendData 0xF7,
    .sendCmd p.cmdPowerOff,
    .delay .powerOff,
    .sendCmd p.cmdDeepSleep,
    .sendData 0xA5]

/-- The primitives of a sequence (R90 to R92). -/
def SeqId.prims : SeqId → Params → List Primitive
  | .none, _ => []
  | .initSeq, p => initSeqPrims p
  | .updateSeq, p => updateSeqPrims p
  | .sleepSeq, p => sleepSeqPrims p

/-- The primitive `STEP` points at, while a sequence has one left (R25). -/
def State.current (s : State) : Option Primitive := (s.seq.prims s.params)[s.stepIdx]?

/-- What a primitive sets before its first event: a stream's count and WAIT_BUSY's count start at 0 (R86, R87, R89;
log entry 9). -/
def State.enterPrim (s : State) : Primitive → State
  | .sendDataFill _ _ | .sendDataFb => { s with streamIdx := 0 }
  | .waitBusy => { s with pollCount := 0 }
  | .reset | .sendCmd _ | .sendData _ | .delay _ => s

/-- A primitive ended with ok: `STEP <- STEP + 1`, and the sequence ends when no primitive is left (R93). -/
def State.endPrim (s : State) : State :=
  match (s.seq.prims s.params)[s.stepIdx + 1]? with
  | some p => ({ s with stepIdx := s.stepIdx + 1, phase := 0 }).enterPrim p
  | none => ({ s with stepIdx := s.stepIdx + 1, phase := 0 }).finishSeq

/-- The next event of the same primitive comes next (log entry 8). -/
def State.nextPhase (s : State) : State := { s with phase := s.phase + 1 }

/-- One event of `RESET`: low, hold, high, hold (R82). -/
def State.doReset (s : State) : State :=
  match s.phase with
  | 0 => s.act (.setReset false) State.nextPhase
  | 1 => (s.pause .rstLow).nextPhase
  | 2 => s.act (.setReset true) State.nextPhase
  | _ => (s.pause .rstHigh).endPrim

/-- One event of a byte transfer: select the line, then write the byte; `done` follows the byte (R58, R83 to R85). -/
def State.doSend (s : State) (isData : Bool) (b : Byte) (done : State → State) : State :=
  match s.phase with
  | 0 => s.act (.setControl isData) State.nextPhase
  | _ => s.act (.write b) done

/-- A stream of `n` bytes has sent one more: the next byte, or the end of the primitive (R86, R87). -/
def State.endByte (n : Nat) (s : State) : State :=
  if s.streamIdx + 1 < n then { s with streamIdx := s.streamIdx + 1, phase := 0 }
  else ({ s with streamIdx := s.streamIdx + 1 }).endPrim

/-- One event of a stream of `n` data bytes, the next byte being `b` (R86, R87). -/
def State.doStream (s : State) (n : Nat) (b : Byte) : State :=
  if s.streamIdx < n then s.doSend true b (State.endByte n) else s.endPrim

/-- Has WAIT_BUSY taken as many asserted samples as its bound allows? Never with the infinite bound (R89). -/
def State.pollsExpired (s : State) : Bool :=
  match s.params.busyTimeoutPolls with
  | none => false
  | some k => decide (k ≤ s.pollCount)

/-- WAIT_BUSY takes a sample: released ends it, the bound reached raises PANEL_TIMEOUT, else the back-off comes next
(R89, R114). -/
def State.samplePoll (s : State) : State :=
  let t := { (s.log (.readBusy (s.busyAt 0))).takeBusy with pollCount := s.pollCount + 1 }
  if s.busyAt 0 then (if t.pollsExpired then t.raise .panelTimeout else t.nextPhase) else t.endPrim

/-- One event of `WAIT_BUSY`: a sample, or the back-off after one (R89). -/
def State.doWaitBusy (s : State) : State :=
  match s.phase with
  | 0 => s.samplePoll
  | _ => { s.pause .poll with phase := 0 }

/-- One event of a primitive (R81 to R89). -/
def State.doPrim (s : State) : Primitive → State
  | .reset => s.doReset
  | .sendCmd c => s.doSend false c State.endPrim
  | .sendData d => s.doSend true d State.endPrim
  | .sendDataFill v n => s.doStream n v
  | .sendDataFb => s.doStream Config.cells (s.fb.read s.streamIdx)
  | .delay p => (s.pause p).endPrim
  | .waitBusy => s.doWaitBusy

/-- One event of the sequence in progress (R93). A STEP with no primitive left ends the sequence, as the test of R93's
loop does (no run reaches it; log entry 12). -/
def State.sequence (s : State) : State :=
  match s.current with
  | some p => s.doPrim p
  | none => s.finishSeq

/-- The block goes on with the command it is executing: R14, its steps are that command's transport actions. -/
def advance (s : State) : Result :=
  if s.seq = .none then .fault .noSequence else .next s.sequence

end Sys2Proof.Machine
end

