-- ==== Sys2Proof/Machine/Controller.lean ====
section
/-!
DEFINITION. The controller family: INITIALIZE, UPDATE, SLEEP, READ_STATUS, SET_ORIENTATION and SET_PAGE.
spec/43_display_controller.md R97 to R104. The three sequence commands start their sequence; `step` then performs it one
event at a time (R14; log entry 1), and its last event, or its first failure, writes SESSION and responds.
-/

namespace Sys2Proof.Machine

/-- INITIALIZE: `RunSeq(INIT_SEQ)`, in every SESSION (R99). -/
def execInitializePanel (s : State) : Result := .next (s.startSeq .initSeq)

/-- UPDATE: `SESSION <- UPDATING`, then `RunSeq(UPDATE_SEQ)` (R100). -/
def execUpdate (s : State) : Result :=
  if s.session = .ready then .next ({ s with session := .updating }.startSeq .updateSeq)
  else .next (s.raise .panelNotReady)

/-- SLEEP: `RunSeq(SLEEP_SEQ)` (R101). -/
def execSleep (s : State) : Result :=
  if s.session = .ready then .next (s.startSeq .sleepSeq) else .next (s.raise .panelNotReady)

/-- READ_STATUS (R104). -/
def execReadStatus (s : State) : Result := .next (s.respond .ok (statusData s.session s.orient s.page))

/-- SET_ORIENTATION (R102). -/
def execSetOrientation (o : Orientation) (s : State) : Result := .next ({ s with orient := o }.respond .ok 0)

/-- SET_PAGE: every s16 value is accepted (R103; an operand outside s16 cannot be encoded, log entry 15). -/
def execSetPage (p : Int) (s : State) : Result := .next ({ s with page := BitVec.ofInt 16 p }.respond .ok 0)

end Sys2Proof.Machine
end

