-- ==== Sys2Proof/Machine/Framebuffer.lean ====
section
/-!
DEFINITION. The framebuffer family: CLEAR, DRAW_PIXEL, RAW_WRITE, GET_PIXEL and READ_CELL.
spec/41_framebuffer.md R72 to R77; gating R98; priority R116.
-/

namespace Sys2Proof.Machine

/-- CLEAR (R72). -/
def execClear (value : Byte) (s : State) : Result :=
  if s.session = .ready then .next ({ s with fb := Memory.fill value }.respond .ok 0)
  else .next (s.raise .panelNotReady)

/-- DRAW_PIXEL: a discarded pixel changes nothing and is no error (R73, R115). -/
def execDrawPixel (x y : Int) (color : Byte) (s : State) : Result :=
  if s.session = .ready then
    match pixelTarget s.orient s.page x y with
    | some t => .next ((s.writeBit t color).respond .ok 0)
    | none => .next (s.respond .ok 0)
  else .next (s.raise .panelNotReady)

/-- RAW_WRITE: it ignores ORIENT and PAGE and reports a pixel outside the panel (R74, R77). -/
def execRawWrite (x y : Nat) (color : Byte) (s : State) : Result :=
  if s.session = .ready then
    match rawTarget x y with
    | some t => .next ((s.writeBit t color).respond .ok 0)
    | none => .next (s.raise .invalidCoordinate)
  else .next (s.raise .panelNotReady)

/-- GET_PIXEL, in every SESSION (R75). -/
def execGetPixel (x y : Int) (s : State) : Result :=
  match pixelTarget s.orient s.page x y with
  | some t => .next (s.respond .ok (bitData (s.pixelBit t)))
  | none => .next (s.raise .invalidCoordinate)

/-- READ_CELL, in every SESSION (R76). -/
def execReadCell (addr : Nat) (s : State) : Result :=
  if h : addr < Config.cells then .next (s.respond .ok (cellData (s.cell ⟨addr, h⟩)))
  else .next (s.raise .invalidCoordinate)

end Sys2Proof.Machine
end

