-- ==== Sys2Proof/Machine/Dispatch.lean ====
section
/-!
DEFINITION. The meaning of each host command, one arm per constructor of Instr (R49).
-/

namespace Sys2Proof.Machine

def exec (i : Instr) (s : State) : Host.Outcome State Fault Refusal :=
  match i with
  | .initializePanel => Sys2Proof.Machine.execInitializePanel s
  | .update => Sys2Proof.Machine.execUpdate s
  | .sleep => Sys2Proof.Machine.execSleep s
  | .readStatus => Sys2Proof.Machine.execReadStatus s
  | .setOrientation o => Sys2Proof.Machine.execSetOrientation o s
  | .setPage p => Sys2Proof.Machine.execSetPage p s
  | .clear value => Sys2Proof.Machine.execClear value s
  | .drawPixel x y color => Sys2Proof.Machine.execDrawPixel x y color s
  | .rawWrite x y color => Sys2Proof.Machine.execRawWrite x y color s
  | .getPixel x y => Sys2Proof.Machine.execGetPixel x y s
  | .readCell addr => Sys2Proof.Machine.execReadCell addr s

end Sys2Proof.Machine
end

