-- ==== Sys2Proof/Machine/Step.lean ====
section
/-!
DEFINITION. One step of the block: block reset where it strikes; else the next event of the command in progress; else
the offered word accepted, decoded and executed; else the block waits for a command. R14, R96, R110, R127, R128.
-/

namespace Sys2Proof.Machine

/-- Decode an accepted word and execute its command; a word that is no command is answered ILLEGAL_COMMAND, before any
other check (R62, R96, R110, R116). -/
def execWord (w : CommandWord) (s : State) : Host.Outcome State Fault Refusal :=
  match decode w with
  | .ok i => exec i s
  | .error _ => .next (s.raise .illegalCommand)

/-- One step of the machine. -/
def step (s : State) : Host.Outcome State Fault Refusal :=
  if s.resetStrikes then .next s.tick.blockReset
  else if s.portBusy then advance s.tick
  else
    match s.offered with
    | none => .next s.tick
    | some w => execWord w s.tick.accept

/-- The state with that command word where the next step fetches: the port idle with no sequence in progress, the word
offered first, and no block reset in the next step (log entry 5). -/
def State.withFetchWord (s : State) (nbits w : Nat) : State :=
  { s with
    offers := tableWord nbits w :: s.offers
    portBusy := false
    seq := .none
    resetLine := false :: s.resetLine }

end Sys2Proof.Machine
end

