-- ==== Sys2Proof/Machine/Assembler.lean ====
section
/-!
DEFINITION. The assembler and its pseudo-instructions, a tool beside the block: the block executes command words only.
spec/30_encoding.md R56 and R57.
-/

namespace Sys2Proof.Machine

/-- The mnemonics of R49. -/
def mnemonicOf : Opcode → String
  | .initializePanel => "INITIALIZE"
  | .update => "UPDATE"
  | .sleep => "SLEEP"
  | .readStatus => "READ_STATUS"
  | .setOrientation => "SET_ORIENTATION"
  | .setPage => "SET_PAGE"
  | .clear => "CLEAR"
  | .drawPixel => "DRAW_PIXEL"
  | .rawWrite => "RAW_WRITE"
  | .getPixel => "GET_PIXEL"
  | .readCell => "READ_CELL"

/-- The value of a digit in the given base. -/
def digitOf (base : Nat) (c : Char) : Option Nat :=
  let n := c.toNat
  let v := if 48 ≤ n ∧ n ≤ 57 then n - 48 else if 97 ≤ n ∧ n ≤ 102 then n - 87 else if 65 ≤ n ∧ n ≤ 70 then n - 55 else base
  if v < base then some v else none

/-- The number a list of digits writes, after the value of the digits before them. -/
def digitsOf (base : Nat) : Nat → List Char → Option Nat
  | acc, [] => some acc
  | acc, c :: cs => (digitOf base c).bind fun d => digitsOf base (acc * base + d) cs

/-- A decimal or 0x hexadecimal number. Leading zeros are accepted, and 0x without a digit, 0X and a leading plus are not:
DESIGN CHOICE, unsafe (log entry 23). -/
def naturalOf : List Char → Option Nat
  | [] => none
  | ['0', 'x'] => none
  | '0' :: 'x' :: cs => digitsOf 16 0 cs
  | cs => digitsOf 10 0 cs

/-- An operand: a number, with a leading minus for a negative value (R56). R56 gives the minus to negative values and does
not list -0 among the refusals; -0 is accepted and is 0, for every operand, unsigned ones included: DESIGN CHOICE, unsafe
(log entry 23). -/
def integerOf : List Char → Option Int
  | '-' :: cs => (naturalOf cs).map fun n => -(n : Int)
  | cs => (naturalOf cs).map fun n => (n : Int)

/-- A list of characters without the spaces at its ends. -/
def trimSpaces (cs : List Char) : List Char := ((cs.dropWhile (· == ' ')).reverse.dropWhile (· == ' ')).reverse

/-- The parts between commas. -/
def splitCommas : List Char → List (List Char)
  | [] => [[]]
  | c :: cs =>
    if c = ',' then [] :: splitCommas cs
    else
      match splitCommas cs with
      | [] => [[c]]
      | part :: parts => (c :: part) :: parts

/-- The operands of a line, each an integer. -/
def operandList (cs : List Char) : Option (List Int) :=
  if trimSpaces cs = [] then some [] else (splitCommas cs).mapM fun part => integerOf (trimSpaces part)

/-- An 8-bit operand. -/
def byteOperand (v : Int) : Option Byte := if 0 ≤ v ∧ v ≤ 255 then some (BitVec.ofInt 8 v) else none

/-- An unsigned operand. -/
def unsignedOperand (v : Int) : Option Nat := if 0 ≤ v then some v.toNat else none

/-- The orientation operand, 0 to 3. -/
def orientationOperand (v : Int) : Option Orientation :=
  if 0 ≤ v ∧ v ≤ 3 then some (Orientation.ofCode (BitVec.ofInt 2 v)) else none

/-- The command of a mnemonic and its operands; a missing or extra operand is refused. -/
def withOperands : Opcode → List Int → Option Instr
  | .initializePanel, [] => some .initializePanel
  | .update, [] => some .update
  | .sleep, [] => some .sleep
  | .readStatus, [] => some .readStatus
  | .setOrientation, [o] => (orientationOperand o).map .setOrientation
  | .setPage, [p] => some (.setPage p)
  | .clear, [v] => (byteOperand v).map .clear
  | .drawPixel, [x, y, c] => (byteOperand c).map (.drawPixel x y)
  | .rawWrite, [x, y, c] =>
    (unsignedOperand x).bind fun x => (unsignedOperand y).bind fun y => (byteOperand c).map (.rawWrite x y)
  | .getPixel, [x, y] => some (.getPixel x y)
  | .readCell, [a] => (unsignedOperand a).map .readCell
  | _, _ => none

/-- Assemble one line: mnemonic, then operands separated by commas; every operand must lie in the range of its field
(R56). Where spaces may stand and the case of letters: DESIGN CHOICE, unsafe (log entry 18). A line whose first word names a
pseudo-instruction of R57, such as CLEAR_WHITE, is refused as an unknown mnemonic; `expandPseudo` alone expands one, from a
`Pseudo` and not from a line: DESIGN CHOICE, unsafe (log entry 22). -/
def assemble (line : String) : Option Instr :=
  let cs := trimSpaces line.toList
  let name := cs.takeWhile (· != ' ')
  (Opcode.all.find? fun op => (mnemonicOf op).toList == name).bind fun op =>
    ((operandList (cs.drop name.length)).bind (withOperands op)).filter Instr.wellFormed

/-- The integers from `a` to `b`, ascending. -/
def intRange (a b : Int) : List Int := (List.range (b - a + 1).toNat).map fun (k : Nat) => a + (k : Int)

/-- The pixels of an inclusive rectangle in row-major order: y outer, x inner, each ascending (R57, R106). Where the second
corner is less than the first, there are none: DESIGN CHOICE, unsafe (log entry 21). -/
def flushPixels (x0 y0 x1 y1 : Int) : List (Int × Int) :=
  (intRange y0 y1).flatMap fun y => (intRange x0 x1).map fun x => (x, y)

/-- The commands a pseudo-instruction stands for (R57). The colors of a FLUSH are listed in the order of its pixels, and one
with more or fewer colors than pixels is refused: DESIGN CHOICE, unsafe (log entry 18). R57 gives the corners of a FLUSH no
order and no range. With reversed corners (x1 < x0 or y1 < y0) it has no pixels and is a lone UPDATE; corners outside
-32768 to 32767 are not refused, and give DRAW_PIXEL commands that are not well formed. DESIGN CHOICE, unsafe (log
entry 21). -/
def expandPseudo : Pseudo → Option (List Instr)
  | .clearWhite => some [.clear 0xFF]
  | .clearBlack => some [.clear 0x00]
  | .refreshCycle => some [.initializePanel, .update]
  | .flush x0 y0 x1 y1 colors =>
    if colors.length = (flushPixels x0 y0 x1 y1).length then
      some (((flushPixels x0 y0 x1 y1).zipWith (fun xy c => .drawPixel xy.1 xy.2 c) colors) ++ [.update])
    else none

end Sys2Proof.Machine
end

