-- ==== Sys2Proof/Safety.lean ====
section
/-!
DEFINITION. The terms claims use: what stays the same, what a command answers, premises on what the host and the
transport send, the transport traces of the three sequences, runs of several steps, the lines of the assembler, and the
invariant of the machine.
-/

namespace Sys2Proof.Machine

/-- ORIENT, PAGE and SESSION are the same. -/
def SameRegisters (s t : State) : Prop := t.orient = s.orient ∧ t.page = s.page ∧ t.session = s.session

/-- The sequencer's state is the same. -/
def SameSequencer (s t : State) : Prop :=
  t.seq = s.seq ∧ t.stepIdx = s.stepIdx ∧ t.streamIdx = s.streamIdx ∧ t.pollCount = s.pollCount ∧ t.phase = s.phase

/-- Nothing moved on the transport port: no action, no answer used up. -/
def SameTransport (s t : State) : Prop :=
  t.acks = s.acks ∧ t.acksTaken = s.acksTaken ∧ t.busyLevels = s.busyLevels ∧ t.busyTaken = s.busyTaken ∧
    t.trace = s.trace

/-- The parameters and what the host sends are the same. -/
def SameHostSide (s t : State) : Prop := t.params = s.params ∧ t.offers = s.offers ∧ t.resetLine = s.resetLine

/-- Every framebuffer cell reads the same. -/
def SameCells (s t : State) : Prop := ∀ a, t.fb.read a = s.fb.read a

/-- One stored bit is written with `color` and nothing else of the framebuffer changes: 0 sets the bit, any other color
clears it; the other seven bits of the cell and every other cell read the same (R69). -/
def PixelWritten (s t : State) (p : PixelAddr) (color : Byte) : Prop :=
  (∀ a, a ≠ p.cell.val → t.fb.read a = s.fb.read a) ∧
    ∀ b, b < 8 → (t.fb.read p.cell.val).getLsbD b =
      if b = p.bit.val then decide (color = 0) else (s.fb.read p.cell.val).getLsbD b

/-- The command ended: exactly one response, the word `w`, and the port is idle (R53, R96). -/
def Answers (s t : State) (w : ResponseWord) : Prop := t.responses = w :: s.responses ∧ t.portBusy = false

/-- The frame of a command that neither writes a register nor touches the sequencer or the transport port. -/
def QuietFrame (s t : State) : Prop :=
  SameRegisters s t ∧ SameSequencer s t ∧ SameTransport s t ∧ SameHostSide s t

/-- The frame of a whole sequence command (R29): the framebuffer, ORIENT, PAGE, the parameters and the words still on
offer are the same. -/
def SequenceFrame (s t : State) : Prop :=
  SameCells s t ∧ t.orient = s.orient ∧ t.page = s.page ∧ t.params = s.params ∧ t.offers = s.offers

/-- Block reset strikes in none of the steps the reset input lists. -/
def NoReset (s : State) : Prop := ∀ b ∈ s.resetLine, b = false

/-- The next `n` fallible actions are answered ok. -/
def AcksOk (s : State) (n : Nat) : Prop := ∀ k, k < n → s.ackAt k = true

/-- The next `n` busy samples read asserted. -/
def BusyHeld (s : State) (n : Nat) : Prop := ∀ k, k < n → s.busyAt k = true

/-- Busy is asserted for `m` samples and released on the next (R89). -/
def BusyFor (s : State) (m : Nat) : Prop := BusyHeld s m ∧ s.busyAt m = false

/-- The busy-wait bound, if finite, is not reached by `m` asserted samples (R89). -/
def BoundAllows (s : State) (m : Nat) : Prop := ∀ k, s.params.busyTimeoutPolls = some k → m < k

/-- `SEND_CMD(c)` with every answer ok (R83). -/
def cmdEvents (c : Byte) : List Event := [.setControl false true, .write c true]

/-- `SEND_DATA(d)` with every answer ok (R84). -/
def dataEvents (d : Byte) : List Event := [.setControl true true, .write d true]

/-- `n` samples that read asserted, each with the back-off after it (R89). -/
def heldEvents (n : Nat) : List Event := (List.replicate n [Event.readBusy true, Event.delay .poll]).flatten

/-- WAIT_BUSY with busy asserted for `m` samples and released on the next: `2m + 1` events (R89). -/
def waitEvents (m : Nat) : List Event := heldEvents m ++ [.readBusy false]

/-- The transport trace of INIT_SEQ up to its busy wait, every answer ok, oldest event first (R82, R90). -/
def initTraceHead (p : Params) : List Event :=
  [.setReset false true, .delay .rstLow, .setReset true true, .delay .rstHigh] ++
    cmdEvents p.cmdBoosterSoftStart ++
    dataEvents p.boosterData[0] ++ dataEvents p.boosterData[1] ++ dataEvents p.boosterData[2] ++
    cmdEvents p.cmdPowerSetting ++
    dataEvents p.powerData[0] ++ dataEvents p.powerData[1] ++ dataEvents p.powerData[2] ++
    dataEvents p.powerData[3] ++ dataEvents p.powerData[4] ++
    cmdEvents p.cmdPowerOn

/-- The transport trace of INIT_SEQ after its busy wait, every answer ok (R90, R60). -/
def initTraceTail (p : Params) : List Event :=
  cmdEvents p.cmdPanelSetting ++
    dataEvents p.panelData[0] ++ dataEvents p.panelData[1] ++
    cmdEvents p.cmdPllControl ++ dataEvents p.pllData ++
    cmdEvents p.cmdResolutionSetting ++ dataEvents 0x68 ++ dataEvents 0x00 ++ dataEvents 0xD4 ++
    cmdEvents p.cmdVcomDataInterval ++ dataEvents 0x97

/-- The transport trace of INIT_SEQ, every answer ok, busy asserted for `m` samples (R90, R95). -/
def initTrace (p : Params) (m : Nat) : List Event := initTraceHead p ++ waitEvents m ++ initTraceTail p

/-- The data bytes of a stream, every answer ok (R86, R87). -/
def streamEvents (bytes : List Byte) : List Event := bytes.flatMap dataEvents

/-- The framebuffer's cells in ascending address order (R87). -/
def cellsInOrder (m : Memory) : List Byte := (List.range 2756).map m.read

/-- The bytes of the first transmission phase: a full buffer's worth of 0xFF (R60, R86). -/
def fillBytes : List Byte := List.replicate 2756 0xFF

/-- The transport trace of UPDATE_SEQ up to its busy wait, every answer ok, oldest event first (R91). -/
def updateTraceHead (p : Params) (fb : Memory) : List Event :=
  cmdEvents p.cmdDtm1 ++ streamEvents fillBytes ++ cmdEvents p.cmdDtm2 ++
    streamEvents (cellsInOrder fb) ++ cmdEvents p.cmdDisplayRefresh ++ [.delay .refresh]

/-- The transport trace of UPDATE_SEQ, every answer ok, busy asserted for `m` samples (R91, R95). -/
def updateTrace (p : Params) (fb : Memory) (m : Nat) : List Event := updateTraceHead p fb ++ waitEvents m

/-- The transport trace of SLEEP_SEQ, every answer ok (R92). -/
def sleepTrace (p : Params) : List Event :=
  cmdEvents p.cmdVcomDataInterval ++ dataEvents 0xF7 ++ cmdEvents p.cmdPowerOff ++ [.delay .powerOff] ++
    cmdEvents p.cmdDeepSleep ++ dataEvents 0xA5

/-- A fallible action that was answered fail (R79). -/
def Event.failed : Event → Bool
  | .setReset _ ok | .setControl _ ok | .write _ ok => !ok
  | .readBusy _ | .delay _ => false

/-- The same event with the answer fail; a sample and a delay have no such answer. -/
def Event.asFailed : Event → Event
  | .setReset high _ => .setReset high false
  | .setControl isData _ => .setControl isData false
  | .write b _ => .write b false
  | .readBusy asserted => .readBusy asserted
  | .delay p => .delay p

/-- An action that takes an answer ok or fail (R78). -/
def Event.fallible : Event → Bool
  | .setReset _ _ | .setControl _ _ | .write _ _ => true
  | .readBusy _ | .delay _ => false

/-- Is the event a busy sample? -/
def Event.sample : Event → Bool
  | .readBusy _ => true
  | .setReset _ _ | .setControl _ _ | .write _ _ | .delay _ => false

/-- Is the event a byte transfer? -/
def Event.isWrite : Event → Bool
  | .write _ _ => true
  | .setReset _ _ | .setControl _ _ | .readBusy _ | .delay _ => false

/-- Is the event a delay? -/
def Event.isDelay : Event → Bool
  | .delay _ => true
  | .setReset _ _ | .setControl _ _ | .write _ _ | .readBusy _ => false

/-- In a trace, newest first, every byte follows directly the line selection of its own transfer (R83 to R85). -/
def bytesSelected : List Event → Bool
  | [] => true
  | .write _ _ :: .setControl d ok :: rest => ok && bytesSelected (.setControl d ok :: rest)
  | .write _ _ :: _ => false
  | _ :: rest => bytesSelected rest

/-- The state with another framebuffer. -/
def State.withFb (s : State) (fb : Memory) : State := { s with fb := fb }

/-- `n` steps of the machine, stopping at the first fault or refusal. -/
def runSteps : Nat → State → Result
  | 0, s => .next s
  | n + 1, s =>
    match step s with
    | .next t => runSteps n t
    | .fault r => .fault r
    | .refused r => .refused r

/-- Which commands write the framebuffer (R17). -/
def writesFb : Instr → Bool
  | .clear _ | .drawPixel _ _ _ | .rawWrite _ _ _ => true
  | .initializePanel | .update | .sleep | .readStatus | .setOrientation _ | .setPage _ | .getPixel _ _ | .readCell _ => false

/-- Which commands need SESSION = READY (R98). -/
def needsReady : Instr → Bool
  | .update | .sleep | .clear _ | .drawPixel _ _ _ | .rawWrite _ _ _ => true
  | .initializePanel | .readStatus | .setOrientation _ | .setPage _ | .getPixel _ _ | .readCell _ => false

/-- The bits R47 lists as zero in each format. -/
def mustBeZero : Format → Nat → Bool
  | .none, k => decide (k ≤ 55)
  | .value, k => decide (k ≤ 47)
  | .orientation, k => decide (k ≤ 47 ∨ (50 ≤ k ∧ k ≤ 55))
  | .page, k => decide (16 ≤ k ∧ k ≤ 55)
  | .pixelColor, k => decide (32 ≤ k ∧ k ≤ 47)
  | .pixel, k => decide (32 ≤ k ∧ k ≤ 55)
  | .address, k => decide (16 ≤ k ∧ k ≤ 55)

/-- The word names no command: its opcode is undefined, or a bit its format lists as zero is set (R50, R51). -/
def IllegalWord (w : CommandWord) : Prop :=
  (∀ op : Opcode, opcField w ≠ op.code) ∨
    ∃ (op : Opcode) (k : Nat), opcField w = op.code ∧ mustBeZero op.format k = true ∧ w.getLsbD k = true

/-- How many events a primitive has between two points where its count is read (R82 to R89). -/
def Primitive.phases : Primitive → Nat
  | .reset => 4
  | .sendCmd _ | .sendData _ | .sendDataFill _ _ | .sendDataFb => 2
  | .delay _ => 1
  | .waitBusy => 2

/-- How many bytes a stream sends (R86, R87). -/
def Primitive.streamLength : Primitive → Option Nat
  | .sendDataFill _ n => some n
  | .sendDataFb => some Config.cells
  | .reset | .sendCmd _ | .sendData _ | .delay _ | .waitBusy => none

/-- Which way a byte transfer selects the line (R83, R84). -/
def Primitive.selects : Primitive → Option Bool
  | .sendCmd _ => some false
  | .sendData _ | .sendDataFill _ _ | .sendDataFb => some true
  | .reset | .delay _ | .waitBusy => none

/-! ## Lines of the assembler -/

/-- The base an operand is written in (R56). -/
inductive Base
  | decimal
  | hexadecimal
  deriving DecidableEq, Repr

/-- The number of digits of a base. -/
def Base.radix : Base → Nat
  | .decimal => 10
  | .hexadecimal => 16

/-- What stands before the digits of a base (R56). -/
def Base.mark : Base → List Char
  | .decimal => []
  | .hexadecimal => ['0', 'x']

/-- The character of a digit; hexadecimal digits in capitals, as in R56's `CLEAR 0xFF`. -/
def digitChar (d : Nat) : Char := if d < 10 then Char.ofNat (48 + d) else Char.ofNat (55 + d)

/-- A number as its digits, the most significant first. -/
def digitText (radix n : Nat) : List Char :=
  if n = 0 then ['0'] else (Nat.digits radix n).reverse.map digitChar

/-- An operand as R56 writes it: decimal or `0x` hexadecimal, a negative value with a leading `-`. -/
def integerText (b : Base) (v : Int) : List Char :=
  (if v < 0 then ['-'] else []) ++ (b.mark ++ digitText b.radix v.natAbs)

/-- The operands after a mnemonic, separated by commas, a space before each. -/
def operandText : List (Base × Int) → List Char
  | [] => []
  | [v] => ' ' :: integerText v.1 v.2
  | v :: vs => ' ' :: (integerText v.1 v.2 ++ ',' :: operandText vs)

/-- The line of a mnemonic and its operands, each with the base it is written in (R56). -/
def writtenLine (name : String) (texts : List (Base × Int)) : String := String.ofList (name.toList ++ operandText texts)

/-- The operands of a command in the order R56 writes them. -/
def operandsInOrder : Instr → List Int
  | .initializePanel | .update | .sleep | .readStatus => []
  | .setOrientation o => [o.code.toNat]
  | .setPage p => [p]
  | .clear value => [value.toNat]
  | .drawPixel x y color => [x, y, color.toNat]
  | .rawWrite x y color => [x, y, color.toNat]
  | .getPixel x y => [x, y]
  | .readCell addr => [addr]

/-- The operands an assembler does not refuse: as many as the mnemonic takes, each in the range of its field (R56). -/
def OperandsFit : Opcode → List Int → Prop
  | .initializePanel, [] | .update, [] | .sleep, [] | .readStatus, [] => True
  | .setOrientation, [o] => 0 ≤ o ∧ o ≤ 3
  | .setPage, [p] => -32768 ≤ p ∧ p ≤ 32767
  | .clear, [value] => 0 ≤ value ∧ value ≤ 255
  | .drawPixel, [x, y, color] =>
    (-32768 ≤ x ∧ x ≤ 32767) ∧ (-32768 ≤ y ∧ y ≤ 32767) ∧ (0 ≤ color ∧ color ≤ 255)
  | .rawWrite, [x, y, color] => (0 ≤ x ∧ x ≤ 65535) ∧ (0 ≤ y ∧ y ≤ 65535) ∧ (0 ≤ color ∧ color ≤ 255)
  | .getPixel, [x, y] => (-32768 ≤ x ∧ x ≤ 32767) ∧ (-32768 ≤ y ∧ y ≤ 32767)
  | .readCell, [addr] => 0 ≤ addr ∧ addr ≤ 65535
  | _, _ => False

/-- The invariant of the machine. -/
structure State.Inv (s : State) : Prop where
  /-- The framebuffer store keeps its canonical form (R18). -/
  memory : s.fb.wf
  /-- The port is busy exactly while a sequence is in progress (R25, R96). -/
  busy : s.portBusy = true ↔ s.seq ≠ .none
  /-- SESSION is UPDATING exactly while UPDATE_SEQ runs (R22, R97). -/
  updating : s.session = .updating ↔ s.seq = .updateSeq
  /-- SLEEP_SEQ runs in READY (R97, R101). -/
  sleeping : s.seq = .sleepSeq → s.session = .ready
  /-- STEP points at a primitive, at one of its events, and a stream has a byte left (R16, R25). -/
  position : s.seq ≠ .none → ∃ p, s.current = some p ∧ s.phase < p.phases ∧
    ∀ n, p.streamLength = some n → s.streamIdx < n
  /-- Within a byte transfer the line has just been selected for it (R85). -/
  selected : ∀ p d, s.current = some p → p.selects = some d → s.phase = 1 →
    s.trace.head? = some (.setControl d true)
  /-- Every byte in the trace follows directly the selection of its line (R85). -/
  transfers : bytesSelected s.trace = true

end Sys2Proof.Machine
end

