-- ==== Sys2Proof/Certificates/Slice0/Obligations.lean ====
section
/-!
DEFINITION. The statements for the provers. Each docstring names the rules of spec/ the statement formalises; a word such
as 0x20000000#32 is the response word {STATUS, DATA} of R53 and R54.
-/

open Sys2Proof Sys2Proof.Machine

/-! ## Encoding -/

/-- R46 to R49, R62: decoding the word of a well-formed command gives that command back, every operand at every value its
field admits. -/
def Obligations.DecodeEncodeRoundTrip : Prop :=
  ∀ i : Instr, i.wellFormed = true → decode (encode i) = .ok i

/-- R46 to R49, R62: a word that decodes has one meaning: the command is well formed and its word is that word. -/
def Obligations.EncodeDecodeRoundTrip : Prop :=
  ∀ (w : CommandWord) (i : Instr), decode w = .ok i → i.wellFormed = true ∧ encode i = w

/-- R50, R51, R62: a word decodes exactly when its opcode is defined and no bit its format lists as zero (R47) is set; it
is then the command of its opcode. -/
def Obligations.DecoderRejectsExactlyIllegalWords : Prop :=
  ∀ w : CommandWord,
    (IllegalWord w ↔ ∃ e, decode w = .error e) ∧
      ∀ i, decode w = .ok i → opcField w = i.opcode.code

/-- R62: `(word AND mask) == match` of spec/opcode_table.json selects each command, and no word matches two rows. -/
def Obligations.OpcodeTableSelectsCommands : Prop :=
  (∀ (w : CommandWord) (op : Opcode),
    (∃ i, decode w = .ok i ∧ i.opcode = op) ↔ w &&& op.tableMask = op.tableMatch) ∧
  ∀ (w : CommandWord) (op op' : Opcode),
    w &&& op.tableMask = op.tableMatch → w &&& op'.tableMask = op'.tableMatch → op = op'

/-- R56: words written out from the encoding, one for each family and format, and two illegal ones (R50, R51). -/
def Obligations.SampleWordsDecode : Prop :=
  decode 0x0200000000000000 = .ok .update ∧
  decode 0x1002000000000000 = .ok (.setOrientation .deg180) ∧
  decode 0x110000000000FFFF = .ok (.setPage (-1)) ∧
  decode 0x20FF000000000000 = .ok (.clear 0xFF) ∧
  decode 0x210000000005000A = .ok (.drawPixel 5 10 0) ∧
  decode 0x2201000000680000 = .ok (.rawWrite 104 0 1) ∧
  decode 0x30000000FFFF0000 = .ok (.getPixel (-1) 0) ∧
  decode 0x3100000000000AC3 = .ok (.readCell 2755) ∧
  decode 0x2200800000000000 = .error .reservedBit ∧
  decode 0xFF00000000000000 = .error .undefinedOpcode

/-! ## The step of the machine -/

/-- R96: an idle port accepts the offered word, sets PORT_BUSY and executes the command the word decodes to. Around it,
the step only uses up one sample of the block reset input (log entry 6). -/
def Obligations.StepRunsDecodedCommand : Prop :=
  ∀ (s : State) (w : CommandWord) (ws : List CommandWord) (i : Instr),
    s.resetStrikes = false → s.portBusy = false → s.offers = w :: ws → decode w = .ok i →
    step s = exec i { s with portBusy := true, offers := ws, resetLine := s.resetLine.tail }

/-- R50, R51, R110: a word with an undefined opcode or a reserved bit set is answered ILLEGAL_COMMAND in every SESSION
state; no state changes and no transport action happens. -/
def Obligations.IllegalWordAnsweredWithoutEffect : Prop :=
  ∀ (s : State) (w : CommandWord) (ws : List CommandWord),
    s.resetStrikes = false → s.portBusy = false → s.offers = w :: ws → IllegalWord w →
    ∃ t, step s = .next t ∧ Answers s t 0x50000000#32 ∧ SameCells s t ∧ SameRegisters s t ∧ SameSequencer s t ∧
      SameTransport s t ∧ t.params = s.params ∧ t.offers = ws

/-- R29, R36, R93, R96: while a command executes, a step accepts no word, gives at most one response, and changes no
framebuffer cell, no ORIENT and no PAGE; the response makes the port idle. SESSION is not named here: it changes at the
last event of a sequence (R97). -/
def Obligations.BusyPortHoldsOffer : Prop :=
  ∀ s t : State, s.resetStrikes = false → s.portBusy = true → step s = .next t →
    t.offers = s.offers ∧ SameCells s t ∧ t.orient = s.orient ∧ t.page = s.page ∧
      ((t.responses = s.responses ∧ t.portBusy = true) ∨ ∃ r, Answers s t r)

/-- R128: an idle port with no word offered waits: a step changes nothing of the block and does not touch the transport. -/
def Obligations.IdlePortWaits : Prop :=
  ∀ s : State, s.resetStrikes = false → s.portBusy = false → s.offers = [] →
    ∃ t, step s = .next t ∧ t.portBusy = false ∧ t.responses = s.responses ∧ SameCells s t ∧ SameRegisters s t ∧
      SameSequencer s t ∧ SameTransport s t

/-- R127: block reset, whatever the block is doing, sets every piece of state to its reset value, performs no transport
action, gives no response, and changes no parameter. -/
def Obligations.BlockResetSetsEverything : Prop :=
  ∀ s : State, s.resetStrikes = true →
    ∃ t, step s = .next t ∧ (∀ a, a < 2756 → t.fb.read a = 0x00#8) ∧ t.orient = .deg0 ∧ t.page.toInt = -1 ∧
      t.session = .uninitialized ∧ t.portBusy = false ∧ t.seq = .none ∧ t.stepIdx = 0 ∧ t.streamIdx = 0 ∧
      t.pollCount = 0 ∧ SameTransport s t ∧ t.responses = s.responses ∧ t.params = s.params

/-- R17, R18, R20 to R22, R25: the machine starts with every register and every cell at the value the spec gives. -/
def Obligations.ResetStateHasSpecValues : Prop :=
  (∀ a, State.reset.fb.read a = 0x00#8) ∧ State.reset.orient.code = 0#2 ∧ State.reset.page = 0xFFFF#16 ∧
    State.reset.session.code = 0#2 ∧ State.reset.portBusy = false ∧ State.reset.seq = .none ∧
    State.reset.stepIdx = 0 ∧ State.reset.streamIdx = 0 ∧ State.reset.pollCount = 0

/-- R14, R44: with a sequence in progress each step does exactly one transport action or delay; a step of an idle port
does none. That a step is one event is the model's reading of R14 (log entry 1). -/
def Obligations.OneEventPerStep : Prop :=
  ∀ s t : State, s.Inv → s.resetStrikes = false → step s = .next t →
    (s.portBusy = true → ∃ e, t.trace = e :: s.trace) ∧ (s.portBusy = false → t.trace = s.trace)

/-! ## Invariants -/

/-- The reset state meets the invariant. -/
def Obligations.ResetMeetsInvariant : Prop := State.reset.Inv

/-- R18, R22, R25, R85, R96, R97: every step keeps the invariant: the framebuffer store is canonical, the port is busy
exactly while a sequence runs, SESSION is UPDATING exactly during UPDATE_SEQ, the sequencer stands at one of its events,
and every byte sent to the panel follows directly the selection of its line. -/
def Obligations.StepKeepsInvariant : Prop := ∀ s t : State, s.Inv → step s = .next t → t.Inv

/-- R109, R119: a machine that meets the invariant never stops: every step answers a next state. -/
def Obligations.InvariantStatesStep : Prop := ∀ s : State, s.Inv → ∃ t, step s = .next t

/-! ## Whole-machine rules -/

/-- R97: SESSION changes exactly as the table of the session state machine says: on block reset, when UPDATE is accepted in
READY, and when a sequence ends, by how it ends; in every other step it stays. -/
def Obligations.SessionFollowsStateMachine : Prop :=
  ∀ s t : State, s.Inv → step s = .next t →
    (s.resetStrikes = true → t.session = .uninitialized) ∧
    (s.resetStrikes = false → s.portBusy = true →
      (s.seq = .initSeq → Answers s t 0x00000000#32 → t.session = .ready) ∧
      (s.seq = .updateSeq → Answers s t 0x00000000#32 → s.session = .updating ∧ t.session = .ready) ∧
      (s.seq = .sleepSeq → Answers s t 0x00000000#32 → s.session = .ready ∧ t.session = .asleep) ∧
      (Answers s t 0x30000000#32 ∨ Answers s t 0x40000000#32 → t.session = .uninitialized) ∧
      (t.portBusy = true → t.session = s.session)) ∧
    (s.resetStrikes = false → s.portBusy = false →
      ((s.session = .ready ∧ ∃ w, s.offers.head? = some w ∧ decode w = .ok .update) →
        t.session = .updating ∧ t.seq = .updateSeq) ∧
      (¬(s.session = .ready ∧ ∃ w, s.offers.head? = some w ∧ decode w = .ok .update) → t.session = s.session))

/-- R17, R29: only block reset and a register's writers change FB, ORIENT and PAGE; the lifecycle commands and their
failures do not. -/
def Obligations.VisibleStateHasOnlyItsWriters : Prop :=
  ∀ s t : State, step s = .next t → s.resetStrikes = false →
    (t.orient ≠ s.orient → s.portBusy = false ∧
      ∃ w, s.offers.head? = some w ∧ decode w = .ok (.setOrientation t.orient)) ∧
    (t.page ≠ s.page → s.portBusy = false ∧
      ∃ w, s.offers.head? = some w ∧ decode w = .ok (.setPage t.page.toInt)) ∧
    (¬SameCells s t → s.portBusy = false ∧ s.session = .ready ∧
      ∃ w i, s.offers.head? = some w ∧ decode w = .ok i ∧ writesFb i = true)

/-- R27: no step writes a parameter, block reset included. -/
def Obligations.ParametersNeverChange : Prop := ∀ s t : State, step s = .next t → t.params = s.params

/-- R53, R54: a step gives no response or exactly one; its STATUS is 0 to 5, and its DATA is 0 unless STATUS is OK. -/
def Obligations.ResponsesAreLegal : Prop :=
  ∀ s t : State, step s = .next t → t.responses ≠ s.responses →
    ∃ r, Answers s t r ∧ (r.extractLsb' 28 4).toNat ≤ 5 ∧ (r.extractLsb' 28 4 ≠ 0#4 → r.extractLsb' 0 28 = 0#28)

/-- R79: an action answered fail ends the sequence at once: the command answers TRANSPORT_FAILURE, SESSION is
UNINITIALIZED, the port is idle, and the failing action is the last of the trace. -/
def Obligations.FailedActionEndsSequence : Prop :=
  ∀ (s t : State) (e : Event), step s = .next t → t.trace = e :: s.trace → e.failed = true →
    Answers s t 0x30000000#32 ∧ t.seq = .none ∧ t.session = .uninitialized ∧ SequenceFrame s t

/-- R113: TRANSPORT_FAILURE has no other cause, and only INITIALIZE, UPDATE and SLEEP can raise it. -/
def Obligations.TransportFailureCause : Prop :=
  ∀ s t : State, s.resetStrikes = false → step s = .next t →
    (Answers s t 0x30000000#32 ↔ ∃ e, t.trace = e :: s.trace ∧ e.failed = true) ∧
      (Answers s t 0x30000000#32 → s.portBusy = true ∧ (s.seq = .initSeq ∨ s.seq = .updateSeq ∨ s.seq = .sleepSeq))

/-- R114: PANEL_TIMEOUT means that the bound is finite and WAIT_BUSY has seen busy asserted on that many samples; it
arises only at step 12 of INIT_SEQ and step 6 of UPDATE_SEQ. -/
def Obligations.PanelTimeoutCause : Prop :=
  ∀ s t : State, step s = .next t → Answers s t 0x40000000#32 →
    (∃ k, s.params.busyTimeoutPolls = some k ∧ k ≤ s.pollCount + 1) ∧ t.trace = .readBusy true :: s.trace ∧
      ((s.seq = .initSeq ∧ s.stepIdx = 12) ∨ (s.seq = .updateSeq ∧ s.stepIdx = 6))

/-- R98, R112: in SESSION other than READY the gated commands answer PANEL_NOT_READY, change no state and perform no
transport action; no other command ever answers it, and no command does in READY. -/
def Obligations.GatedCommandsNeedReady : Prop :=
  ∀ (i : Instr) (s : State),
    (needsReady i = true ∧ s.session ≠ .ready →
      ∃ t, exec i s = .next t ∧ Answers s t 0x20000000#32 ∧ SameCells s t ∧ QuietFrame s t) ∧
    (∀ t, exec i s = .next t → Answers s t 0x20000000#32 → needsReady i = true ∧ s.session ≠ .ready)

/-- R111, R116: INVALID_COORDINATE has three causes and no others; where it is given nothing else happens. PANEL_NOT_READY
goes before it. -/
def Obligations.InvalidCoordinateCauses : Prop :=
  ∀ (i : Instr) (s t : State), exec i s = .next t →
    (Answers s t 0x10000000#32 ↔
      (∃ x y color, i = .rawWrite x y color ∧ s.session = .ready ∧ (104 ≤ x ∨ 212 ≤ y)) ∨
      (∃ x y, i = .getPixel x y ∧ pixelTarget s.orient s.page x y = none) ∨
      (∃ addr, i = .readCell addr ∧ 2756 ≤ addr)) ∧
    (Answers s t 0x10000000#32 → SameCells s t ∧ QuietFrame s t)

/-- R104: READ_STATUS never reads SESSION as 3 (UPDATING). -/
def Obligations.StatusNeverReadsUpdating : Prop :=
  ∀ (s t : State) (w : CommandWord) (ws : List CommandWord), s.Inv → s.resetStrikes = false → s.portBusy = false →
    s.offers = w :: ws → decode w = .ok .readStatus → step s = .next t →
    ∃ r, t.responses = r :: s.responses ∧ r.extractLsb' 18 2 ≠ 3#2

/-! ## The pixel pipeline -/

/-- R63 to R68: PixelTarget answers a cell and a bit exactly when the logical bounds, the orientation transform, the page
transform, the physical x sign and the address give them. -/
def Obligations.PixelTargetFollowsPipeline : Prop :=
  ∀ (o : Orientation) (page : BitVec 16) (x y : Int) (p : PixelAddr),
    pixelTarget o page x y = some p ↔
      (0 ≤ x ∧ x < 104 ∧ 0 ≤ y ∧ y < 212) ∧
      ∃ xp yo yp : Int,
        (o = .deg0 → xp = x ∧ yo = y) ∧
        (o = .deg90 → xp = 104 - y - 1 ∧ yo = x) ∧
        (o = .deg180 → xp = 104 - x - 1 ∧ yo = 212 - y - 1) ∧
        (o = .deg270 → xp = y ∧ yo = 212 - x - 1) ∧
        ((page.toInt < 1 ∧ yp = yo) ∨ (1 ≤ page.toInt ∧ yp = yo - page.toInt * 212 ∧ 0 ≤ yp ∧ yp < 212)) ∧
        0 ≤ xp ∧ (p.cell.val : Int) = xp / 8 + yp * 13 ∧ (p.bit.val : Int) = 7 - xp % 8

/-- R65: where the physical coordinates lie after stages 1 and 2, for each orientation. -/
def Obligations.OrientTransformRanges : Prop :=
  ∀ (o : Orientation) (x y xp yp : Int), 0 ≤ x ∧ x < 104 → 0 ≤ y ∧ y < 212 → orientTransform o x y = (xp, yp) →
    (o = .deg0 → xp = x ∧ yp = y ∧ 0 ≤ xp ∧ xp ≤ 103 ∧ 0 ≤ yp ∧ yp ≤ 211) ∧
    (o = .deg90 → xp = 104 - y - 1 ∧ yp = x ∧ -108 ≤ xp ∧ xp ≤ 103 ∧ 0 ≤ yp ∧ yp ≤ 103) ∧
    (o = .deg180 → xp = 104 - x - 1 ∧ yp = 212 - y - 1 ∧ 0 ≤ xp ∧ xp ≤ 103 ∧ 0 ≤ yp ∧ yp ≤ 211) ∧
    (o = .deg270 → xp = y ∧ yp = 212 - x - 1 ∧ 0 ≤ xp ∧ xp ≤ 211 ∧ 108 ≤ yp ∧ yp ≤ 211)

/-- R32: with L = yp*W + xp the addressed cell is L div 8 and the bit 7 - (L mod 8), also when xp is W or more. -/
def Obligations.AddressIsLinearIndex : Prop :=
  ∀ (xp yp : Int) (p : PixelAddr), 0 ≤ xp → 0 ≤ yp → cellStage xp yp = some p →
    (p.cell.val : Int) = (yp * 104 + xp) / 8 ∧ (p.bit.val : Int) = 7 - (yp * 104 + xp) % 8

/-- R70 (a): in ORIENT 0 and ORIENT 2, with paging off, every stored bit is the target of exactly one in-range logical
coordinate, and no in-range coordinate is discarded. -/
def Obligations.Orient0And2AreBijective : Prop :=
  ∀ (o : Orientation) (page : BitVec 16), (o = .deg0 ∨ o = .deg180) → page.toInt < 1 →
    (∀ p : PixelAddr, ∃ x y : Int, pixelTarget o page x y = some p ∧
      ∀ x' y', pixelTarget o page x' y' = some p → x' = x ∧ y' = y) ∧
    ∀ x y : Int, 0 ≤ x ∧ x < 104 → 0 ≤ y ∧ y < 212 → ∃ p, pixelTarget o page x y = some p

/-- R70 (b), R67: in ORIENT 1, with paging off, exactly the in-range coordinates with y >= 104 are discarded, and the
others map one-to-one onto the first 104 physical rows. -/
def Obligations.Orient1ReachesFirstRows : Prop :=
  ∀ page : BitVec 16, page.toInt < 1 →
    (∀ x y : Int, 0 ≤ x ∧ x < 104 → 0 ≤ y ∧ y < 212 → (pixelTarget .deg90 page x y = none ↔ 104 ≤ y)) ∧
    ∀ p : PixelAddr,
      (p.cell.val < 104 * 13 → ∃ x y : Int, pixelTarget .deg90 page x y = some p ∧
        ∀ x' y', pixelTarget .deg90 page x' y' = some p → x' = x ∧ y' = y) ∧
      (104 * 13 ≤ p.cell.val → ∀ x y : Int, pixelTarget .deg90 page x y ≠ some p)

/-- R70 (c): in ORIENT 3, with paging off, the coordinates with y < 104 map one-to-one onto physical rows 108 to 211, no
coordinate reaches a row below 108, an in-range coordinate is discarded only when its linear index is 22048 or more, and
two coordinates can share a pixel: (1, 104) and (0, 0) both address cell 2743 bit 7. -/
def Obligations.Orient3AliasesLastRows : Prop :=
  ∀ page : BitVec 16, page.toInt < 1 →
    (∀ p : PixelAddr, 108 * 13 ≤ p.cell.val → ∃ x y : Int, y < 104 ∧ pixelTarget .deg270 page x y = some p ∧
      ∀ x' y', y' < 104 → pixelTarget .deg270 page x' y' = some p → x' = x ∧ y' = y) ∧
    (∀ (x y : Int) (p : PixelAddr), pixelTarget .deg270 page x y = some p → 108 * 13 ≤ p.cell.val) ∧
    (∀ x y : Int, 0 ≤ x ∧ x < 104 → 0 ≤ y ∧ y < 212 →
      (pixelTarget .deg270 page x y = none ↔ 22048 ≤ (212 - x - 1) * 104 + y)) ∧
    pixelTarget .deg270 page 1 104 = some ⟨2743, 7⟩ ∧ pixelTarget .deg270 page 0 0 = some ⟨2743, 7⟩

/-- R70 (d): with PAGE >= 1 every coordinate is discarded. -/
def Obligations.PagingDiscardsEverything : Prop :=
  ∀ (o : Orientation) (page : BitVec 16) (x y : Int), 1 ≤ page.toInt → pixelTarget o page x y = none

/-! ## The framebuffer commands -/

/-- R72: CLEAR in READY sets every cell to the value and answers OK; nothing else changes. -/
def Obligations.ClearFillsEveryCell : Prop :=
  ∀ (s : State) (value : Byte), s.session = .ready →
    ∃ t, exec (.clear value) s = .next t ∧ Answers s t 0x00000000#32 ∧ (∀ a, a < 2756 → t.fb.read a = value) ∧
      QuietFrame s t

/-- R72: CLEAR 0xFF followed by CLEAR 0x00 leaves the framebuffer equal to its reset value. -/
def Obligations.ClearTwiceEqualsReset : Prop :=
  ∀ s t u : State, s.session = .ready → exec (.clear 0xFF) s = .next t → exec (.clear 0x00) t = .next u →
    u.fb = State.reset.fb

/-- R73, R69: DRAW_PIXEL in READY answers OK; a pixel the pipeline keeps has its one bit written, a pixel it discards
changes nothing; the registers, the sequencer and the transport are untouched. -/
def Obligations.DrawPixelWritesOneBit : Prop :=
  ∀ (s : State) (x y : Int) (color : Byte), s.fb.wf → s.session = .ready →
    ∃ t, exec (.drawPixel x y color) s = .next t ∧ Answers s t 0x00000000#32 ∧ QuietFrame s t ∧
      (∀ p, pixelTarget s.orient s.page x y = some p → PixelWritten s t p color) ∧
      (pixelTarget s.orient s.page x y = none → SameCells s t)

/-- R64: a coordinate outside [0,104) x [0,212) is discarded, with the same bound for every orientation: DRAW_PIXEL
answers OK and changes no state. -/
def Obligations.OutOfBoundsDrawIsDiscarded : Prop :=
  ∀ (s : State) (x y : Int) (color : Byte), s.session = .ready → (x < 0 ∨ 104 ≤ x ∨ y < 0 ∨ 212 ≤ y) →
    ∃ t, exec (.drawPixel x y color) s = .next t ∧ Answers s t 0x00000000#32 ∧ SameCells s t ∧ QuietFrame s t

/-- R74, R69: RAW_WRITE in READY, inside the panel, writes bit 7 - (x mod 8) of cell x div 8 + y*13 whatever ORIENT and
PAGE are, and answers OK. -/
def Obligations.RawWriteWritesOneBit : Prop :=
  ∀ (s : State) (x y : Nat) (color : Byte), s.fb.wf → s.session = .ready → x < 104 → y < 212 →
    ∃ (t : State) (p : PixelAddr), exec (.rawWrite x y color) s = .next t ∧ p.cell.val = x / 8 + y * 13 ∧
      p.bit.val = 7 - x % 8 ∧ PixelWritten s t p color ∧ Answers s t 0x00000000#32 ∧ QuietFrame s t

/-- R74, R77: RAW_WRITE in READY, outside the panel, is rejected with INVALID_COORDINATE and changes nothing. -/
def Obligations.RawWriteRejectsOutside : Prop :=
  ∀ (s : State) (x y : Nat) (color : Byte), s.session = .ready → (104 ≤ x ∨ 212 ≤ y) →
    ∃ t, exec (.rawWrite x y color) s = .next t ∧ Answers s t 0x10000000#32 ∧ SameCells s t ∧ QuietFrame s t

/-- R75, R55: GET_PIXEL, in every SESSION, answers the stored bit in DATA[0], or INVALID_COORDINATE where the pipeline
discards; it changes no state. -/
def Obligations.GetPixelAnswersStoredBit : Prop :=
  ∀ (s : State) (x y : Int),
    ∃ t, exec (.getPixel x y) s = .next t ∧ SameCells s t ∧ QuietFrame s t ∧
      (∀ p, pixelTarget s.orient s.page x y = some p →
        Answers s t (if (s.fb.read p.cell.val).getLsbD p.bit.val then 0x00000001#32 else 0x00000000#32)) ∧
      (pixelTarget s.orient s.page x y = none → Answers s t 0x10000000#32)

/-- R76, R55: READ_CELL, in every SESSION, answers the cell in DATA[7:0], or INVALID_COORDINATE at an address of 2756 or
more; it changes no state. -/
def Obligations.ReadCellAnswersCell : Prop :=
  ∀ (s : State) (addr : Nat),
    ∃ t, exec (.readCell addr) s = .next t ∧ SameCells s t ∧ QuietFrame s t ∧
      (addr < 2756 → Answers s t ((s.fb.read addr).setWidth 32)) ∧ (2756 ≤ addr → Answers s t 0x10000000#32)

/-- R75: after a DRAW_PIXEL that was not discarded, GET_PIXEL of the same coordinate answers 1 if the color is 0 and 0
otherwise. -/
def Obligations.GetPixelReadsBackDraw : Prop :=
  ∀ (s : State) (x y : Int) (color : Byte), s.fb.wf → s.session = .ready → pixelTarget s.orient s.page x y ≠ none →
    ∃ t u, exec (.drawPixel x y color) s = .next t ∧ exec (.getPixel x y) t = .next u ∧
      Answers t u (if color = 0 then 0x00000001#32 else 0x00000000#32)

/-- R69: a pixel write is idempotent: doing it twice gives the same framebuffer as doing it once. -/
def Obligations.PixelWriteIsIdempotent : Prop :=
  ∀ (s : State) (i : Instr), s.fb.wf → s.session = .ready →
    ((∃ x y color, i = .drawPixel x y color) ∨ ∃ x y color, i = .rawWrite x y color) →
    ∃ t u, exec i s = .next t ∧ exec i t = .next u ∧ u.fb = t.fb

/-! ## The register commands -/

/-- R102: SET_ORIENTATION, in every SESSION, writes ORIENT and answers OK; no cell changes and no transport action
happens. -/
def Obligations.SetOrientationWritesOrient : Prop :=
  ∀ (s : State) (o : Orientation),
    ∃ t, exec (.setOrientation o) s = .next t ∧ t.orient = o ∧ Answers s t 0x00000000#32 ∧ SameCells s t ∧
      t.page = s.page ∧ t.session = s.session ∧ SameSequencer s t ∧ SameTransport s t ∧ SameHostSide s t

/-- R103, R21: SET_PAGE, in every SESSION, writes PAGE with any s16 value, which reads back as written, and answers OK; no
cell changes and no transport action happens. -/
def Obligations.SetPageWritesPage : Prop :=
  ∀ (s : State) (p : Int), -32768 ≤ p ∧ p ≤ 32767 →
    ∃ t, exec (.setPage p) s = .next t ∧ t.page.toInt = p ∧ Answers s t 0x00000000#32 ∧ SameCells s t ∧
      t.orient = s.orient ∧ t.session = s.session ∧ SameSequencer s t ∧ SameTransport s t ∧ SameHostSide s t

/-- R104, R55, R22, R20: READ_STATUS, in every SESSION, answers PAGE in DATA[15:0], ORIENT in DATA[17:16], SESSION in
DATA[19:18] and zeros above, with STATUS OK; it changes no state. -/
def Obligations.ReadStatusAnswersRegisters : Prop :=
  ∀ s : State,
    ∃ t r, exec .readStatus s = .next t ∧ Answers s t r ∧ SameCells s t ∧ QuietFrame s t ∧
      r.extractLsb' 0 16 = s.page ∧
      (r.extractLsb' 16 2).toNat =
        (if s.orient = .deg0 then 0 else if s.orient = .deg90 then 1 else if s.orient = .deg180 then 2 else 3) ∧
      (r.extractLsb' 18 2).toNat =
        (if s.session = .uninitialized then 0 else if s.session = .ready then 1 else if s.session = .asleep then 2 else 3) ∧
      r.extractLsb' 20 12 = 0#12

/-! ## The sequence commands -/

/-- R25, R97: where INITIALIZE (in every SESSION), UPDATE and SLEEP (in READY) are executed, their sequence starts at its
first primitive with its counters at 0; UPDATE sets SESSION to UPDATING, and nothing else changes yet. -/
def Obligations.SequenceStartsAtFirstPrimitive : Prop :=
  ∀ (s : State) (i : Instr) (q : SeqId) (session : Session),
    ((i = .initializePanel ∧ q = .initSeq ∧ session = s.session) ∨
      (i = .update ∧ q = .updateSeq ∧ s.session = .ready ∧ session = .updating) ∨
      (i = .sleep ∧ q = .sleepSeq ∧ s.session = .ready ∧ session = .ready)) →
    ∃ t, exec i s = .next t ∧ t.seq = q ∧ t.stepIdx = 0 ∧ t.streamIdx = 0 ∧ t.pollCount = 0 ∧ t.session = session ∧
      t.portBusy = s.portBusy ∧ t.responses = s.responses ∧ SameCells s t ∧ t.orient = s.orient ∧ t.page = s.page ∧
      SameTransport s t ∧ SameHostSide s t

/-- R90, R99: INITIALIZE, in every SESSION, every action ok, busy asserted for `m` samples within the bound: it starts
INIT_SEQ, and when it ends SESSION is READY, the response is OK, the port is idle, the transport has seen exactly
INIT_SEQ, and FB, ORIENT and PAGE are unchanged. -/
def Obligations.InitializeRunsInitSequence : Prop :=
  ∀ (s : State) (m : Nat), s.portBusy = true → NoReset s → AcksOk s 46 → BusyFor s m → BoundAllows s m →
    ∃ t n u, exec .initializePanel s = .next t ∧ runSteps n t = .next u ∧ u.session = .ready ∧
      Answers s u 0x00000000#32 ∧ u.seq = .none ∧ u.trace = (initTrace s.params m).reverse ++ s.trace ∧
      SequenceFrame s u

/-- R91, R45, R100: UPDATE in READY, every action ok, busy asserted for `m` samples within the bound: SESSION is UPDATING
from its start, and when UPDATE_SEQ ends SESSION is READY, the response is OK, the port is idle, the transport has seen
exactly UPDATE_SEQ with the 2756 cells as they stood when UPDATE was accepted, and FB, ORIENT and PAGE are unchanged. -/
def Obligations.UpdateStreamsFramebuffer : Prop :=
  ∀ (s : State) (m : Nat), s.session = .ready → s.portBusy = true → NoReset s → AcksOk s 11030 → BusyFor s m →
    BoundAllows s m →
    ∃ t n u, exec .update s = .next t ∧ t.session = .updating ∧ runSteps n t = .next u ∧
      u.session = .ready ∧ Answers s u 0x00000000#32 ∧ u.seq = .none ∧
      u.trace = (updateTrace s.params s.fb m).reverse ++ s.trace ∧ SequenceFrame s u

/-- R92, R101: SLEEP in READY, every action ok: when SLEEP_SEQ ends SESSION is ASLEEP, the response is OK,
the port is idle, the transport has seen exactly SLEEP_SEQ, and FB, ORIENT and PAGE are unchanged. -/
def Obligations.SleepRunsSleepSequence : Prop :=
  ∀ s : State, s.session = .ready → s.portBusy = true → NoReset s → AcksOk s 10 →
    ∃ t n u, exec .sleep s = .next t ∧ runSteps n t = .next u ∧ u.session = .asleep ∧ Answers s u 0x00000000#32 ∧
      u.seq = .none ∧ u.trace = (sleepTrace s.params).reverse ++ s.trace ∧ SequenceFrame s u

/-- R95: the sizes of what INITIALIZE, UPDATE and SLEEP add to the trace when they run to their OK response, every answer
ok and busy asserted for `m` samples: `es` is the added events, oldest first, and counted are all events, the Write actions,
the ReadBusy actions and the Delay events. UPDATE's Write actions are 3 of commands and 5512 of data: the line is selected
for each, and 2756 data bytes come after each of its two start-transmission commands. -/
def Obligations.TraceSizes : Prop :=
  (∀ (s : State) (m : Nat), s.portBusy = true → NoReset s → AcksOk s 46 → BusyFor s m → BoundAllows s m →
    ∃ (t : State) (n : Nat) (u : State) (es : List Event), exec .initializePanel s = .next t ∧ runSteps n t = .next u ∧
      Answers s u 0x00000000#32 ∧ u.trace = es.reverse ++ s.trace ∧ es.length = 49 + 2 * m ∧
      es.countP Event.isWrite = 22 ∧ es.countP Event.sample = m + 1 ∧ es.countP Event.isDelay = 2 + m) ∧
  (∀ (s : State) (m : Nat), s.session = .ready → s.portBusy = true → NoReset s → AcksOk s 11030 → BusyFor s m →
    BoundAllows s m →
    ∃ (t : State) (n : Nat) (u : State) (es : List Event), exec .update s = .next t ∧ runSteps n t = .next u ∧
      Answers s u 0x00000000#32 ∧ u.trace = es.reverse ++ s.trace ∧ es.length = 11032 + 2 * m ∧
      es.countP Event.isWrite = 5515 ∧ es.count (.setControl false true) = 3 ∧ es.count (.setControl true true) = 5512 ∧
      es.countP Event.sample = m + 1 ∧ es.countP Event.isDelay = 1 + m ∧
      ∃ a b c, es = cmdEvents s.params.cmdDtm1 ++ a ++ cmdEvents s.params.cmdDtm2 ++ b ++
          cmdEvents s.params.cmdDisplayRefresh ++ c ∧
        a.countP Event.isWrite = 2756 ∧ a.count (.setControl true true) = 2756 ∧ a.count (.setControl false true) = 0 ∧
        b.countP Event.isWrite = 2756 ∧ b.count (.setControl true true) = 2756 ∧ b.count (.setControl false true) = 0 ∧
        c.countP Event.isWrite = 0) ∧
  ∀ s : State, s.session = .ready → s.portBusy = true → NoReset s → AcksOk s 10 →
    ∃ (t : State) (n : Nat) (u : State) (es : List Event), exec .sleep s = .next t ∧ runSteps n t = .next u ∧
      Answers s u 0x00000000#32 ∧ u.trace = es.reverse ++ s.trace ∧ es.length = 11 ∧ es.countP Event.isWrite = 5 ∧
      es.countP Event.sample = 0 ∧ es.countP Event.isDelay = 1

/-- R89: WAIT_BUSY from its start. Busy asserted for `m` samples and released on the next, within the bound: m + 1
samples, m back-offs, and the next primitive. Bound `k` reached: exactly k samples and k - 1 back-offs, then
PANEL_TIMEOUT. Infinite bound: it goes on as long as busy is asserted, with no response. -/
def Obligations.WaitBusyPollsUntilReleased : Prop :=
  ∀ s : State, s.Inv → s.portBusy = true → NoReset s → s.current = some .waitBusy → s.phase = 0 → s.pollCount = 0 →
    (∀ m, BusyFor s m → BoundAllows s m →
      ∃ n u, runSteps n s = .next u ∧ u.stepIdx = s.stepIdx + 1 ∧
        u.trace = (waitEvents m).reverse ++ s.trace ∧ SequenceFrame s u) ∧
    (∀ k, s.params.busyTimeoutPolls = some (k + 1) → BusyHeld s (k + 1) →
      ∃ n u, runSteps n s = .next u ∧ Answers s u 0x40000000#32 ∧ u.session = .uninitialized ∧
        u.seq = .none ∧ u.trace = .readBusy true :: ((heldEvents k).reverse ++ s.trace) ∧ SequenceFrame s u) ∧
    (∀ m, s.params.busyTimeoutPolls = none → BusyHeld s m →
      ∃ n u, runSteps n s = .next u ∧ u.portBusy = true ∧ u.responses = s.responses ∧ u.stepIdx = s.stepIdx ∧
        u.pollCount = m ∧ u.trace = (heldEvents m).reverse ++ s.trace)

/-- R99, R114: INITIALIZE with the bound `k + 1` and busy asserted for that many samples answers PANEL_TIMEOUT after
27 + 2k events (one a step: log entry 1), and SESSION is UNINITIALIZED. -/
def Obligations.InitializeTimesOut : Prop :=
  ∀ (s : State) (k : Nat), s.portBusy = true → NoReset s → AcksOk s 24 → s.params.busyTimeoutPolls = some (k + 1) →
    BusyHeld s (k + 1) →
    ∃ t u, exec .initializePanel s = .next t ∧ runSteps (27 + 2 * k) t = .next u ∧ Answers s u 0x40000000#32 ∧
      u.session = .uninitialized ∧ u.seq = .none ∧
      u.trace = .readBusy true :: ((initTraceHead s.params ++ heldEvents k).reverse ++ s.trace) ∧ SequenceFrame s u

/-- R100, R114: UPDATE with the bound `k + 1` and busy asserted for that many samples answers PANEL_TIMEOUT after
11032 + 2k events (one a step: log entry 1), and SESSION is UNINITIALIZED. -/
def Obligations.UpdateTimesOut : Prop :=
  ∀ (s : State) (k : Nat), s.session = .ready → s.portBusy = true → NoReset s → AcksOk s 11030 →
    s.params.busyTimeoutPolls = some (k + 1) → BusyHeld s (k + 1) →
    ∃ t u, exec .update s = .next t ∧ runSteps (11032 + 2 * k) t = .next u ∧ Answers s u 0x40000000#32 ∧
      u.session = .uninitialized ∧ u.seq = .none ∧
      u.trace = .readBusy true :: ((updateTraceHead s.params s.fb ++ heldEvents k).reverse ++ s.trace) ∧
      SequenceFrame s u

/-- R94: with the infinite bound, INITIALIZE on a panel whose busy line stays asserted goes on in its busy wait: after any
number `n` of asserted samples, each with its back-off, one event a step (log entry 1), there is no response and the port
is busy. -/
def Obligations.InitializeHangsWhileBusy : Prop :=
  ∀ (s : State) (n : Nat), s.portBusy = true → NoReset s → AcksOk s 24 → s.params.busyTimeoutPolls = none →
    BusyHeld s n →
    ∃ t u, exec .initializePanel s = .next t ∧ runSteps (26 + 2 * n) t = .next u ∧ u.portBusy = true ∧
      u.responses = s.responses ∧ u.seq = .initSeq ∧ u.stepIdx = 12 ∧ u.pollCount = n

/-- R79, R118: whichever action of a sequence is the first to fail, the transport has seen the sequence up to and
including that action, the command answers TRANSPORT_FAILURE, SESSION is UNINITIALIZED, and FB, ORIENT and PAGE are
unchanged. Where the busy wait comes before the failing action, busy is asserted for `m` samples within the bound. One
event is one step (log entry 1). -/
def Obligations.FirstFailureCutsTrace : Prop :=
  ∀ (s t : State) (i : Instr) (m : Nat) (es pre post : List Event) (e : Event),
    ((i = .initializePanel ∧ es = initTrace s.params m) ∨
      (i = .update ∧ s.session = .ready ∧ es = updateTrace s.params s.fb m) ∨
      (i = .sleep ∧ s.session = .ready ∧ es = sleepTrace s.params)) →
    es = pre ++ e :: post → e.fallible = true → s.portBusy = true → NoReset s →
    AcksOk s (pre.countP Event.fallible) → s.ackAt (pre.countP Event.fallible) = false →
    (0 < pre.countP Event.sample → BusyFor s m ∧ BoundAllows s m) → exec i s = .next t →
    ∃ u, runSteps (pre.length + 1) t = .next u ∧ Answers s u 0x30000000#32 ∧ u.session = .uninitialized ∧
      u.seq = .none ∧ u.trace = e.asFailed :: (pre.reverse ++ s.trace) ∧ SequenceFrame s u

/-- R139: INITIALIZE and UPDATE respond whatever the actions are answered, if the busy line is released after `m` samples
within the bound; SLEEP responds whatever the transport answers. The response comes within the events of the sequence and
is OK or TRANSPORT_FAILURE. One event is one step (log entry 1). -/
def Obligations.SequenceCommandsRespond : Prop :=
  ∀ (s : State) (i : Instr) (m n : Nat), s.portBusy = true → NoReset s →
    ((i = .initializePanel ∧ n = 49 + 2 * m ∧ BusyFor s m ∧ BoundAllows s m) ∨
      (i = .update ∧ s.session = .ready ∧ n = 11032 + 2 * m ∧ BusyFor s m ∧ BoundAllows s m) ∨
      (i = .sleep ∧ s.session = .ready ∧ n = 11)) →
    ∃ (k : Nat) (t u : State), k ≤ n ∧ exec i s = .next t ∧ runSteps k t = .next u ∧
      (Answers s u 0x00000000#32 ∨ Answers s u 0x30000000#32) ∧ SequenceFrame s u

/-- R140: two INITIALIZE commands in a row that both succeed, each with the response OK, leave the same block state as one
(SESSION = READY; FB, ORIENT and PAGE unchanged; the port and the sequencer's counters the same), and the second produces
the same trace as the first, given the same transport answers: every action ok, busy asserted for `m` samples. -/
def Obligations.InitializeTwiceEqualsOnce : Prop :=
  ∀ (s : State) (m : Nat), s.portBusy = false → NoReset s →
    s.offers = [0x0100000000000000#64, 0x0100000000000000#64] → AcksOk s 92 → BusyFor s m →
    (∀ k, k < m → s.busyAt (m + 1 + k) = true) → s.busyAt (2 * m + 1) = false → BoundAllows s m →
    ∃ n t k u, runSteps n s = .next t ∧ runSteps k t = .next u ∧
      t.responses = 0x00000000#32 :: s.responses ∧ u.responses = 0x00000000#32 :: t.responses ∧
      t.session = .ready ∧ SameCells s t ∧ SameCells t u ∧ SameRegisters t u ∧ SameSequencer t u ∧
      t.orient = s.orient ∧ t.page = s.page ∧ t.portBusy = false ∧ u.portBusy = false ∧
      t.trace = (initTrace s.params m).reverse ++ s.trace ∧ u.trace = (initTrace s.params m).reverse ++ t.trace

/-- R17 (FB is read by GET_PIXEL, READ_CELL and UPDATE): what INIT_SEQ and SLEEP_SEQ do, on the transport and in the
block, does not depend on the framebuffer. -/
def Obligations.InitAndSleepIgnoreFramebuffer : Prop :=
  ∀ (s t : State) (fb : Memory), s.resetStrikes = false → s.portBusy = true → s.seq ≠ .updateSeq →
    step s = .next t → step (s.withFb fb) = .next (t.withFb fb)

/-! ## The assembler -/

/-- R56: the example lines of its table assemble to the words beside them. The line written for a well-formed command, its
operands in decimal or hexadecimal, assembles to that command. A line of a mnemonic with an operand outside the range of its
field, a missing operand or an extra one is refused, and so is a line whose first word is no mnemonic, whatever follows it.
What is accepted is a well-formed command, and its word decodes to it. How a line is written where R56 does not say (a
space after the mnemonic and after each comma, mnemonics and hexadecimal digits in capitals) is the model's choice, log
entry 18. That a line whose first word names a pseudo-instruction of R57, such as CLEAR_WHITE, is refused with the unknown
mnemonics is the model's choice too, log entry 22. -/
def Obligations.AssemblerFollowsR56 : Prop :=
  ((assemble "INITIALIZE").map encode = some 0x0100000000000000 ∧
    (assemble "UPDATE").map encode = some 0x0200000000000000 ∧
    (assemble "SLEEP").map encode = some 0x0300000000000000 ∧
    (assemble "READ_STATUS").map encode = some 0x0400000000000000 ∧
    (assemble "SET_ORIENTATION 2").map encode = some 0x1002000000000000 ∧
    (assemble "SET_PAGE -1").map encode = some 0x110000000000FFFF ∧
    (assemble "CLEAR 0xFF").map encode = some 0x20FF000000000000 ∧
    (assemble "DRAW_PIXEL 5, 10, 0").map encode = some 0x210000000005000A ∧
    (assemble "RAW_WRITE 104, 0, 1").map encode = some 0x2201000000680000 ∧
    (assemble "GET_PIXEL -1, 0").map encode = some 0x30000000FFFF0000 ∧
    (assemble "READ_CELL 2755").map encode = some 0x3100000000000AC3) ∧
  (∀ (i : Instr) (texts : List (Base × Int)), i.wellFormed = true → texts.map Prod.snd = operandsInOrder i →
    assemble (writtenLine (mnemonicOf i.opcode) texts) = some i) ∧
  (∀ (op : Opcode) (texts : List (Base × Int)), ¬OperandsFit op (texts.map Prod.snd) →
    assemble (writtenLine (mnemonicOf op) texts) = none) ∧
  (∀ name rest : String, name ≠ "" → ' ' ∉ name.toList → (∀ op, name ≠ mnemonicOf op) →
    assemble name = none ∧ assemble (name ++ " " ++ rest) = none) ∧
  ∀ (line : String) (i : Instr), assemble line = some i → i.wellFormed = true ∧ decode (encode i) = .ok i

/-- R57: each pseudo-instruction stands for the commands listed; a FLUSH of a rectangle of `w` columns and `h` rows with its
corner at `(x0, y0)` is one DRAW_PIXEL for each pixel, y outer and x inner, each ascending, with the pixel's own color,
and then one UPDATE. Two points are the model's choice: R57 fixes the color c(x, y) of each pixel, and that the colors of a
FLUSH are a list in row-major order of the pixels is log entry 18; that `w = 0` or `h = 0` (reversed corners: no pixel, a
lone UPDATE) is an empty rectangle, and that corners outside the s16 range are expanded too, is log entry 21. -/
def Obligations.PseudoInstructionsExpand : Prop :=
  expandPseudo .clearWhite = some [.clear 0xFF] ∧ expandPseudo .clearBlack = some [.clear 0x00] ∧
    expandPseudo .refreshCycle = some [.initializePanel, .update] ∧
    ∀ (x0 y0 : Int) (w h : Nat) (colors : List Byte), colors.length = w * h →
      ∃ draws, expandPseudo (.flush x0 y0 (x0 + w - 1) (y0 + h - 1) colors) = some (draws ++ [.update]) ∧
        draws.length = w * h ∧
        ∀ i j c, i < w → j < h → colors[j * w + i]? = some c →
          draws[j * w + i]? = some (.drawPixel (x0 + i) (y0 + j) c)
end

