-- ==== Sys2Proof/Laws/Assembler.lean ====
section
/-!
SUPPORT. What the assembler reads from a written line: digits, operands, the parts between commas, the first word.
-/

namespace Sys2Proof.Machine

/-! ## Operands of a command -/

/-- The assembler's last two steps give exactly the well-formed command of that opcode with those operands. -/
theorem withOperands_filter_eq_some {op : Opcode} {vs : List Int} {i : Instr} :
    (withOperands op vs).filter Instr.wellFormed = some i ↔
      i.opcode = op ∧ operandsInOrder i = vs ∧ i.wellFormed = true := by
  have hb : ∀ (c : Int) (b : Byte), byteOperand c = some b ↔ (b.toNat : Int) = c := by
    intro c b
    unfold byteOperand
    split
    · rw [Option.some.injEq]
      constructor
      · rintro rfl; rw [BitVec.toNat_ofInt]; omega
      · intro h; rw [← h]; exact BitVec.eq_of_toNat_eq (by rw [BitVec.toNat_ofInt]; have := b.isLt; omega)
    · have := b.isLt
      simp; omega
  have hu : ∀ (c : Int) (n : Nat), unsignedOperand c = some n ↔ (n : Int) = c := by
    intro c n
    unfold unsignedOperand
    split <;> simp <;> omega
  have ho : ∀ (c : Int) (o : Orientation), orientationOperand c = some o ↔ (o.code.toNat : Int) = c := by
    intro c o
    unfold orientationOperand
    split
    · next h =>
      obtain ⟨h1, h2⟩ := h
      interval_cases c <;> cases o <;> decide
    · cases o <;> simp [Orientation.code] <;> omega
  rw [Option.filter_eq_some_iff]
  constructor
  · rintro ⟨h, hw⟩
    refine and_assoc.1 ⟨?_, hw⟩
    revert h
    unfold withOperands
    split <;> simp only [Option.map_eq_some_iff, Option.bind_eq_some_iff, Option.some.injEq, reduceCtorEq, hb, hu, ho,
      false_implies]
    all_goals
      rintro h
      first
      | subst h; exact ⟨rfl, rfl⟩
      | obtain ⟨_, rfl, rfl⟩ := h; exact ⟨rfl, rfl⟩
      | obtain ⟨_, rfl, _, rfl, _, rfl, rfl⟩ := h; exact ⟨rfl, rfl⟩
  · rintro ⟨rfl, rfl, hw⟩
    refine ⟨?_, hw⟩
    cases i <;> simp [withOperands, Instr.opcode, operandsInOrder, Option.map_eq_some_iff, Option.bind_eq_some_iff, hb, hu, ho]

theorem operandsFit_of_wellFormed {i : Instr} (h : i.wellFormed = true) : OperandsFit i.opcode (operandsInOrder i) := by
  have hb : ∀ b : Byte, 0 ≤ (b.toNat : Int) ∧ (b.toNat : Int) ≤ 255 := fun b => by have := b.isLt; omega
  cases i with
  | setOrientation o => cases o <;> exact ⟨by decide, by decide⟩
  | clear value => exact hb value
  | _ => simp_all [Instr.wellFormed, OperandsFit, Instr.opcode, operandsInOrder, InS16, InU16]; try omega

/-- Operands that do not fit give no well-formed command. -/
theorem withOperands_filter_eq_none {op : Opcode} {vs : List Int} (h : ¬OperandsFit op vs) :
    (withOperands op vs).filter Instr.wellFormed = none := by
  rw [Option.eq_none_iff_forall_ne_some]
  intro i hi
  obtain ⟨rfl, rfl, hw⟩ := withOperands_filter_eq_some.1 hi
  exact h (operandsFit_of_wellFormed hw)

/-! ## Numbers -/

theorem digitOf_digitChar {radix d : Nat} (hr : radix ≤ 16) (hd : d < radix) : digitOf radix (digitChar d) = some d := by
  have h16 : d < 16 := by omega
  have hv : (let n := (digitChar d).toNat
      if 48 ≤ n ∧ n ≤ 57 then n - 48 else if 97 ≤ n ∧ n ≤ 102 then n - 87 else if 65 ≤ n ∧ n ≤ 70 then n - 55 else radix) = d := by
    interval_cases d <;> rfl
  simp only [digitOf]
  simp only at hv
  rw [hv, if_pos hd]

theorem digitChar_ne {d : Nat} (hd : d < 16) :
    digitChar d ≠ 'x' ∧ digitChar d ≠ '-' ∧ digitChar d ≠ ',' ∧ digitChar d ≠ ' ' := by
  revert d; decide

theorem digitsOf_append (radix acc : Nat) (cs ds : List Char) :
    digitsOf radix acc (cs ++ ds) = (digitsOf radix acc cs).bind fun n => digitsOf radix n ds := by
  induction cs generalizing acc with
  | nil => rfl
  | cons c cs ih => simp only [List.cons_append, digitsOf]; cases digitOf radix c <;> simp [ih]

theorem digitsOf_reverse {radix : Nat} (hr : radix ≤ 16) (ds : List Nat) (h : ∀ d ∈ ds, d < radix) :
    digitsOf radix 0 (ds.reverse.map digitChar) = some (Nat.ofDigits radix ds) := by
  induction ds with
  | nil => rfl
  | cons d ds ih =>
    rw [List.reverse_cons, List.map_append, digitsOf_append, ih fun e he => h e (List.mem_cons_of_mem _ he)]
    simp only [Option.bind_some, List.map_cons, List.map_nil, digitsOf,
      digitOf_digitChar hr (h d List.mem_cons_self), Nat.ofDigits_cons, Option.some.injEq]
    rw [Nat.mul_comm, Nat.add_comm]

theorem digitsOf_digitText {radix : Nat} (h2 : 2 ≤ radix) (hr : radix ≤ 16) (n : Nat) :
    digitsOf radix 0 (digitText radix n) = some n := by
  unfold digitText
  split
  · next h =>
    have := digitOf_digitChar hr (show 0 < radix by omega)
    rw [show digitChar 0 = '0' from rfl] at this
    simp [h, digitsOf, this]
  · rw [digitsOf_reverse hr _ fun d hd => Nat.digits_lt_base h2 hd, Nat.ofDigits_digits]

/-- The text of a number holds digits only, and at least one. -/
theorem digitText_cases {radix : Nat} (h2 : 2 ≤ radix) (hr : radix ≤ 16) (n : Nat) :
    digitText radix n ≠ [] ∧ ∀ c ∈ digitText radix n, ∃ d < 16, c = digitChar d := by
  unfold digitText
  split
  · exact ⟨by simp, fun c hc => ⟨0, by omega, List.mem_singleton.1 hc⟩⟩
  · next h =>
    refine ⟨by simp [Nat.digits_ne_nil_iff_ne_zero.2 h], fun c hc => ?_⟩
    simp only [List.mem_map, List.mem_reverse] at hc
    obtain ⟨d, hd, rfl⟩ := hc
    exact ⟨d, lt_of_lt_of_le (Nat.digits_lt_base h2 hd) hr, rfl⟩

theorem naturalOf_text (b : Base) (n : Nat) : naturalOf (b.mark ++ digitText b.radix n) = some n := by
  cases b with
  | hexadecimal =>
    obtain ⟨hne, -⟩ := digitText_cases (radix := 16) (by omega) le_rfl n
    obtain ⟨c, cs, h⟩ := List.exists_cons_of_ne_nil hne
    have := digitsOf_digitText (radix := 16) (by omega) le_rfl n
    simp only [Base.mark, Base.radix, h] at this ⊢
    simpa [naturalOf] using this
  | decimal =>
    obtain ⟨hne, hall⟩ := digitText_cases (radix := 10) (by omega) (by omega) n
    have := digitsOf_digitText (radix := 10) (by omega) (by omega) n
    simp only [Base.mark, Base.radix, List.nil_append]
    revert this hne hall
    generalize digitText 10 n = cs
    intro hne hall hd
    unfold naturalOf
    split
    · contradiction
    · obtain ⟨d, h, hx⟩ := hall 'x' (by simp)
      exact absurd hx.symm (digitChar_ne h).1
    · obtain ⟨d, h, hx⟩ := hall 'x' (by simp)
      exact absurd hx.symm (digitChar_ne h).1
    · exact hd

/-- The characters of a written operand are no spaces and no commas. -/
theorem integerText_cases (b : Base) (v : Int) :
    integerText b v ≠ [] ∧ ∀ c ∈ integerText b v, c ≠ ',' ∧ c ≠ ' ' := by
  have hr : 2 ≤ b.radix ∧ b.radix ≤ 16 := by cases b <;> decide
  obtain ⟨hne, hall⟩ := digitText_cases hr.1 hr.2 v.natAbs
  refine ⟨by simp [integerText, hne], fun c hc => ?_⟩
  simp only [integerText, List.mem_append] at hc
  rcases hc with hc | hc | hc
  · split at hc <;> simp_all
  · cases b <;> simp [Base.mark] at hc
    rcases hc with rfl | rfl <;> decide
  · obtain ⟨d, h, rfl⟩ := hall c hc
    exact ⟨(digitChar_ne h).2.2.1, (digitChar_ne h).2.2.2⟩

theorem integerOf_integerText (b : Base) (v : Int) : integerOf (integerText b v) = some v := by
  by_cases hv : v < 0
  · simp only [integerText, if_pos hv, List.singleton_append, integerOf, naturalOf_text]
    exact congrArg some (show -(v.natAbs : Int) = v by omega)
  · simp only [integerText, if_neg hv, List.nil_append]
    have hn := naturalOf_text b v.natAbs
    have hr : 2 ≤ b.radix ∧ b.radix ≤ 16 := by cases b <;> decide
    obtain ⟨hne, hall⟩ := digitText_cases hr.1 hr.2 v.natAbs
    have hm : ∀ cs, b.mark ++ digitText b.radix v.natAbs ≠ '-' :: cs := by
      intro cs h
      cases b with
      | hexadecimal => simp [Base.mark] at h
      | decimal =>
        obtain ⟨d, hd, hx⟩ := hall '-' (by simp only [Base.mark, List.nil_append] at h; simp [h])
        exact absurd hx.symm (digitChar_ne hd).2.1
    revert hn hm
    generalize b.mark ++ digitText b.radix v.natAbs = cs
    intro hn hm
    unfold integerOf
    split
    · exact absurd rfl (hm _)
    · rw [hn]; simp; omega

/-! ## Spaces and commas -/

theorem dropWhile_of_head {cs : List Char} (h : ∀ c, cs.head? = some c → c ≠ ' ') : cs.dropWhile (· == ' ') = cs := by
  cases cs with
  | nil => rfl
  | cons c cs => simp [h c rfl]

/-- A line with no space at either end stays as it is. -/
theorem trimSpaces_of_ends {cs : List Char} (h1 : ∀ c, cs.head? = some c → c ≠ ' ')
    (h2 : ∀ c, cs.getLast? = some c → c ≠ ' ') : trimSpaces cs = cs := by
  rw [trimSpaces, dropWhile_of_head h1, dropWhile_of_head (by rwa [List.head?_reverse]), List.reverse_reverse]

/-- Behind a first word, only the spaces at the end of the line go. -/
theorem trimSpaces_word_append {name : List Char} (hne : name ≠ []) (hsp : ' ' ∉ name) (tail : List Char) :
    trimSpaces (name ++ tail) = name ++ tail.rdropWhile (· == ' ') := by
  have h1 := dropWhile_of_head (cs := name ++ tail) fun c hc => by
    rw [List.head?_append_of_ne_nil _ hne] at hc
    rintro rfl
    exact hsp (List.mem_of_mem_head? hc)
  have h2 := dropWhile_of_head (cs := name.reverse) fun c hc => by
    rw [List.head?_reverse] at hc
    rintro rfl
    exact hsp (List.mem_of_getLast? hc)
  rw [trimSpaces, h1, List.reverse_append, List.dropWhile_append, List.rdropWhile]
  split
  · next h => rw [h2, List.isEmpty_iff.1 h]; simp
  · simp

theorem trimSpaces_space (cs : List Char) : trimSpaces (' ' :: cs) = trimSpaces cs := by
  simp [trimSpaces]

theorem trimSpaces_integerText (b : Base) (v : Int) : trimSpaces (integerText b v) = integerText b v := by
  have h := (integerText_cases b v).2
  exact trimSpaces_of_ends (fun c hc => (h c (List.mem_of_mem_head? hc)).2) fun c hc => (h c (List.mem_of_getLast? hc)).2

theorem splitCommas_part {cs : List Char} (h : ∀ c ∈ cs, c ≠ ',') (rest : List Char) :
    splitCommas (cs ++ ',' :: rest) = cs :: splitCommas rest := by
  induction cs with
  | nil => simp [splitCommas]
  | cons c cs ih =>
    rw [List.cons_append, splitCommas, if_neg (h c List.mem_cons_self), ih fun d hd => h d (List.mem_cons_of_mem _ hd)]

theorem splitCommas_last {cs : List Char} (h : ∀ c ∈ cs, c ≠ ',') : splitCommas cs = [cs] := by
  induction cs with
  | nil => rfl
  | cons c cs ih =>
    rw [splitCommas, if_neg (h c List.mem_cons_self), ih fun d hd => h d (List.mem_cons_of_mem _ hd)]

theorem space_integerText_no_comma (b : Base) (v : Int) : ∀ c ∈ ' ' :: integerText b v, c ≠ ',' := by
  intro c hc
  rcases List.mem_cons.1 hc with rfl | hc
  · decide
  · exact ((integerText_cases b v).2 c hc).1

/-- The operands read from a written list are those written. -/
theorem mapM_splitCommas_operandText : ∀ vs : List (Base × Int), vs ≠ [] →
    (splitCommas (operandText vs)).mapM (fun part => integerOf (trimSpaces part)) = some (vs.map Prod.snd) := by
  intro vs
  induction vs with
  | nil => intro h; contradiction
  | cons v vs ih =>
    intro _
    cases vs with
    | nil =>
      rw [operandText, splitCommas_last (space_integerText_no_comma _ _)]
      simp [trimSpaces_space, trimSpaces_integerText, integerOf_integerText]
    | cons w ws =>
      rw [operandText, ← List.cons_append, splitCommas_part (space_integerText_no_comma _ _), List.mapM_cons,
        ih (by simp)]
      · simp [trimSpaces_space, trimSpaces_integerText, integerOf_integerText]
      · simp

/-- A written list ends in no space. -/
theorem getLast_operandText : ∀ (vs : List (Base × Int)) (c : Char), (operandText vs).getLast? = some c → c ≠ ' ' := by
  intro vs
  induction vs with
  | nil => intro c h; simp [operandText] at h
  | cons v vs ih =>
    intro c h
    cases vs with
    | nil =>
      rw [operandText, List.getLast?_cons_of_ne_nil (integerText_cases _ _).1] at h
      exact ((integerText_cases _ _).2 c (List.mem_of_getLast? h)).2
    | cons w ws =>
      have hne : operandText (w :: ws) ≠ [] := by cases ws <;> simp [operandText]
      refine ih c ?_
      rw [operandText, ← List.cons_append, List.getLast?_append, List.getLast?_cons_of_ne_nil hne] at h
      · rw [List.getLast?_eq_some_getLast hne] at h ⊢; simpa using h
      · simp

theorem operandList_operandText (vs : List (Base × Int)) : operandList (operandText vs) = some (vs.map Prod.snd) := by
  unfold operandList
  cases vs with
  | nil => rfl
  | cons v vs =>
    rw [if_neg, mapM_splitCommas_operandText _ (by simp)]
    obtain ⟨cs, h⟩ : ∃ cs, operandText (v :: vs) = ' ' :: (integerText v.1 v.2 ++ cs) := by
      cases vs with
      | nil => exact ⟨[], by simp [operandText]⟩
      | cons w ws => exact ⟨_, by rw [operandText]; simp⟩
    have hl : ∀ c, (integerText v.1 v.2 ++ cs).getLast? = some c → c ≠ ' ' := by
      intro c hc
      refine getLast_operandText (v :: vs) c ?_
      rw [h, List.getLast?_cons_of_ne_nil (by simp [(integerText_cases _ _).1]), hc]
    rw [h, trimSpaces_space, trimSpaces_of_ends _ hl]
    · simp [(integerText_cases _ _).1]
    · intro c hc
      rw [List.head?_append_of_ne_nil _ (integerText_cases _ _).1] at hc
      exact ((integerText_cases _ _).2 c (List.mem_of_mem_head? hc)).2

/-! ## The first word of a line -/

theorem mnemonicOf_no_space (op : Opcode) : (mnemonicOf op).toList ≠ [] ∧ ' ' ∉ (mnemonicOf op).toList := by
  cases op <;> decide

theorem takeWhile_word {name rest : List Char} (hn : ' ' ∉ name) (hr : ∀ c, rest.head? = some c → c = ' ') :
    (name ++ rest).takeWhile (· != ' ') = name := by
  rw [List.takeWhile_append_of_pos fun c hc => by simp; rintro rfl; exact hn hc]
  cases rest with
  | nil => simp
  | cons c rest => simp [hr c rfl]

theorem find_mnemonicOf (op : Opcode) :
    Opcode.all.find? (fun o => (mnemonicOf o).toList == (mnemonicOf op).toList) = some op := by cases op <;> decide

/-- What the assembler answers for a written line: the command of the mnemonic with the operands, if it is well formed. -/
theorem assemble_writtenLine (op : Opcode) (vs : List (Base × Int)) :
    assemble (writtenLine (mnemonicOf op) vs) = (withOperands op (vs.map Prod.snd)).filter Instr.wellFormed := by
  obtain ⟨hne, hsp⟩ := mnemonicOf_no_space op
  have htrim : trimSpaces ((mnemonicOf op).toList ++ operandText vs) = (mnemonicOf op).toList ++ operandText vs := by
    refine trimSpaces_of_ends (fun c hc => ?_) fun c hc => ?_
    · rw [List.head?_append_of_ne_nil _ hne] at hc
      rintro rfl
      exact hsp (List.mem_of_mem_head? hc)
    · by_cases hv : operandText vs = []
      · rw [hv, List.append_nil] at hc
        rintro rfl
        exact hsp (List.mem_of_getLast? hc)
      · rw [List.getLast?_append_of_ne_nil _ hv] at hc
        exact getLast_operandText vs c hc
  have hword : ((mnemonicOf op).toList ++ operandText vs).takeWhile (· != ' ') = (mnemonicOf op).toList := by
    refine takeWhile_word hsp fun c hc => ?_
    match vs, hc with
    | [], hc => simp [operandText] at hc
    | [_], hc => simpa [operandText] using hc.symm
    | _ :: _ :: _, hc => simpa [operandText] using hc.symm
  simp only [assemble, writtenLine, String.toList_ofList, htrim, hword, find_mnemonicOf, Option.bind_some, List.drop_left,
    operandList_operandText]

/-- A line whose first word is no mnemonic is refused, whatever follows. -/
theorem assemble_unknown {name : String} (hne : name ≠ "") (hsp : ' ' ∉ name.toList) (hm : ∀ op, name ≠ mnemonicOf op)
    (rest : String) : assemble name = none ∧ assemble (name ++ " " ++ rest) = none := by
  have hne : name.toList ≠ [] := by simpa using hne
  have hfind : Opcode.all.find? (fun o => (mnemonicOf o).toList == name.toList) = none := by
    rw [List.find?_eq_none]
    intro op _ h
    exact hm op (String.toList_injective (by simpa using Eq.symm (eq_of_beq h)))
  have key : ∀ tail : List Char, (∀ c, tail.head? = some c → c = ' ') →
      (trimSpaces (name.toList ++ tail)).takeWhile (· != ' ') = name.toList := by
    intro tail ht
    rw [trimSpaces_word_append hne hsp]
    exact takeWhile_word hsp fun c hc => by
      obtain ⟨rest, h⟩ := tail.rdropWhile_prefix (· == ' ')
      exact ht c (by rw [← h, List.head?_append_of_ne_nil _ (by rintro h0; simp [h0] at hc), hc])
  constructor
  · have := key [] (by simp)
    rw [List.append_nil] at this
    simp only [assemble, this, hfind, Option.bind_none]
  · have := key (' ' :: rest.toList) (by simp)
    simp only [assemble, String.toList_append, List.append_assoc]
    rw [show " ".toList = [' '] from rfl, List.singleton_append, this, hfind, Option.bind_none]

end Sys2Proof.Machine
end

