-- ==== Sys2Proof/Laws/Encoding.lean ====
section
/-!
SUPPORT. The fields of a packed command word, the words of a field, and the small facts the round trips rest on.
-/

namespace Sys2Proof

@[simp] theorem opcField_packWord (o a : BitVec 8) (x y : BitVec 16) : opcField (packWord o a x y) = o := by
  apply BitVec.eq_of_getLsbD_eq
  intro i hi
  simp only [opcField, packWord, BitVec.getLsbD_extractLsb', BitVec.getLsbD_append]
  grind

@[simp] theorem argField_packWord (o a : BitVec 8) (x y : BitVec 16) : argField (packWord o a x y) = a := by
  apply BitVec.eq_of_getLsbD_eq
  intro i hi
  simp only [argField, packWord, BitVec.getLsbD_extractLsb', BitVec.getLsbD_append]
  grind

@[simp] theorem xField_packWord (o a : BitVec 8) (x y : BitVec 16) : xField (packWord o a x y) = x := by
  apply BitVec.eq_of_getLsbD_eq
  intro i hi
  simp only [xField, packWord, BitVec.getLsbD_extractLsb', BitVec.getLsbD_append]
  grind

@[simp] theorem yField_packWord (o a : BitVec 8) (x y : BitVec 16) : yField (packWord o a x y) = y := by
  apply BitVec.eq_of_getLsbD_eq
  intro i hi
  simp only [yField, packWord, BitVec.getLsbD_extractLsb', BitVec.getLsbD_append]
  grind

@[simp] theorem orientField_packWord (o a : BitVec 8) (x y : BitVec 16) :
    orientField (packWord o a x y) = a.extractLsb' 0 2 := by
  apply BitVec.eq_of_getLsbD_eq
  intro i hi
  simp only [orientField, packWord, BitVec.getLsbD_extractLsb', BitVec.getLsbD_append]
  grind

theorem packWord_and (o a o' a' : BitVec 8) (x y x' y' : BitVec 16) (r' : BitVec 16) :
    packWord o a x y &&& (o' ++ a' ++ r' ++ x' ++ y' : BitVec 64) = packWord (o &&& o') (a &&& a') (x &&& x') (y &&& y') := by
  apply BitVec.eq_of_getLsbD_eq
  intro i hi
  simp only [packWord, BitVec.getLsbD_and, BitVec.getLsbD_append]
  grind

end Sys2Proof
end

