-- ==== Sys2Proof/Laws/Decoding.lean ====
section
/-!
SUPPORT. The decoder and the encoder: the opcode map read back, the reserved bits as a mask and as a list, operands read
back from their fields.
-/

namespace Sys2Proof

open Sys2Proof.Machine

/-- The opcode map is read back (R49). -/
theorem Opcode.ofCode_code (op : Opcode) : Opcode.ofCode op.code = some op := by cases op <;> rfl
theorem Opcode.ofCode_some {b : BitVec 8} {op : Opcode} (h : Opcode.ofCode b = some op) : op.code = b := by
  have := List.find?_some h; simpa using this
theorem Opcode.ofCode_none {b : BitVec 8} (h : Opcode.ofCode b = none) (op : Opcode) : b ≠ op.code := by
  intro hb; rw [hb, Opcode.ofCode_code] at h; cases h

/-- A word with a zero reserved field is its packed fields (R46). -/
theorem eq_packWord_fields (w : CommandWord) (h : ∀ k, 32 ≤ k → k ≤ 47 → w.getLsbD k = false) :
    w = packWord (opcField w) (argField w) (xField w) (yField w) := by
  apply BitVec.eq_of_getLsbD_eq
  intro i hi
  have := h i
  simp only [opcField, argField, xField, yField, packWord, BitVec.getLsbD_extractLsb', BitVec.getLsbD_append]
  grind

/-- The mask of R47 and its list of bits say the same. -/
theorem Format.reserved_iff (f : Format) (w : CommandWord) :
    w &&& f.reserved = 0 ↔ ∀ k, mustBeZero f k = true → w.getLsbD k = false := by
  have hr : ∀ k, f.reserved.getLsbD k = mustBeZero f k := by
    intro k
    by_cases hk : k < 64
    · have : ∀ k : Fin 64, f.reserved.getLsbD k.val = mustBeZero f k.val := by cases f <;> decide
      exact this ⟨k, hk⟩
    · rw [BitVec.getLsbD_of_ge _ _ (by omega)]
      cases f <;> simp [mustBeZero] <;> omega
  constructor
  · intro h k hk
    have := congrArg (·.getLsbD k) h
    simpa [hr, hk] using this
  · intro h
    apply BitVec.eq_of_getLsbD_eq
    intro i hi
    simp only [BitVec.getLsbD_and, hr]
    cases hm : mustBeZero f i
    · simp
    · simp [h i hm]

/-- A signed operand is read back from its field (R48). -/
theorem sext16_ofInt {v : Int} (h : InS16 v) : sext16 (BitVec.ofInt 16 v) = v := by
  unfold sext16
  rw [BitVec.toInt_ofInt, Int.bmod_def]
  obtain ⟨h1, h2⟩ := h
  split <;> omega
/-- An unsigned operand is read back from its field (R48). -/
theorem zext16_ofNat {v : Nat} (h : InU16 v) : zext16 (BitVec.ofNat 16 v) = v := by
  unfold zext16
  rw [BitVec.toNat_ofNat]
  unfold InU16 at h
  omega

/-- An encoded command has no reserved bit set (R47, R50). -/
theorem encode_reserved (i : Instr) : encode i &&& i.opcode.format.reserved = 0 := by
  have H : ∀ (f : Format) (ma : BitVec 8) (mr mx my : BitVec 16) (o a : BitVec 8) (x y : BitVec 16),
      f.reserved = 0#8 ++ ma ++ mr ++ mx ++ my → a &&& ma = 0 → x &&& mx = 0 → y &&& my = 0 →
      packWord o a x y &&& f.reserved = 0 := by
    intro f ma mr mx my o a x y hf ha hx hy
    rw [hf, packWord_and, ha, hx, hy, BitVec.and_zero]; decide
  cases i with
  | setOrientation o => cases o <;> decide
  | initializePanel => decide
  | update => decide
  | sleep => decide
  | readStatus => decide
  | setPage p => exact H .page 0xFF 0xFFFF 0xFFFF 0 _ _ _ _ (by decide) BitVec.zero_and BitVec.zero_and BitVec.and_zero
  | clear v => exact H .value 0 0xFFFF 0xFFFF 0xFFFF _ _ _ _ (by decide) BitVec.and_zero BitVec.zero_and BitVec.zero_and
  | drawPixel x y c => exact H .pixelColor 0 0xFFFF 0 0 _ _ _ _ (by decide) BitVec.and_zero BitVec.and_zero BitVec.and_zero
  | rawWrite x y c => exact H .pixelColor 0 0xFFFF 0 0 _ _ _ _ (by decide) BitVec.and_zero BitVec.and_zero BitVec.and_zero
  | getPixel x y => exact H .pixel 0xFF 0xFFFF 0 0 _ _ _ _ (by decide) BitVec.zero_and BitVec.and_zero BitVec.and_zero
  | readCell a => exact H .address 0xFF 0xFFFF 0xFFFF 0 _ _ _ _ (by decide) BitVec.zero_and BitVec.zero_and BitVec.and_zero

end Sys2Proof
end

