-- ==== Sys2Proof/Laws/State.lean ====
section
/-!
SUPPORT. What each named operation over the state does to each field: one lemma per field per operation, so that no later
proof unfolds a record update.
-/

namespace Sys2Proof.Machine

variable (s : State)

@[simp] theorem State.respond_fb (st : Status) (data : BitVec 28) : (s.respond st data).fb = s.fb := rfl
@[simp] theorem State.respond_orient (st : Status) (data : BitVec 28) : (s.respond st data).orient = s.orient := rfl
@[simp] theorem State.respond_page (st : Status) (data : BitVec 28) : (s.respond st data).page = s.page := rfl
@[simp] theorem State.respond_session (st : Status) (data : BitVec 28) : (s.respond st data).session = s.session := rfl
@[simp] theorem State.respond_portBusy (st : Status) (data : BitVec 28) : (s.respond st data).portBusy = false := rfl
@[simp] theorem State.respond_seq (st : Status) (data : BitVec 28) : (s.respond st data).seq = s.seq := rfl
@[simp] theorem State.respond_stepIdx (st : Status) (data : BitVec 28) : (s.respond st data).stepIdx = s.stepIdx := rfl
@[simp] theorem State.respond_streamIdx (st : Status) (data : BitVec 28) : (s.respond st data).streamIdx = s.streamIdx := rfl
@[simp] theorem State.respond_pollCount (st : Status) (data : BitVec 28) : (s.respond st data).pollCount = s.pollCount := rfl
@[simp] theorem State.respond_phase (st : Status) (data : BitVec 28) : (s.respond st data).phase = s.phase := rfl
@[simp] theorem State.respond_params (st : Status) (data : BitVec 28) : (s.respond st data).params = s.params := rfl
@[simp] theorem State.respond_offers (st : Status) (data : BitVec 28) : (s.respond st data).offers = s.offers := rfl
@[simp] theorem State.respond_resetLine (st : Status) (data : BitVec 28) : (s.respond st data).resetLine = s.resetLine := rfl
@[simp] theorem State.respond_responses (st : Status) (data : BitVec 28) : (s.respond st data).responses = responseWord st data :: s.responses := rfl
@[simp] theorem State.respond_acks (st : Status) (data : BitVec 28) : (s.respond st data).acks = s.acks := rfl
@[simp] theorem State.respond_acksTaken (st : Status) (data : BitVec 28) : (s.respond st data).acksTaken = s.acksTaken := rfl
@[simp] theorem State.respond_busyLevels (st : Status) (data : BitVec 28) : (s.respond st data).busyLevels = s.busyLevels := rfl
@[simp] theorem State.respond_busyTaken (st : Status) (data : BitVec 28) : (s.respond st data).busyTaken = s.busyTaken := rfl
@[simp] theorem State.respond_trace (st : Status) (data : BitVec 28) : (s.respond st data).trace = s.trace := rfl

@[simp] theorem State.tick_fb : (s.tick).fb = s.fb := rfl
@[simp] theorem State.tick_orient : (s.tick).orient = s.orient := rfl
@[simp] theorem State.tick_page : (s.tick).page = s.page := rfl
@[simp] theorem State.tick_session : (s.tick).session = s.session := rfl
@[simp] theorem State.tick_portBusy : (s.tick).portBusy = s.portBusy := rfl
@[simp] theorem State.tick_seq : (s.tick).seq = s.seq := rfl
@[simp] theorem State.tick_stepIdx : (s.tick).stepIdx = s.stepIdx := rfl
@[simp] theorem State.tick_streamIdx : (s.tick).streamIdx = s.streamIdx := rfl
@[simp] theorem State.tick_pollCount : (s.tick).pollCount = s.pollCount := rfl
@[simp] theorem State.tick_phase : (s.tick).phase = s.phase := rfl
@[simp] theorem State.tick_params : (s.tick).params = s.params := rfl
@[simp] theorem State.tick_offers : (s.tick).offers = s.offers := rfl
@[simp] theorem State.tick_resetLine : (s.tick).resetLine = s.resetLine.tail := rfl
@[simp] theorem State.tick_responses : (s.tick).responses = s.responses := rfl
@[simp] theorem State.tick_acks : (s.tick).acks = s.acks := rfl
@[simp] theorem State.tick_acksTaken : (s.tick).acksTaken = s.acksTaken := rfl
@[simp] theorem State.tick_busyLevels : (s.tick).busyLevels = s.busyLevels := rfl
@[simp] theorem State.tick_busyTaken : (s.tick).busyTaken = s.busyTaken := rfl
@[simp] theorem State.tick_trace : (s.tick).trace = s.trace := rfl

@[simp] theorem State.accept_fb : (s.accept).fb = s.fb := rfl
@[simp] theorem State.accept_orient : (s.accept).orient = s.orient := rfl
@[simp] theorem State.accept_page : (s.accept).page = s.page := rfl
@[simp] theorem State.accept_session : (s.accept).session = s.session := rfl
@[simp] theorem State.accept_portBusy : (s.accept).portBusy = true := rfl
@[simp] theorem State.accept_seq : (s.accept).seq = s.seq := rfl
@[simp] theorem State.accept_stepIdx : (s.accept).stepIdx = s.stepIdx := rfl
@[simp] theorem State.accept_streamIdx : (s.accept).streamIdx = s.streamIdx := rfl
@[simp] theorem State.accept_pollCount : (s.accept).pollCount = s.pollCount := rfl
@[simp] theorem State.accept_phase : (s.accept).phase = s.phase := rfl
@[simp] theorem State.accept_params : (s.accept).params = s.params := rfl
@[simp] theorem State.accept_offers : (s.accept).offers = s.offers.tail := rfl
@[simp] theorem State.accept_resetLine : (s.accept).resetLine = s.resetLine := rfl
@[simp] theorem State.accept_responses : (s.accept).responses = s.responses := rfl
@[simp] theorem State.accept_acks : (s.accept).acks = s.acks := rfl
@[simp] theorem State.accept_acksTaken : (s.accept).acksTaken = s.acksTaken := rfl
@[simp] theorem State.accept_busyLevels : (s.accept).busyLevels = s.busyLevels := rfl
@[simp] theorem State.accept_busyTaken : (s.accept).busyTaken = s.busyTaken := rfl
@[simp] theorem State.accept_trace : (s.accept).trace = s.trace := rfl

@[simp] theorem State.log_fb (e : Event) : (s.log e).fb = s.fb := rfl
@[simp] theorem State.log_orient (e : Event) : (s.log e).orient = s.orient := rfl
@[simp] theorem State.log_page (e : Event) : (s.log e).page = s.page := rfl
@[simp] theorem State.log_session (e : Event) : (s.log e).session = s.session := rfl
@[simp] theorem State.log_portBusy (e : Event) : (s.log e).portBusy = s.portBusy := rfl
@[simp] theorem State.log_seq (e : Event) : (s.log e).seq = s.seq := rfl
@[simp] theorem State.log_stepIdx (e : Event) : (s.log e).stepIdx = s.stepIdx := rfl
@[simp] theorem State.log_streamIdx (e : Event) : (s.log e).streamIdx = s.streamIdx := rfl
@[simp] theorem State.log_pollCount (e : Event) : (s.log e).pollCount = s.pollCount := rfl
@[simp] theorem State.log_phase (e : Event) : (s.log e).phase = s.phase := rfl
@[simp] theorem State.log_params (e : Event) : (s.log e).params = s.params := rfl
@[simp] theorem State.log_offers (e : Event) : (s.log e).offers = s.offers := rfl
@[simp] theorem State.log_resetLine (e : Event) : (s.log e).resetLine = s.resetLine := rfl
@[simp] theorem State.log_responses (e : Event) : (s.log e).responses = s.responses := rfl
@[simp] theorem State.log_acks (e : Event) : (s.log e).acks = s.acks := rfl
@[simp] theorem State.log_acksTaken (e : Event) : (s.log e).acksTaken = s.acksTaken := rfl
@[simp] theorem State.log_busyLevels (e : Event) : (s.log e).busyLevels = s.busyLevels := rfl
@[simp] theorem State.log_busyTaken (e : Event) : (s.log e).busyTaken = s.busyTaken := rfl
@[simp] theorem State.log_trace (e : Event) : (s.log e).trace = e :: s.trace := rfl

@[simp] theorem State.pause_fb (p : DelayName) : (s.pause p).fb = s.fb := rfl
@[simp] theorem State.pause_orient (p : DelayName) : (s.pause p).orient = s.orient := rfl
@[simp] theorem State.pause_page (p : DelayName) : (s.pause p).page = s.page := rfl
@[simp] theorem State.pause_session (p : DelayName) : (s.pause p).session = s.session := rfl
@[simp] theorem State.pause_portBusy (p : DelayName) : (s.pause p).portBusy = s.portBusy := rfl
@[simp] theorem State.pause_seq (p : DelayName) : (s.pause p).seq = s.seq := rfl
@[simp] theorem State.pause_stepIdx (p : DelayName) : (s.pause p).stepIdx = s.stepIdx := rfl
@[simp] theorem State.pause_streamIdx (p : DelayName) : (s.pause p).streamIdx = s.streamIdx := rfl
@[simp] theorem State.pause_pollCount (p : DelayName) : (s.pause p).pollCount = s.pollCount := rfl
@[simp] theorem State.pause_phase (p : DelayName) : (s.pause p).phase = s.phase := rfl
@[simp] theorem State.pause_params (p : DelayName) : (s.pause p).params = s.params := rfl
@[simp] theorem State.pause_offers (p : DelayName) : (s.pause p).offers = s.offers := rfl
@[simp] theorem State.pause_resetLine (p : DelayName) : (s.pause p).resetLine = s.resetLine := rfl
@[simp] theorem State.pause_responses (p : DelayName) : (s.pause p).responses = s.responses := rfl
@[simp] theorem State.pause_acks (p : DelayName) : (s.pause p).acks = s.acks := rfl
@[simp] theorem State.pause_acksTaken (p : DelayName) : (s.pause p).acksTaken = s.acksTaken := rfl
@[simp] theorem State.pause_busyLevels (p : DelayName) : (s.pause p).busyLevels = s.busyLevels := rfl
@[simp] theorem State.pause_busyTaken (p : DelayName) : (s.pause p).busyTaken = s.busyTaken := rfl
@[simp] theorem State.pause_trace (p : DelayName) : (s.pause p).trace = .delay p :: s.trace := rfl

@[simp] theorem State.takeAck_fb : (s.takeAck).fb = s.fb := rfl
@[simp] theorem State.takeAck_orient : (s.takeAck).orient = s.orient := rfl
@[simp] theorem State.takeAck_page : (s.takeAck).page = s.page := rfl
@[simp] theorem State.takeAck_session : (s.takeAck).session = s.session := rfl
@[simp] theorem State.takeAck_portBusy : (s.takeAck).portBusy = s.portBusy := rfl
@[simp] theorem State.takeAck_seq : (s.takeAck).seq = s.seq := rfl
@[simp] theorem State.takeAck_stepIdx : (s.takeAck).stepIdx = s.stepIdx := rfl
@[simp] theorem State.takeAck_streamIdx : (s.takeAck).streamIdx = s.streamIdx := rfl
@[simp] theorem State.takeAck_pollCount : (s.takeAck).pollCount = s.pollCount := rfl
@[simp] theorem State.takeAck_phase : (s.takeAck).phase = s.phase := rfl
@[simp] theorem State.takeAck_params : (s.takeAck).params = s.params := rfl
@[simp] theorem State.takeAck_offers : (s.takeAck).offers = s.offers := rfl
@[simp] theorem State.takeAck_resetLine : (s.takeAck).resetLine = s.resetLine := rfl
@[simp] theorem State.takeAck_responses : (s.takeAck).responses = s.responses := rfl
@[simp] theorem State.takeAck_acks : (s.takeAck).acks = s.acks.tail := rfl
@[simp] theorem State.takeAck_acksTaken : (s.takeAck).acksTaken = s.acksTaken + 1 := rfl
@[simp] theorem State.takeAck_busyLevels : (s.takeAck).busyLevels = s.busyLevels := rfl
@[simp] theorem State.takeAck_busyTaken : (s.takeAck).busyTaken = s.busyTaken := rfl
@[simp] theorem State.takeAck_trace : (s.takeAck).trace = s.trace := rfl

@[simp] theorem State.takeBusy_fb : (s.takeBusy).fb = s.fb := rfl
@[simp] theorem State.takeBusy_orient : (s.takeBusy).orient = s.orient := rfl
@[simp] theorem State.takeBusy_page : (s.takeBusy).page = s.page := rfl
@[simp] theorem State.takeBusy_session : (s.takeBusy).session = s.session := rfl
@[simp] theorem State.takeBusy_portBusy : (s.takeBusy).portBusy = s.portBusy := rfl
@[simp] theorem State.takeBusy_seq : (s.takeBusy).seq = s.seq := rfl
@[simp] theorem State.takeBusy_stepIdx : (s.takeBusy).stepIdx = s.stepIdx := rfl
@[simp] theorem State.takeBusy_streamIdx : (s.takeBusy).streamIdx = s.streamIdx := rfl
@[simp] theorem State.takeBusy_pollCount : (s.takeBusy).pollCount = s.pollCount := rfl
@[simp] theorem State.takeBusy_phase : (s.takeBusy).phase = s.phase := rfl
@[simp] theorem State.takeBusy_params : (s.takeBusy).params = s.params := rfl
@[simp] theorem State.takeBusy_offers : (s.takeBusy).offers = s.offers := rfl
@[simp] theorem State.takeBusy_resetLine : (s.takeBusy).resetLine = s.resetLine := rfl
@[simp] theorem State.takeBusy_responses : (s.takeBusy).responses = s.responses := rfl
@[simp] theorem State.takeBusy_acks : (s.takeBusy).acks = s.acks := rfl
@[simp] theorem State.takeBusy_acksTaken : (s.takeBusy).acksTaken = s.acksTaken := rfl
@[simp] theorem State.takeBusy_busyLevels : (s.takeBusy).busyLevels = s.busyLevels.tail := rfl
@[simp] theorem State.takeBusy_busyTaken : (s.takeBusy).busyTaken = s.busyTaken + 1 := rfl
@[simp] theorem State.takeBusy_trace : (s.takeBusy).trace = s.trace := rfl

@[simp] theorem State.nextPhase_fb : (s.nextPhase).fb = s.fb := rfl
@[simp] theorem State.nextPhase_orient : (s.nextPhase).orient = s.orient := rfl
@[simp] theorem State.nextPhase_page : (s.nextPhase).page = s.page := rfl
@[simp] theorem State.nextPhase_session : (s.nextPhase).session = s.session := rfl
@[simp] theorem State.nextPhase_portBusy : (s.nextPhase).portBusy = s.portBusy := rfl
@[simp] theorem State.nextPhase_seq : (s.nextPhase).seq = s.seq := rfl
@[simp] theorem State.nextPhase_stepIdx : (s.nextPhase).stepIdx = s.stepIdx := rfl
@[simp] theorem State.nextPhase_streamIdx : (s.nextPhase).streamIdx = s.streamIdx := rfl
@[simp] theorem State.nextPhase_pollCount : (s.nextPhase).pollCount = s.pollCount := rfl
@[simp] theorem State.nextPhase_phase : (s.nextPhase).phase = s.phase + 1 := rfl
@[simp] theorem State.nextPhase_params : (s.nextPhase).params = s.params := rfl
@[simp] theorem State.nextPhase_offers : (s.nextPhase).offers = s.offers := rfl
@[simp] theorem State.nextPhase_resetLine : (s.nextPhase).resetLine = s.resetLine := rfl
@[simp] theorem State.nextPhase_responses : (s.nextPhase).responses = s.responses := rfl
@[simp] theorem State.nextPhase_acks : (s.nextPhase).acks = s.acks := rfl
@[simp] theorem State.nextPhase_acksTaken : (s.nextPhase).acksTaken = s.acksTaken := rfl
@[simp] theorem State.nextPhase_busyLevels : (s.nextPhase).busyLevels = s.busyLevels := rfl
@[simp] theorem State.nextPhase_busyTaken : (s.nextPhase).busyTaken = s.busyTaken := rfl
@[simp] theorem State.nextPhase_trace : (s.nextPhase).trace = s.trace := rfl

@[simp] theorem State.startSeq_fb (q : SeqId) : (s.startSeq q).fb = s.fb := rfl
@[simp] theorem State.startSeq_orient (q : SeqId) : (s.startSeq q).orient = s.orient := rfl
@[simp] theorem State.startSeq_page (q : SeqId) : (s.startSeq q).page = s.page := rfl
@[simp] theorem State.startSeq_session (q : SeqId) : (s.startSeq q).session = s.session := rfl
@[simp] theorem State.startSeq_portBusy (q : SeqId) : (s.startSeq q).portBusy = s.portBusy := rfl
@[simp] theorem State.startSeq_seq (q : SeqId) : (s.startSeq q).seq = q := rfl
@[simp] theorem State.startSeq_stepIdx (q : SeqId) : (s.startSeq q).stepIdx = 0 := rfl
@[simp] theorem State.startSeq_streamIdx (q : SeqId) : (s.startSeq q).streamIdx = 0 := rfl
@[simp] theorem State.startSeq_pollCount (q : SeqId) : (s.startSeq q).pollCount = 0 := rfl
@[simp] theorem State.startSeq_phase (q : SeqId) : (s.startSeq q).phase = 0 := rfl
@[simp] theorem State.startSeq_params (q : SeqId) : (s.startSeq q).params = s.params := rfl
@[simp] theorem State.startSeq_offers (q : SeqId) : (s.startSeq q).offers = s.offers := rfl
@[simp] theorem State.startSeq_resetLine (q : SeqId) : (s.startSeq q).resetLine = s.resetLine := rfl
@[simp] theorem State.startSeq_responses (q : SeqId) : (s.startSeq q).responses = s.responses := rfl
@[simp] theorem State.startSeq_acks (q : SeqId) : (s.startSeq q).acks = s.acks := rfl
@[simp] theorem State.startSeq_acksTaken (q : SeqId) : (s.startSeq q).acksTaken = s.acksTaken := rfl
@[simp] theorem State.startSeq_busyLevels (q : SeqId) : (s.startSeq q).busyLevels = s.busyLevels := rfl
@[simp] theorem State.startSeq_busyTaken (q : SeqId) : (s.startSeq q).busyTaken = s.busyTaken := rfl
@[simp] theorem State.startSeq_trace (q : SeqId) : (s.startSeq q).trace = s.trace := rfl

@[simp] theorem State.blockReset_fb : (s.blockReset).fb = [] := rfl
@[simp] theorem State.blockReset_orient : (s.blockReset).orient = .deg0 := rfl
@[simp] theorem State.blockReset_page : (s.blockReset).page = 0xFFFF := rfl
@[simp] theorem State.blockReset_session : (s.blockReset).session = .uninitialized := rfl
@[simp] theorem State.blockReset_portBusy : (s.blockReset).portBusy = false := rfl
@[simp] theorem State.blockReset_seq : (s.blockReset).seq = .none := rfl
@[simp] theorem State.blockReset_stepIdx : (s.blockReset).stepIdx = 0 := rfl
@[simp] theorem State.blockReset_streamIdx : (s.blockReset).streamIdx = 0 := rfl
@[simp] theorem State.blockReset_pollCount : (s.blockReset).pollCount = 0 := rfl
@[simp] theorem State.blockReset_phase : (s.blockReset).phase = 0 := rfl
@[simp] theorem State.blockReset_params : (s.blockReset).params = s.params := rfl
@[simp] theorem State.blockReset_offers : (s.blockReset).offers = s.offers := rfl
@[simp] theorem State.blockReset_resetLine : (s.blockReset).resetLine = s.resetLine := rfl
@[simp] theorem State.blockReset_responses : (s.blockReset).responses = s.responses := rfl
@[simp] theorem State.blockReset_acks : (s.blockReset).acks = s.acks := rfl
@[simp] theorem State.blockReset_acksTaken : (s.blockReset).acksTaken = s.acksTaken := rfl
@[simp] theorem State.blockReset_busyLevels : (s.blockReset).busyLevels = s.busyLevels := rfl
@[simp] theorem State.blockReset_busyTaken : (s.blockReset).busyTaken = s.busyTaken := rfl
@[simp] theorem State.blockReset_trace : (s.blockReset).trace = s.trace := rfl

@[simp] theorem State.writeBit_fb (t : PixelAddr) (color : Byte) : (s.writeBit t color).fb = s.fb.write t.cell.val (paintBit (s.cell t.cell) t.bit color) := rfl
@[simp] theorem State.writeBit_orient (t : PixelAddr) (color : Byte) : (s.writeBit t color).orient = s.orient := rfl
@[simp] theorem State.writeBit_page (t : PixelAddr) (color : Byte) : (s.writeBit t color).page = s.page := rfl
@[simp] theorem State.writeBit_session (t : PixelAddr) (color : Byte) : (s.writeBit t color).session = s.session := rfl
@[simp] theorem State.writeBit_portBusy (t : PixelAddr) (color : Byte) : (s.writeBit t color).portBusy = s.portBusy := rfl
@[simp] theorem State.writeBit_seq (t : PixelAddr) (color : Byte) : (s.writeBit t color).seq = s.seq := rfl
@[simp] theorem State.writeBit_stepIdx (t : PixelAddr) (color : Byte) : (s.writeBit t color).stepIdx = s.stepIdx := rfl
@[simp] theorem State.writeBit_streamIdx (t : PixelAddr) (color : Byte) : (s.writeBit t color).streamIdx = s.streamIdx := rfl
@[simp] theorem State.writeBit_pollCount (t : PixelAddr) (color : Byte) : (s.writeBit t color).pollCount = s.pollCount := rfl
@[simp] theorem State.writeBit_phase (t : PixelAddr) (color : Byte) : (s.writeBit t color).phase = s.phase := rfl
@[simp] theorem State.writeBit_params (t : PixelAddr) (color : Byte) : (s.writeBit t color).params = s.params := rfl
@[simp] theorem State.writeBit_offers (t : PixelAddr) (color : Byte) : (s.writeBit t color).offers = s.offers := rfl
@[simp] theorem State.writeBit_resetLine (t : PixelAddr) (color : Byte) : (s.writeBit t color).resetLine = s.resetLine := rfl
@[simp] theorem State.writeBit_responses (t : PixelAddr) (color : Byte) : (s.writeBit t color).responses = s.responses := rfl
@[simp] theorem State.writeBit_acks (t : PixelAddr) (color : Byte) : (s.writeBit t color).acks = s.acks := rfl
@[simp] theorem State.writeBit_acksTaken (t : PixelAddr) (color : Byte) : (s.writeBit t color).acksTaken = s.acksTaken := rfl
@[simp] theorem State.writeBit_busyLevels (t : PixelAddr) (color : Byte) : (s.writeBit t color).busyLevels = s.busyLevels := rfl
@[simp] theorem State.writeBit_busyTaken (t : PixelAddr) (color : Byte) : (s.writeBit t color).busyTaken = s.busyTaken := rfl
@[simp] theorem State.writeBit_trace (t : PixelAddr) (color : Byte) : (s.writeBit t color).trace = s.trace := rfl

@[simp] theorem State.finishSeq_fb : (s.finishSeq).fb = s.fb := rfl
@[simp] theorem State.finishSeq_orient : (s.finishSeq).orient = s.orient := rfl
@[simp] theorem State.finishSeq_page : (s.finishSeq).page = s.page := rfl
@[simp] theorem State.finishSeq_session : (s.finishSeq).session = s.seq.sessionAfter s.session := rfl
@[simp] theorem State.finishSeq_portBusy : (s.finishSeq).portBusy = false := rfl
@[simp] theorem State.finishSeq_seq : (s.finishSeq).seq = .none := rfl
@[simp] theorem State.finishSeq_stepIdx : (s.finishSeq).stepIdx = s.stepIdx := rfl
@[simp] theorem State.finishSeq_streamIdx : (s.finishSeq).streamIdx = s.streamIdx := rfl
@[simp] theorem State.finishSeq_pollCount : (s.finishSeq).pollCount = s.pollCount := rfl
@[simp] theorem State.finishSeq_phase : (s.finishSeq).phase = s.phase := rfl
@[simp] theorem State.finishSeq_params : (s.finishSeq).params = s.params := rfl
@[simp] theorem State.finishSeq_offers : (s.finishSeq).offers = s.offers := rfl
@[simp] theorem State.finishSeq_resetLine : (s.finishSeq).resetLine = s.resetLine := rfl
@[simp] theorem State.finishSeq_responses : (s.finishSeq).responses = responseWord .ok 0 :: s.responses := rfl
@[simp] theorem State.finishSeq_acks : (s.finishSeq).acks = s.acks := rfl
@[simp] theorem State.finishSeq_acksTaken : (s.finishSeq).acksTaken = s.acksTaken := rfl
@[simp] theorem State.finishSeq_busyLevels : (s.finishSeq).busyLevels = s.busyLevels := rfl
@[simp] theorem State.finishSeq_busyTaken : (s.finishSeq).busyTaken = s.busyTaken := rfl
@[simp] theorem State.finishSeq_trace : (s.finishSeq).trace = s.trace := rfl

@[simp] theorem State.raise_fb (st : Status) : (s.raise st).fb = s.fb := by cases st <;> rfl
@[simp] theorem State.raise_orient (st : Status) : (s.raise st).orient = s.orient := by cases st <;> rfl
@[simp] theorem State.raise_page (st : Status) : (s.raise st).page = s.page := by cases st <;> rfl
@[simp] theorem State.raise_portBusy (st : Status) : (s.raise st).portBusy = false := rfl
@[simp] theorem State.raise_stepIdx (st : Status) : (s.raise st).stepIdx = s.stepIdx := by cases st <;> rfl
@[simp] theorem State.raise_streamIdx (st : Status) : (s.raise st).streamIdx = s.streamIdx := by cases st <;> rfl
@[simp] theorem State.raise_pollCount (st : Status) : (s.raise st).pollCount = s.pollCount := by cases st <;> rfl
@[simp] theorem State.raise_phase (st : Status) : (s.raise st).phase = s.phase := by cases st <;> rfl
@[simp] theorem State.raise_params (st : Status) : (s.raise st).params = s.params := by cases st <;> rfl
@[simp] theorem State.raise_offers (st : Status) : (s.raise st).offers = s.offers := by cases st <;> rfl
@[simp] theorem State.raise_resetLine (st : Status) : (s.raise st).resetLine = s.resetLine := by cases st <;> rfl
@[simp] theorem State.raise_responses (st : Status) :
    (s.raise st).responses = responseWord st 0 :: s.responses := by cases st <;> rfl
@[simp] theorem State.raise_acks (st : Status) : (s.raise st).acks = s.acks := by cases st <;> rfl
@[simp] theorem State.raise_acksTaken (st : Status) : (s.raise st).acksTaken = s.acksTaken := by cases st <;> rfl
@[simp] theorem State.raise_busyLevels (st : Status) : (s.raise st).busyLevels = s.busyLevels := by cases st <;> rfl
@[simp] theorem State.raise_busyTaken (st : Status) : (s.raise st).busyTaken = s.busyTaken := by cases st <;> rfl
@[simp] theorem State.raise_trace (st : Status) : (s.raise st).trace = s.trace := by cases st <;> rfl

/-- Which errors end a sequence (R117). -/
theorem State.raise_sequence_failure {st : Status} (h : st = .transportFailure ∨ st = .panelTimeout) :
    (s.raise st).seq = .none ∧ (s.raise st).session = .uninitialized := by
  rcases h with rfl | rfl <;> exact ⟨rfl, rfl⟩

/-- Every other status leaves SESSION and SEQ alone (R117). -/
theorem State.raise_precise {st : Status} (h : st ≠ .transportFailure) (h' : st ≠ .panelTimeout) :
    (s.raise st).seq = s.seq ∧ (s.raise st).session = s.session := by
  cases st <;> first | exact ⟨rfl, rfl⟩ | contradiction

@[simp] theorem State.enterPrim_fb (p : Primitive) : (s.enterPrim p).fb = s.fb := by cases p <;> rfl
@[simp] theorem State.enterPrim_orient (p : Primitive) : (s.enterPrim p).orient = s.orient := by cases p <;> rfl
@[simp] theorem State.enterPrim_page (p : Primitive) : (s.enterPrim p).page = s.page := by cases p <;> rfl
@[simp] theorem State.enterPrim_session (p : Primitive) : (s.enterPrim p).session = s.session := by cases p <;> rfl
@[simp] theorem State.enterPrim_portBusy (p : Primitive) : (s.enterPrim p).portBusy = s.portBusy := by cases p <;> rfl
@[simp] theorem State.enterPrim_seq (p : Primitive) : (s.enterPrim p).seq = s.seq := by cases p <;> rfl
@[simp] theorem State.enterPrim_stepIdx (p : Primitive) : (s.enterPrim p).stepIdx = s.stepIdx := by cases p <;> rfl
@[simp] theorem State.enterPrim_phase (p : Primitive) : (s.enterPrim p).phase = s.phase := by cases p <;> rfl
@[simp] theorem State.enterPrim_params (p : Primitive) : (s.enterPrim p).params = s.params := by cases p <;> rfl
@[simp] theorem State.enterPrim_offers (p : Primitive) : (s.enterPrim p).offers = s.offers := by cases p <;> rfl
@[simp] theorem State.enterPrim_resetLine (p : Primitive) : (s.enterPrim p).resetLine = s.resetLine := by cases p <;> rfl
@[simp] theorem State.enterPrim_responses (p : Primitive) : (s.enterPrim p).responses = s.responses := by cases p <;> rfl
@[simp] theorem State.enterPrim_acks (p : Primitive) : (s.enterPrim p).acks = s.acks := by cases p <;> rfl
@[simp] theorem State.enterPrim_acksTaken (p : Primitive) : (s.enterPrim p).acksTaken = s.acksTaken := by cases p <;> rfl
@[simp] theorem State.enterPrim_busyLevels (p : Primitive) : (s.enterPrim p).busyLevels = s.busyLevels := by cases p <;> rfl
@[simp] theorem State.enterPrim_busyTaken (p : Primitive) : (s.enterPrim p).busyTaken = s.busyTaken := by cases p <;> rfl
@[simp] theorem State.enterPrim_trace (p : Primitive) : (s.enterPrim p).trace = s.trace := by cases p <;> rfl

@[simp] theorem State.tick_ackAt (k : Nat) : s.tick.ackAt k = s.ackAt k := rfl
@[simp] theorem State.tick_busyAt (k : Nat) : s.tick.busyAt k = s.busyAt k := rfl
@[simp] theorem State.log_ackAt (e : Event) (k : Nat) : (s.log e).ackAt k = s.ackAt k := rfl
@[simp] theorem State.log_busyAt (e : Event) (k : Nat) : (s.log e).busyAt k = s.busyAt k := rfl
@[simp] theorem State.takeBusy_ackAt (k : Nat) : s.takeBusy.ackAt k = s.ackAt k := rfl
@[simp] theorem State.takeAck_busyAt (k : Nat) : s.takeAck.busyAt k = s.busyAt k := rfl

/-- Using up one answer shifts the coming answers by one. -/
@[simp] theorem State.takeAck_ackAt (k : Nat) : s.takeAck.ackAt k = s.ackAt (k + 1) := by
  simp [State.ackAt, List.getElem?_tail, Nat.add_assoc, Nat.add_comm 1 k]

/-- Using up one level shifts the coming levels by one. -/
@[simp] theorem State.takeBusy_busyAt (k : Nat) : s.takeBusy.busyAt k = s.busyAt (k + 1) := by
  simp [State.busyAt, List.getElem?_tail, Nat.add_assoc, Nat.add_comm 1 k]

end Sys2Proof.Machine
end

