-- ==== Sys2Proof/Laws/Protocol.lean ====
section
/-!
SUPPORT. How a sequence runs: what its remaining events are while every action is answered ok, and what one event does.
Every theorem about INITIALIZE, UPDATE and SLEEP as whole commands is derived from these.
-/

namespace Sys2Proof.Machine

/-- The events of a primitive, every action ok, busy asserted for `m` samples (R82 to R89). -/
def primEvents (fb : Memory) (m : Nat) : Primitive → List Event
  | .reset => [.setReset false true, .delay .rstLow, .setReset true true, .delay .rstHigh]
  | .sendCmd c => cmdEvents c
  | .sendData d => dataEvents d
  | .sendDataFill v n => streamEvents (List.replicate n v)
  | .sendDataFb => streamEvents (cellsInOrder fb)
  | .delay p => [.delay p]
  | .waitBusy => waitEvents m

/-- The events a primitive still has to do in a state that stands inside it. -/
def primRest (s : State) (m : Nat) : Primitive → List Event
  | .reset => (primEvents s.fb m .reset).drop s.phase
  | .sendCmd c => (cmdEvents c).drop s.phase
  | .sendData d => (dataEvents d).drop s.phase
  | .sendDataFill v n => (streamEvents (List.replicate (n - s.streamIdx) v)).drop s.phase
  | .sendDataFb => (streamEvents ((cellsInOrder s.fb).drop s.streamIdx)).drop s.phase
  | .delay p => [.delay p]
  | .waitBusy => if s.phase = 0 then waitEvents m else .delay .poll :: waitEvents m

/-- The events of the primitives after the current one. -/
def laterEvents (s : State) (m : Nat) : List Event :=
  ((s.seq.prims s.params).drop (s.stepIdx + 1)).flatMap (primEvents s.fb m)

/-- The events the sequence in progress still has to do. -/
def planRest (s : State) (m : Nat) : List Event :=
  match s.current with
  | some p => primRest s m p ++ laterEvents s m
  | none => []

/-- A sequence is in progress and stands at one of its events. -/
structure Running (s : State) : Prop where
  busy : s.portBusy = true
  seq : s.seq ≠ .none
  position : ∃ p, s.current = some p ∧ s.phase < p.phases ∧ ∀ n, p.streamLength = some n → s.streamIdx < n

/-- What an event that went well leaves: the rest of the plan, or the end of the command. -/
inductive After (s t : State) (m : Nat) (es : List Event) : Prop
  | more (running : Running t) (plan : planRest t m = es) (nonempty : es ≠ []) (seq : t.seq = s.seq)
      (session : t.session = s.session) (responses : t.responses = s.responses)
  | done (empty : es = []) (seq : t.seq = .none) (busy : t.portBusy = false)
      (session : t.session = s.seq.sessionAfter s.session)
      (responses : t.responses = responseWord .ok 0 :: s.responses)

/-- What no event of a sequence changes. -/
structure Kept (s t : State) : Prop where
  fb : t.fb = s.fb
  orient : t.orient = s.orient
  page : t.page = s.page
  params : t.params = s.params
  offers : t.offers = s.offers

theorem Kept.trans {s t u : State} (h : Kept s t) (h' : Kept t u) : Kept s u :=
  ⟨h'.fb.trans h.fb, h'.orient.trans h.orient, h'.page.trans h.page, h'.params.trans h.params, h'.offers.trans h.offers⟩

theorem Kept.refl (s : State) : Kept s s := ⟨rfl, rfl, rfl, rfl, rfl⟩

theorem Kept.frame {s t : State} (h : Kept s t) : SequenceFrame s t :=
  ⟨fun a => by rw [h.fb], h.orient, h.page, h.params, h.offers⟩

/-- Every stream of the sequences sends at least one byte. -/
theorem SeqId.stream_pos (q : SeqId) (ps : Params) :
    ∀ p ∈ q.prims ps, ∀ n, p.streamLength = some n → 0 < n := by
  cases q <;>
    simp [SeqId.prims, initSeqPrims, updateSeqPrims, sleepSeqPrims, Primitive.streamLength]

theorem streamEvents_cons (b : Byte) (bs : List Byte) : streamEvents (b :: bs) = dataEvents b ++ streamEvents bs := rfl

theorem cellsInOrder_drop (m : Memory) {i : Nat} (h : i < 2756) :
    (cellsInOrder m).drop i = m.read i :: (cellsInOrder m).drop (i + 1) := by
  have hl : i < (cellsInOrder m).length := by simpa [cellsInOrder] using h
  rw [List.drop_eq_getElem_cons hl]
  simp [cellsInOrder]

theorem primEvents_ne_nil {q : SeqId} {ps : Params} {p : Primitive} (hp : p ∈ q.prims ps) (fb : Memory) (m : Nat) :
    primEvents fb m p ≠ [] := by
  have h := SeqId.stream_pos q ps p hp
  cases p with
  | sendDataFill v n =>
    obtain ⟨k, rfl⟩ := Nat.exists_eq_succ_of_ne_zero (h n rfl).ne'
    simp [primEvents, List.replicate_succ, streamEvents_cons, dataEvents]
  | sendDataFb =>
    have := cellsInOrder_drop fb (i := 0) (by omega)
    simp only [List.drop_zero] at this
    rw [primEvents, this]
    simp [streamEvents_cons, dataEvents]
  | waitBusy => simp [primEvents, waitEvents]
  | _ => simp [primEvents, cmdEvents, dataEvents]

/-- A sequence has at most one WAIT_BUSY. -/
theorem SeqId.one_wait (q : SeqId) (ps : Params) (i : Nat) (h : (q.prims ps)[i]? = some .waitBusy) :
    Primitive.waitBusy ∉ (q.prims ps).drop (i + 1) := by
  obtain ⟨hl, -⟩ := List.getElem?_eq_some_iff.1 h
  cases q with
  | none => simp [SeqId.prims]
  | initSeq =>
    simp only [SeqId.prims, initSeqPrims, List.length_cons, List.length_nil] at hl h ⊢
    interval_cases i <;> simp_all
  | updateSeq =>
    simp only [SeqId.prims, updateSeqPrims, List.length_cons, List.length_nil] at hl h ⊢
    interval_cases i <;> simp_all
  | sleepSeq =>
    simp only [SeqId.prims, sleepSeqPrims, List.length_cons, List.length_nil] at hl h ⊢
    interval_cases i <;> simp_all

theorem primEvents_congr {p : Primitive} (h : p ≠ .waitBusy) (fb : Memory) (m m' : Nat) :
    primEvents fb m p = primEvents fb m' p := by
  cases p <;> first | rfl | contradiction

/-- After the WAIT_BUSY of a sequence nothing depends on how long busy is asserted. -/
theorem laterEvents_of_wait {s : State} (h : s.current = some .waitBusy) (m m' : Nat) :
    laterEvents s m = laterEvents s m' := by
  have hn := SeqId.one_wait _ _ _ h
  exact List.flatMap_congr fun p hp => primEvents_congr (fun he => hn (he ▸ hp)) _ _ _

/-- `endPrim` goes on with the primitives after the current one, or ends the command. -/
theorem State.endPrim_after (s : State) (hb : s.portBusy = true) (hq : s.seq ≠ .none) (m : Nat) :
    After s s.endPrim m (laterEvents s m) ∧ Kept s s.endPrim := by
  unfold State.endPrim
  split
  next p hp =>
    have hmem : p ∈ s.seq.prims s.params := List.mem_of_getElem? hp
    have hdrop : (s.seq.prims s.params).drop (s.stepIdx + 1) = p :: (s.seq.prims s.params).drop (s.stepIdx + 2) := by
      obtain ⟨hl, rfl⟩ := List.getElem?_eq_some_iff.1 hp
      exact List.drop_eq_getElem_cons hl
    refine ⟨?_, ⟨?_, ?_, ?_, ?_, ?_⟩⟩
    · refine After.more ⟨?_, ?_, p, ?_, ?_, ?_⟩ ?_ ?_ ?_ ?_ ?_
      · simpa using hb
      · simpa using hq
      · simpa [State.current] using hp
      · simp only [State.enterPrim_phase]
        cases p <;> simp [Primitive.phases]
      · intro n hn
        have := SeqId.stream_pos _ _ p hmem n hn
        cases p <;> simp_all [State.enterPrim, Primitive.streamLength]
      · have hcur : (State.enterPrim { s with stepIdx := s.stepIdx + 1, phase := 0 } p).current = some p := by
          simpa [State.current] using hp
        rw [planRest, hcur]
        simp only [laterEvents, State.enterPrim_seq, State.enterPrim_params, State.enterPrim_stepIdx,
          State.enterPrim_fb, hdrop, List.flatMap_cons]
        congr 1
        cases p <;> simp [primRest, primEvents, State.enterPrim]
      · simp only [laterEvents, hdrop, List.flatMap_cons]
        simp [primEvents_ne_nil hmem]
      · simp
      · simp
      · simp
    all_goals simp
  next hp =>
    have hdrop : (s.seq.prims s.params).drop (s.stepIdx + 1) = [] :=
      List.drop_eq_nil_of_le (List.getElem?_eq_none_iff.1 hp)
    refine ⟨After.done ?_ ?_ ?_ ?_ ?_, ⟨?_, ?_, ?_, ?_, ?_⟩⟩
    · simp [laterEvents, hdrop]
    all_goals simp

/-- Is the event a busy sample that reads asserted? -/
def Event.held : Event → Bool
  | .readBusy asserted => asserted
  | .setReset _ _ | .setControl _ _ | .write _ _ | .delay _ => false

/-- The asserted samples the current WAIT_BUSY has taken. -/
def State.polled (s : State) : Nat := if s.current = some .waitBusy then s.pollCount else 0

/-- The transport answers the event as it is written, and no bound is reached by it. -/
def Answered (s : State) (e : Event) : Prop :=
  (e.fallible = true → s.ackAt 0 = true) ∧ (e.sample = true → s.busyAt 0 = e.held) ∧
    (e.held = true → ∀ k, s.params.busyTimeoutPolls = some k → s.polled + 1 < k)

/-- How the coming answers and levels shift over events. -/
structure Shifted (s t : State) (acks levels : Nat) : Prop where
  acks : ∀ k, t.ackAt k = s.ackAt (k + acks)
  levels : ∀ k, t.busyAt k = s.busyAt (k + levels)
  reset : t.resetLine = s.resetLine

@[simp] theorem State.endPrim_trace (s : State) : s.endPrim.trace = s.trace := by
  unfold State.endPrim; split <;> simp
@[simp] theorem State.endPrim_resetLine (s : State) : s.endPrim.resetLine = s.resetLine := by
  unfold State.endPrim; split <;> simp
@[simp] theorem State.endPrim_ackAt (s : State) (k : Nat) : s.endPrim.ackAt k = s.ackAt k := by
  unfold State.endPrim; split <;> simp [State.ackAt]
@[simp] theorem State.endPrim_busyAt (s : State) (k : Nat) : s.endPrim.busyAt k = s.busyAt k := by
  unfold State.endPrim; split <;> simp [State.busyAt]

theorem State.endPrim_polled (s : State) : s.endPrim.polled = 0 := by
  unfold State.endPrim State.polled
  split
  next p hp =>
    split
    next h =>
      have : p = .waitBusy := by
        have hc : (State.enterPrim { s with stepIdx := s.stepIdx + 1, phase := 0 } p).current = some p := by
          simpa [State.current] using hp
        simpa [hc] using h
      subst this
      rfl
    · rfl
  · rw [if_neg]
    simp [State.current, SeqId.prims]

/-- What one event that goes well does. -/
structure WentWell (s t : State) (m m' : Nat) (e : Event) (es : List Event) : Prop where
  after : After s t m' es
  kept : Kept s t
  trace : t.trace = e :: s.trace
  shifted : Shifted s t e.fallible.toNat e.sample.toNat
  polled : t.polled ≤ s.polled + e.held.toNat
  samples : m' + e.held.toNat = m

/-- An event that stays inside its primitive. -/
theorem WentWell.inside {s t : State} {m m' : Nat} {e : Event} {es : List Event} {p : Primitive} (hr : Running s)
    (hc : s.current = some p) (hpos : t.phase < p.phases ∧ ∀ n, p.streamLength = some n → t.streamIdx < n)
    (hplan : primRest t m' p ++ laterEvents t m' = es) (hne : primRest t m' p ≠ [])
    (hbusy : t.portBusy = s.portBusy) (hseq : t.seq = s.seq) (hidx : t.stepIdx = s.stepIdx)
    (hses : t.session = s.session) (hresp : t.responses = s.responses) (kept : Kept s t)
    (trace : t.trace = e :: s.trace) (shifted : Shifted s t e.fallible.toNat e.sample.toNat)
    (polled : t.pollCount ≤ s.pollCount + e.held.toNat) (samples : m' + e.held.toNat = m) :
    WentWell s t m m' e es := by
  have hct : t.current = some p := by simpa [State.current, hseq, hidx, kept.params] using hc
  refine ⟨After.more ⟨hbusy.trans hr.busy, hseq ▸ hr.seq, p, hct, hpos.1, hpos.2⟩ ?_ ?_ hseq hses hresp, kept, trace,
    shifted, ?_, samples⟩
  · rw [planRest, hct]; exact hplan
  · rw [← hplan]; simp [hne]
  · simp only [State.polled, hct, hc]
    split <;> omega

/-- An event that ends its primitive: the sequence goes on from `u`, the state with the event recorded. -/
theorem WentWell.ending {s u : State} {m : Nat} {e : Event} {es : List Event} (hr : Running s)
    (hes : laterEvents s m = es) (hbusy : u.portBusy = s.portBusy) (hseq : u.seq = s.seq)
    (hidx : u.stepIdx = s.stepIdx) (hses : u.session = s.session) (hresp : u.responses = s.responses)
    (kept : Kept s u) (trace : u.trace = e :: s.trace) (shifted : Shifted s u e.fallible.toNat e.sample.toNat)
    (hheld : e.held = false) : WentWell s u.endPrim m m e es := by
  obtain ⟨ha, hk⟩ := u.endPrim_after (hbusy.trans hr.busy) (hseq ▸ hr.seq) m
  have hl : laterEvents u m = es := by
    rw [← hes]; simp only [laterEvents, hseq, hidx, kept.params, kept.fb]
  rw [hl] at ha
  refine ⟨?_, kept.trans hk, by simpa using trace, ⟨fun k => ?_, fun k => ?_, ?_⟩, ?_, by simp [hheld]⟩
  · rcases ha with ⟨h1, h2, h3, h4, h5, h6⟩ | ⟨h1, h2, h3, h4, h5⟩
    · exact .more h1 h2 h3 (h4.trans hseq) (h5.trans hses) (h6.trans hresp)
    · exact .done h1 h2 h3 (by rw [h4, hseq, hses]) (by rw [h5, hresp])
  · simpa using shifted.acks k
  · simpa using shifted.levels k
  · simpa using shifted.reset
  · rw [State.endPrim_polled]; omega

theorem State.act_ok {s : State} (h : s.ackAt 0 = true) (e : Bool → Event) (next : State → State) :
    s.act e next = next (s.log (e true)).takeAck := by simp [State.act, h]

theorem State.act_fail {s : State} (h : s.ackAt 0 = false) (e : Bool → Event) (next : State → State) :
    s.act e next = ((s.log (e false)).takeAck).raise .transportFailure := by simp [State.act, h]

/-- The recorded action of an event that was answered. -/
theorem Shifted.of_takeAck (s : State) (e : Event) : Shifted s (s.log e).takeAck 1 0 :=
  ⟨fun k => by simp, fun k => by simp, rfl⟩

theorem Shifted.of_log (s : State) (e : Event) : Shifted s (s.log e) 0 0 := ⟨fun _ => rfl, fun _ => rfl, rfl⟩

/-- A byte transfer: the line selection stays inside the primitive, the byte is followed by `done`. -/
theorem State.doSend_ok {s : State} (h : s.ackAt 0 = true) (d : Bool) (b : Byte) (done : State → State) :
    s.doSend d b done =
      if s.phase = 0 then (s.log (.setControl d true)).takeAck.nextPhase else done (s.log (.write b true)).takeAck := by
  unfold State.doSend
  split
  · rw [State.act_ok h, if_pos (by assumption)]
  · rw [State.act_ok h, if_neg (by assumption)]

theorem State.endByte_more {s : State} {n : Nat} (h : s.streamIdx + 1 < n) :
    s.endByte n = { s with streamIdx := s.streamIdx + 1, phase := 0 } := if_pos h

theorem State.endByte_last {s : State} {n : Nat} (h : ¬s.streamIdx + 1 < n) :
    s.endByte n = ({ s with streamIdx := s.streamIdx + 1 } : State).endPrim := if_neg h

/-- One event that is answered as planned. -/
theorem State.sequence_wentWell {s : State} {m : Nat} {e : Event} {es : List Event} (hr : Running s)
    (hp : planRest s m = e :: es) (ha : Answered s e) : ∃ m', WentWell s s.sequence m m' e es := by
  obtain ⟨p, hc, hph, hst⟩ := hr.position
  have hseq : s.sequence = s.doPrim p := by rw [State.sequence, hc]
  rw [planRest, hc] at hp
  simp only at hp
  rw [hseq]
  clear hseq
  -- a byte transfer outside a stream
  have send : ∀ d b, p.phases = 2 → p.streamLength = none → (∀ u m', primRest u m' p = [Event.setControl d true, Event.write b true].drop u.phase) →
      WentWell s (s.doSend d b State.endPrim) m m e es := by
    intro d b hp2 hs0 hrest
    rw [hp2] at hph
    rw [hrest] at hp
    rcases (by omega : s.phase = 0 ∨ s.phase = 1) with h0 | h1
    · rw [h0] at hp
      simp only [List.drop_zero, List.cons_append, List.nil_append, List.cons.injEq] at hp
      obtain ⟨rfl, rfl⟩ := hp
      rw [State.doSend_ok (ha.1 rfl), if_pos h0]
      refine WentWell.inside hr hc ⟨?_, ?_⟩ ?_ ?_ rfl rfl rfl rfl rfl ⟨rfl, rfl, rfl, rfl, rfl⟩ rfl
        ⟨fun k => s.takeAck_ackAt k, fun _ => rfl, rfl⟩ (by simp [Event.held]) (by simp [Event.held])
      · simp [hp2, h0]
      · simp [hs0]
      · rw [hrest]; simp [h0, laterEvents]
      · rw [hrest]; simp [h0]
    · rw [h1] at hp
      simp only [List.drop_succ_cons, List.drop_zero, List.cons_append, List.nil_append, List.cons.injEq] at hp
      obtain ⟨rfl, rfl⟩ := hp
      rw [State.doSend_ok (ha.1 rfl), if_neg (by omega)]
      exact WentWell.ending hr rfl rfl rfl rfl rfl rfl ⟨rfl, rfl, rfl, rfl, rfl⟩ rfl (Shifted.of_takeAck s _) rfl
  -- a stream of n bytes whose bytes from the current one on are b :: bs
  have stream : ∀ n b (bytes : Nat → List Byte), p.phases = 2 → p.streamLength = some n →
      (∀ u m', u.fb = s.fb → primRest u m' p = (streamEvents (bytes u.streamIdx)).drop u.phase) →
      bytes s.streamIdx = b :: bytes (s.streamIdx + 1) → (∀ i, n ≤ i → bytes i = []) →
      (∀ i, i < n → bytes i ≠ []) →
      WentWell s (s.doStream n b) m m e es := by
    intro n b bytes hp2 hsn hrest hb hend hne
    rw [hp2] at hph
    have hi := hst n hsn
    rw [hrest s m rfl, hb, streamEvents_cons, dataEvents] at hp
    rw [State.doStream, if_pos hi]
    rcases (by omega : s.phase = 0 ∨ s.phase = 1) with h0 | h1
    · rw [h0] at hp
      simp only [List.drop_zero, List.cons_append, List.nil_append, List.cons.injEq] at hp
      obtain ⟨rfl, rfl⟩ := hp
      rw [State.doSend_ok (ha.1 rfl), if_pos h0]
      refine WentWell.inside hr hc ⟨?_, ?_⟩ ?_ ?_ rfl rfl rfl rfl rfl ⟨rfl, rfl, rfl, rfl, rfl⟩ rfl
        ⟨fun k => s.takeAck_ackAt k, fun _ => rfl, rfl⟩ (by simp [Event.held]) (by simp [Event.held])
      · simp [hp2, h0]
      · intro k hk; rw [hsn] at hk; cases hk; exact hi
      · rw [hrest] <;> simp [h0, laterEvents, hb, streamEvents_cons, dataEvents]
      · rw [hrest] <;> simp [h0, hb, streamEvents_cons, dataEvents]
    · rw [h1] at hp
      simp only [List.drop_succ_cons, List.drop_zero, List.cons_append, List.nil_append, List.cons.injEq] at hp
      obtain ⟨rfl, rfl⟩ := hp
      rw [State.doSend_ok (ha.1 rfl), if_neg (by omega)]
      by_cases hlt : s.streamIdx + 1 < n
      · rw [State.endByte_more (by exact hlt)]
        refine WentWell.inside hr hc ⟨?_, ?_⟩ ?_ ?_ rfl rfl rfl rfl rfl ⟨rfl, rfl, rfl, rfl, rfl⟩ rfl
          ⟨fun k => s.takeAck_ackAt k, fun _ => rfl, rfl⟩ (by simp [Event.held]) (by simp [Event.held])
        · simp [hp2]
        · intro k hk; rw [hsn] at hk; cases hk; exact hlt
        · rw [hrest] <;> simp [laterEvents]
        · rw [hrest _ m (by rfl)]
          obtain ⟨b', bs', hb'⟩ := List.exists_cons_of_ne_nil (hne _ hlt)
          simp [hb', streamEvents_cons, dataEvents]
      · rw [State.endByte_last (by exact hlt)]
        have : bytes (s.streamIdx + 1) = [] := hend _ (by omega)
        rw [this]
        refine WentWell.ending (u := { (s.log (.write b true)).takeAck with streamIdx := s.streamIdx + 1 }) hr ?_ rfl rfl rfl rfl rfl ⟨rfl, rfl, rfl, rfl, rfl⟩ rfl
          ⟨fun k => s.takeAck_ackAt k, fun _ => rfl, rfl⟩ rfl
        simp [streamEvents]
  cases p with
  | sendCmd c => exact ⟨m, send false c rfl rfl fun _ _ => rfl⟩
  | sendData d => exact ⟨m, send true d rfl rfl fun _ _ => rfl⟩
  | sendDataFill v n =>
    refine ⟨m, stream n v (fun i => List.replicate (n - i) v) rfl rfl (fun _ _ _ => rfl) ?_ ?_ ?_⟩
    · have := hst n rfl
      rw [show n - s.streamIdx = (n - (s.streamIdx + 1)) + 1 by omega, List.replicate_succ]
    · intro i hi; simp [Nat.sub_eq_zero_of_le hi]
    · intro i hi; simp; omega
  | sendDataFb =>
    refine ⟨m, stream Config.cells _ (fun i => (cellsInOrder s.fb).drop i) rfl rfl (fun u _ hu => by rw [primRest, hu]) ?_ ?_ ?_⟩
    · exact cellsInOrder_drop _ (hst _ rfl)
    · intro i hi; exact List.drop_eq_nil_of_le (by simpa [cellsInOrder] using hi)
    · intro i hi
      have := cellsInOrder_drop s.fb hi
      simp [this]
  | delay d =>
    simp only [primRest, List.cons_append, List.nil_append, List.cons.injEq] at hp
    obtain ⟨rfl, rfl⟩ := hp
    exact ⟨m, WentWell.ending hr rfl rfl rfl rfl rfl rfl ⟨rfl, rfl, rfl, rfl, rfl⟩ rfl (Shifted.of_log s _) rfl⟩
  | reset =>
    refine ⟨m, ?_⟩
    simp only [Primitive.phases] at hph
    simp only [primRest, primEvents] at hp
    simp only [State.doPrim, State.doReset]
    rcases (by omega : s.phase = 0 ∨ s.phase = 1 ∨ s.phase = 2 ∨ s.phase = 3) with h | h | h | h <;>
      rw [h] at hp ⊢ <;>
      simp only [List.drop_succ_cons, List.drop_zero, List.cons_append, List.nil_append, List.cons.injEq] at hp <;>
      obtain ⟨rfl, rfl⟩ := hp
    · change WentWell s (s.act (.setReset false) State.nextPhase) m m _ _
      rw [State.act_ok (ha.1 rfl)]
      exact WentWell.inside hr hc ⟨by simp [h, Primitive.phases], by simp [Primitive.streamLength]⟩ (by simp [primRest, primEvents, h, laterEvents])
        (by simp [primRest, primEvents, h]) rfl rfl rfl rfl rfl ⟨rfl, rfl, rfl, rfl, rfl⟩ rfl
        ⟨fun k => s.takeAck_ackAt k, fun _ => rfl, rfl⟩ (by simp [Event.held]) (by simp [Event.held])
    · exact WentWell.inside hr hc ⟨by simp [h, Primitive.phases], by simp [Primitive.streamLength]⟩ (by simp [primRest, primEvents, h, laterEvents])
        (by simp [primRest, primEvents, h]) rfl rfl rfl rfl rfl ⟨rfl, rfl, rfl, rfl, rfl⟩ rfl
        ⟨fun _ => rfl, fun _ => rfl, rfl⟩ (by simp [Event.held]) (by simp [Event.held])
    · change WentWell s (s.act (.setReset true) State.nextPhase) m m _ _
      rw [State.act_ok (ha.1 rfl)]
      exact WentWell.inside hr hc ⟨by simp [h, Primitive.phases], by simp [Primitive.streamLength]⟩ (by simp [primRest, primEvents, h, laterEvents])
        (by simp [primRest, primEvents, h]) rfl rfl rfl rfl rfl ⟨rfl, rfl, rfl, rfl, rfl⟩ rfl
        ⟨fun k => s.takeAck_ackAt k, fun _ => rfl, rfl⟩ (by simp [Event.held]) (by simp [Event.held])
    · exact WentWell.ending hr rfl rfl rfl rfl rfl rfl ⟨rfl, rfl, rfl, rfl, rfl⟩ rfl (Shifted.of_log s _) rfl
  | waitBusy =>
    simp only [Primitive.phases] at hph
    simp only [primRest] at hp
    simp only [State.doPrim, State.doWaitBusy]
    rcases (by omega : s.phase = 0 ∨ s.phase = 1) with h | h
    · rw [if_pos h] at hp
      rw [h]
      cases m with
      | zero =>
        simp only [waitEvents, heldEvents, List.replicate_zero, List.flatten_nil, List.cons_append, List.nil_append, List.cons.injEq] at hp
        obtain ⟨rfl, rfl⟩ := hp
        have hb : s.busyAt 0 = false := ha.2.1 rfl
        refine ⟨0, ?_⟩
        simp only [State.samplePoll, hb]
        exact WentWell.ending (u := { (s.log (.readBusy false)).takeBusy with pollCount := s.pollCount + 1 }) hr rfl rfl rfl rfl rfl rfl ⟨rfl, rfl, rfl, rfl, rfl⟩ rfl
          ⟨fun k => rfl, fun k => s.takeBusy_busyAt k, rfl⟩ rfl
      | succ m =>
        simp only [waitEvents, heldEvents, List.replicate_succ, List.flatten_cons, List.cons_append, List.nil_append, List.cons.injEq] at hp
        obtain ⟨rfl, rfl⟩ := hp
        have hb : s.busyAt 0 = true := ha.2.1 rfl
        have hbound := ha.2.2 rfl
        simp only [State.polled, hc, if_pos] at hbound
        refine ⟨m, ?_⟩
        have hx : ({ (s.log (.readBusy true)).takeBusy with pollCount := s.pollCount + 1 } : State).pollsExpired = false := by
          simp only [State.pollsExpired, State.takeBusy_params, State.log_params]
          cases hk : s.params.busyTimeoutPolls with
          | none => rfl
          | some k => have := hbound k hk; simp; omega
        simp only [State.samplePoll, hb, if_pos, hx]
        exact WentWell.inside hr hc ⟨by simp [h, Primitive.phases], by simp [Primitive.streamLength]⟩
          (by simpa [primRest, h, waitEvents, heldEvents, laterEvents] using laterEvents_of_wait hc m (m + 1))
          (by simp [primRest, h]) rfl rfl rfl rfl rfl ⟨rfl, rfl, rfl, rfl, rfl⟩ rfl
          ⟨fun k => rfl, fun k => s.takeBusy_busyAt k, rfl⟩ (by simp [Event.held]) (by simp [Event.held])
    · rw [if_neg (by omega)] at hp
      rw [h]
      simp only [List.cons_append, List.cons.injEq] at hp
      obtain ⟨rfl, rfl⟩ := hp
      exact ⟨m, WentWell.inside hr hc ⟨by simp [Primitive.phases], by simp [Primitive.streamLength]⟩ (by simp [primRest, laterEvents])
        (by simp [primRest, waitEvents]) rfl rfl rfl rfl rfl ⟨rfl, rfl, rfl, rfl, rfl⟩ rfl
        ⟨fun _ => rfl, fun _ => rfl, rfl⟩ (by simp [Event.held]) (by simp [Event.held])⟩

end Sys2Proof.Machine
end

