-- ==== Sys2Proof/Laws/Runs.lean ====
section
/-!
SUPPORT. Runs of a sequence: many events answered as planned, then the whole sequence, its first failing action, or its
busy-wait bound.
-/

namespace Sys2Proof.Machine

theorem NoReset.strikes {s : State} (h : NoReset s) : s.resetStrikes = false := by
  unfold State.resetStrikes
  unfold NoReset at h
  cases hl : s.resetLine with
  | nil => rfl
  | cons b bs => simpa using h b (by simp [hl])

theorem NoReset.tail {s t : State} (h : NoReset s) (ht : t.resetLine = s.resetLine.tail) : NoReset t := by
  intro b hb
  rw [ht] at hb
  exact h b (List.mem_of_mem_tail hb)

/-- A running sequence does its next event in each step. -/
theorem step_running {s : State} (hr : Running s) (h : s.resetStrikes = false) : step s = .next s.tick.sequence := by
  have : s.tick.seq ≠ .none := hr.seq
  simp [step, h, hr.busy, advance, hr.seq]

theorem Running.tick {s : State} (hr : Running s) : Running s.tick := ⟨hr.busy, hr.seq, hr.position⟩

theorem runSteps_add (m n : Nat) (s : State) :
    runSteps (m + n) s = match runSteps m s with
      | .next t => runSteps n t
      | .fault r => .fault r
      | .refused r => .refused r := by
  induction m generalizing s with
  | zero => simp [runSteps]
  | succ m ih =>
    rw [Nat.add_right_comm, runSteps, runSteps]
    cases step s with
    | next t => exact ih t
    | fault r => rfl
    | refused r => rfl

theorem runSteps_trans {m n : Nat} {s t u : State} (h : runSteps m s = .next t) (h' : runSteps n t = .next u) :
    runSteps (m + n) s = .next u := by rw [runSteps_add, h]; exact h'

theorem runSteps_one {s t : State} (h : step s = .next t) : runSteps 1 s = .next t := by simp [runSteps, h]

/-- The transport answers the events as they are written, and no bound is reached by them. -/
structure Follows (s : State) (pre : List Event) : Prop where
  acks : ∀ k, k < pre.countP Event.fallible → s.ackAt k = true
  levels : ∀ k e, (pre.filter Event.sample)[k]? = some e → s.busyAt k = e.held
  bound : 0 < pre.countP Event.held → ∀ k, s.params.busyTimeoutPolls = some k → s.polled + pre.countP Event.held < k

theorem Event.sample_of_held {e : Event} (h : e.held = true) : e.sample = true := by cases e <;> simp_all [Event.held, Event.sample]

theorem Follows.head {s : State} {e : Event} {pre : List Event} (h : Follows s (e :: pre)) : Answered s e := by
  refine ⟨fun he => h.acks 0 (by simp [he]), fun he => h.levels 0 e (by simp [he]), fun he k hk => ?_⟩
  have := h.bound (by simp [he]) k hk
  simp only [List.countP_cons, he, if_true] at this
  omega

theorem Follows.tail {s t : State} {e : Event} {pre : List Event} (h : Follows s (e :: pre))
    (hs : ∀ k, t.ackAt k = s.ackAt (k + e.fallible.toNat)) (hl : ∀ k, t.busyAt k = s.busyAt (k + e.sample.toNat))
    (hp : t.params = s.params)
    (hpol : t.polled ≤ s.polled + e.held.toNat) : Follows t pre := by
  refine ⟨fun k hk => ?_, fun k f hf => ?_, fun h0 k hk => ?_⟩
  · rw [hs]
    apply h.acks
    rw [List.countP_cons]
    cases e.fallible <;> simp <;> omega
  · rw [hl]
    apply h.levels
    cases he : e.sample <;> simp [he, hf]
  · have := h.bound (by rw [List.countP_cons]; omega) k (hp ▸ hk)
    rw [List.countP_cons] at this
    cases he : e.held <;> simp [he] at this hpol <;> omega

/-- Where a sequence stands after the events of `pre` went well, with the events of `post` still to do. -/
structure Reached (s u : State) (m m' : Nat) (pre post : List Event) : Prop where
  run : runSteps pre.length s = .next u
  running : Running u
  plan : planRest u m' = post
  seq : u.seq = s.seq
  session : u.session = s.session
  responses : u.responses = s.responses
  kept : Kept s u
  trace : u.trace = pre.reverse ++ s.trace
  acks : ∀ k, u.ackAt k = s.ackAt (k + pre.countP Event.fallible)
  levels : ∀ k, u.busyAt k = s.busyAt (k + pre.countP Event.sample)
  noReset : NoReset u
  polled : u.polled ≤ s.polled + pre.countP Event.held
  samples : m' + pre.countP Event.held = m

/-- Events answered as planned, with more to come. -/
theorem run_prefix (pre : List Event) : ∀ {s : State} {m : Nat} {post : List Event}, Running s → NoReset s →
    planRest s m = pre ++ post → post ≠ [] → Follows s pre → ∃ m' u, Reached s u m m' pre post := by
  induction pre with
  | nil =>
    intro s m post hr hn hp _ _
    exact ⟨m, s, rfl, hr, by simpa using hp, rfl, rfl, rfl, Kept.refl s, by simp, by simp, by simp, hn, by simp, by simp⟩
  | cons e pre ih =>
    intro s m post hr hn hp hpost hf
    have hf' : Answered s.tick e := hf.head
    obtain ⟨m', hw⟩ := State.sequence_wentWell hr.tick (by exact hp) hf'
    have hstep := step_running hr hn.strikes
    rcases hw.after with ⟨h1, h2, _, h4, h5, h6⟩ | ⟨h1, _⟩
    · have hn' : NoReset s.tick.sequence := hn.tail (by simpa using hw.shifted.reset)
      have hft : Follows s.tick.sequence pre :=
        hf.tail hw.shifted.acks hw.shifted.levels hw.kept.params hw.polled
      obtain ⟨m'', u, hu⟩ := ih h1 hn' h2 hpost hft
      refine ⟨m'', u, ?_, hu.running, hu.plan, hu.seq.trans h4, hu.session.trans h5, hu.responses.trans h6,
        Kept.trans (t := s.tick.sequence) ⟨hw.kept.fb, hw.kept.orient, hw.kept.page, hw.kept.params, hw.kept.offers⟩ hu.kept, ?_, ?_, ?_, hu.noReset, ?_, ?_⟩
      · rw [List.length_cons, runSteps, hstep]; exact hu.run
      · rw [hu.trace, hw.trace]; simp
      · intro k
        rw [hu.acks, hw.shifted.acks, List.countP_cons]
        simp only [State.tick_ackAt]
        congr 1
        cases e.fallible <;> simp; omega
      · intro k
        rw [hu.levels, hw.shifted.levels, List.countP_cons]
        simp only [State.tick_busyAt]
        congr 1
        cases e.sample <;> simp; omega
      · have h1 := hu.polled
        have h2 := hw.polled
        rw [List.countP_cons]
        have h3 : s.tick.polled = s.polled := rfl
        cases he : e.held
        all_goals
          simp only [he, Bool.toNat_true, Bool.toNat_false, if_true, Bool.false_eq_true, if_false] at h2 ⊢
          omega
      · have h1 := hu.samples
        have h2 := hw.samples
        rw [List.countP_cons]
        cases he : e.held
        all_goals
          simp only [he, Bool.toNat_true, Bool.toNat_false, if_true, Bool.false_eq_true, if_false] at h2 ⊢
          omega
    · simp at h1; exact absurd h1.2 hpost

/-- A whole sequence that went well: its command has ended with OK. -/
structure Finished (s u : State) (es : List Event) : Prop where
  run : runSteps es.length s = .next u
  seq : u.seq = .none
  busy : u.portBusy = false
  session : u.session = s.seq.sessionAfter s.session
  responses : u.responses = responseWord .ok 0 :: s.responses
  kept : Kept s u
  trace : u.trace = es.reverse ++ s.trace
  acks : ∀ k, u.ackAt k = s.ackAt (k + es.countP Event.fallible)
  levels : ∀ k, u.busyAt k = s.busyAt (k + es.countP Event.sample)
  noReset : NoReset u

theorem Follows.of_append {s : State} {pre post : List Event} (h : Follows s (pre ++ post)) : Follows s pre := by
  refine ⟨fun k hk => h.acks k (by rw [List.countP_append]; omega), fun k e he => h.levels k e ?_, fun h0 k hk => ?_⟩
  · obtain ⟨hl, -⟩ := List.getElem?_eq_some_iff.1 he
    rw [List.filter_append, List.getElem?_append_left hl, he]
  · have := h.bound (by rw [List.countP_append]; omega) k hk
    rw [List.countP_append] at this
    omega

/-- The whole rest of a sequence, answered as planned. -/
theorem run_all {s : State} {m : Nat} {es : List Event} (hr : Running s) (hn : NoReset s) (hp : planRest s m = es)
    (hne : es ≠ []) (hf : Follows s es) : ∃ u, Finished s u es := by
  obtain ⟨pre, e, rfl⟩ : ∃ pre e, es = pre ++ [e] := ⟨_, _, (List.dropLast_append_getLast hne).symm⟩
  obtain ⟨m', u, hu⟩ := run_prefix pre hr hn hp (by simp) hf.of_append
  have ha : Answered u.tick e := by
    refine ⟨fun he => ?_, fun he => ?_, fun he k hk => ?_⟩
    · rw [State.tick_ackAt, hu.acks]
      exact hf.acks _ (by simp [List.countP_append, he])
    · rw [State.tick_busyAt, hu.levels]
      refine hf.levels _ _ ?_
      rw [List.filter_append, List.getElem?_append_right (by simp [List.countP_eq_length_filter])]
      simp [List.countP_eq_length_filter, he]
    · have := hf.bound (by simp [List.countP_append, he]) k (hu.kept.params ▸ hk)
      have hp := hu.polled
      simp only [List.countP_append, List.countP_cons, he, if_true] at this
      have h3 : u.tick.polled = u.polled := rfl
      omega
  obtain ⟨m'', hw⟩ := State.sequence_wentWell hu.running.tick (by exact hu.plan) ha
  have hstep := step_running hu.running hu.noReset.strikes
  rcases hw.after with ⟨_, _, h3, _⟩ | ⟨_, h2, h3, h4, h5⟩
  · exact absurd rfl h3
  refine ⟨u.tick.sequence, ?_, h2, h3, ?_, ?_, ?_, ?_, ?_, ?_, ?_⟩
  · rw [List.length_append]
    exact runSteps_trans hu.run (runSteps_one hstep)
  · rw [h4]; simp [hu.seq, hu.session]
  · rw [h5]; simp [hu.responses]
  · exact hu.kept.trans ⟨hw.kept.fb, hw.kept.orient, hw.kept.page, hw.kept.params, hw.kept.offers⟩
  · rw [hw.trace]; simp [hu.trace]
  · intro k
    rw [hw.shifted.acks, State.tick_ackAt, hu.acks, List.countP_append]
    congr 1
    cases he : e.fallible <;> simp [he]; omega
  · intro k
    rw [hw.shifted.levels, State.tick_busyAt, hu.levels, List.countP_append]
    congr 1
    cases he : e.sample <;> simp [he]; omega
  · exact hu.noReset.tail (by simpa using hw.shifted.reset)

/-- A fallible action that is answered fail ends the sequence at once (R79). -/
theorem State.sequence_failed {s : State} {m : Nat} {e : Event} {es : List Event} (hr : Running s)
    (hp : planRest s m = e :: es) (he : e.fallible = true) (ha : s.ackAt 0 = false) :
    s.sequence = ((s.log e.asFailed).takeAck).raise .transportFailure := by
  obtain ⟨p, hc, hph, hst⟩ := hr.position
  have hseq : s.sequence = s.doPrim p := by rw [State.sequence, hc]
  rw [planRest, hc] at hp
  simp only at hp
  rw [hseq]
  have send : ∀ d b done, s.phase < 2 → (∃ rest, primRest s m p = [Event.setControl d true, Event.write b true].drop s.phase ++ rest) →
      s.doSend d b done = ((s.log e.asFailed).takeAck).raise .transportFailure := by
    rintro d b done h2 ⟨rest, hrest⟩
    rw [hrest] at hp
    unfold State.doSend
    rcases (by omega : s.phase = 0 ∨ s.phase = 1) with h | h <;> rw [h] at hp ⊢ <;>
      simp only [List.drop_succ_cons, List.drop_zero, List.cons_append, List.nil_append, List.cons.injEq] at hp <;>
      obtain ⟨rfl, -⟩ := hp <;> exact State.act_fail ha _ _
  cases p with
  | sendCmd c => exact send _ _ _ hph ⟨[], by simp [primRest, cmdEvents]⟩
  | sendData d => exact send _ _ _ hph ⟨[], by simp [primRest, dataEvents]⟩
  | sendDataFill v n =>
    have hi := hst n rfl
    rw [State.doPrim, State.doStream, if_pos hi]
    refine send _ _ _ hph ⟨streamEvents (List.replicate (n - (s.streamIdx + 1)) v), ?_⟩
    rw [primRest, show n - s.streamIdx = (n - (s.streamIdx + 1)) + 1 by omega, List.replicate_succ, streamEvents_cons,
      List.drop_append_of_le_length (by have : s.phase < 2 := hph; simp [dataEvents]; omega)]
    rfl
  | sendDataFb =>
    have hi := hst _ rfl
    rw [State.doPrim, State.doStream, if_pos hi]
    refine send _ _ _ hph ⟨streamEvents ((cellsInOrder s.fb).drop (s.streamIdx + 1)), ?_⟩
    rw [primRest, cellsInOrder_drop _ hi, streamEvents_cons,
      List.drop_append_of_le_length (by have : s.phase < 2 := hph; simp [dataEvents]; omega)]
    rfl
  | delay d =>
    simp only [primRest, List.cons_append, List.cons.injEq] at hp
    obtain ⟨rfl, -⟩ := hp
    simp [Event.fallible] at he
  | reset =>
    simp only [Primitive.phases] at hph
    simp only [primRest, primEvents] at hp
    unfold State.doPrim State.doReset
    rcases (by omega : s.phase = 0 ∨ s.phase = 1 ∨ s.phase = 2 ∨ s.phase = 3) with h | h | h | h <;> rw [h] at hp ⊢ <;>
      simp only [List.drop_succ_cons, List.drop_zero, List.cons_append, List.nil_append, List.cons.injEq] at hp <;>
      obtain ⟨rfl, -⟩ := hp <;> first | exact State.act_fail ha _ _ | simp [Event.fallible] at he
  | waitBusy =>
    simp only [primRest] at hp
    split at hp
    · cases m <;> simp only [waitEvents, heldEvents, List.replicate_zero, List.replicate_succ, List.flatten_nil, List.flatten_cons,
        List.nil_append, List.cons_append, List.cons.injEq] at hp <;> obtain ⟨rfl, -⟩ := hp <;> simp [Event.fallible] at he
    · simp only [List.cons_append, List.cons.injEq] at hp
      obtain ⟨rfl, -⟩ := hp
      simp [Event.fallible] at he

/-- A sequence whose first failing action comes after the events of `pre` (R79, R105, R117). -/
theorem run_fail {s : State} {m : Nat} {pre post : List Event} {e : Event} (hr : Running s) (hn : NoReset s)
    (hp : planRest s m = pre ++ e :: post) (hf : Follows s pre) (he : e.fallible = true)
    (ha : s.ackAt (pre.countP Event.fallible) = false) :
    ∃ u, runSteps (pre.length + 1) s = .next u ∧ u.seq = .none ∧ u.session = .uninitialized ∧
      Answers s u (responseWord .transportFailure 0) ∧ Kept s u ∧ u.trace = e.asFailed :: (pre.reverse ++ s.trace) := by
  obtain ⟨m', u, hu⟩ := run_prefix pre hr hn hp (by simp) hf
  have hs := State.sequence_failed hu.running.tick (by exact hu.plan) he (by rw [State.tick_ackAt, hu.acks]; simpa using ha)
  have hstep := step_running hu.running hu.noReset.strikes
  rw [hs] at hstep
  refine ⟨_, runSteps_trans hu.run (runSteps_one hstep), rfl, rfl, ⟨?_, rfl⟩, hu.kept.trans ⟨?_, ?_, ?_, ?_, ?_⟩, ?_⟩
  · simp [hu.responses]
  · simp
  · simp
  · simp
  · simp
  · simp
  · simp [hu.trace]

/-- WAIT_BUSY after `n` more asserted samples, each with its back-off. -/
def State.waited (s : State) (n : Nat) : State :=
  { s with
    pollCount := s.pollCount + n
    trace := (heldEvents n).reverse ++ s.trace
    busyLevels := s.busyLevels.drop n
    busyTaken := s.busyTaken + n
    resetLine := s.resetLine.drop (2 * n) }

@[simp] theorem State.waited_fb (s : State) (n : Nat) : (s.waited n).fb = s.fb := rfl
@[simp] theorem State.waited_orient (s : State) (n : Nat) : (s.waited n).orient = s.orient := rfl
@[simp] theorem State.waited_page (s : State) (n : Nat) : (s.waited n).page = s.page := rfl
@[simp] theorem State.waited_session (s : State) (n : Nat) : (s.waited n).session = s.session := rfl
@[simp] theorem State.waited_portBusy (s : State) (n : Nat) : (s.waited n).portBusy = s.portBusy := rfl
@[simp] theorem State.waited_seq (s : State) (n : Nat) : (s.waited n).seq = s.seq := rfl
@[simp] theorem State.waited_stepIdx (s : State) (n : Nat) : (s.waited n).stepIdx = s.stepIdx := rfl
@[simp] theorem State.waited_streamIdx (s : State) (n : Nat) : (s.waited n).streamIdx = s.streamIdx := rfl
@[simp] theorem State.waited_phase (s : State) (n : Nat) : (s.waited n).phase = s.phase := rfl
@[simp] theorem State.waited_params (s : State) (n : Nat) : (s.waited n).params = s.params := rfl
@[simp] theorem State.waited_offers (s : State) (n : Nat) : (s.waited n).offers = s.offers := rfl
@[simp] theorem State.waited_responses (s : State) (n : Nat) : (s.waited n).responses = s.responses := rfl
@[simp] theorem State.waited_pollCount (s : State) (n : Nat) : (s.waited n).pollCount = s.pollCount + n := rfl
@[simp] theorem State.waited_trace (s : State) (n : Nat) :
    (s.waited n).trace = (heldEvents n).reverse ++ s.trace := rfl

theorem State.waited_busyAt (s : State) (n k : Nat) : (s.waited n).busyAt k = s.busyAt (n + k) := by
  simp [State.busyAt, State.waited, Nat.add_assoc]

theorem heldEvents_succ (n : Nat) : heldEvents (n + 1) = [.readBusy true, .delay .poll] ++ heldEvents n := by
  simp [heldEvents, List.replicate_succ]

theorem NoReset.drop {s t : State} (h : NoReset s) {n : Nat} (ht : t.resetLine = s.resetLine.drop n) : NoReset t := by
  intro b hb
  rw [ht] at hb
  exact h b (List.mem_of_mem_drop hb)

/-- A sample in WAIT_BUSY. -/
theorem step_sample {s : State} (hr : Running s) (hc : s.current = some .waitBusy) (hp : s.phase = 0) (hn : NoReset s) :
    step s = .next s.tick.samplePoll := by
  have h1 : s.tick.current = some .waitBusy := hc
  rw [step_running hr hn.strikes]
  simp only [State.sequence, h1, State.doPrim, State.doWaitBusy, State.tick_phase, hp]

/-- WAIT_BUSY while busy stays asserted and no bound is reached (R89). -/
theorem run_waited (n : Nat) : ∀ {s : State}, Running s → s.current = some .waitBusy → s.phase = 0 → NoReset s →
    BusyHeld s n → (0 < n → ∀ k, s.params.busyTimeoutPolls = some k → s.pollCount + n < k) →
    runSteps (2 * n) s = .next (s.waited n) := by
  induction n with
  | zero => intro s _ _ _ _ _ _; simp [runSteps, State.waited, heldEvents]
  | succ n ih =>
    intro s hr hc hp hn hb hk
    have h0 : s.busyAt 0 = true := hb 0 (by omega)
    have hx : ({ (s.tick.log (.readBusy true)).takeBusy with pollCount := s.pollCount + 1 } : State).pollsExpired = false := by
      simp only [State.pollsExpired, State.takeBusy_params, State.log_params, State.tick_params]
      cases hq : s.params.busyTimeoutPolls with
      | none => rfl
      | some k => have := hk (by omega) k hq; simp; omega
    have h1 : step s = .next { (s.tick.log (.readBusy true)).takeBusy with pollCount := s.pollCount + 1, phase := 1 } := by
      rw [step_sample hr hc hp hn]
      simp only [State.samplePoll, State.tick_busyAt, h0, if_true, State.tick_pollCount, hx]
      simp [State.nextPhase, hp]
    have h2 : step { (s.tick.log (.readBusy true)).takeBusy with pollCount := s.pollCount + 1, phase := 1 } = .next (s.waited 1) := by
      have hr' : Running { (s.tick.log (.readBusy true)).takeBusy with pollCount := s.pollCount + 1, phase := 1 } :=
        ⟨hr.busy, hr.seq, .waitBusy, hc, by simp [Primitive.phases], by simp [Primitive.streamLength]⟩
      rw [step_running hr' (hn.tail rfl).strikes, State.sequence,
        show State.current (State.tick { (s.tick.log (.readBusy true)).takeBusy with pollCount := s.pollCount + 1, phase := 1 }) = some .waitBusy from hc]
      simp [State.doPrim, State.doWaitBusy, State.pause, State.log, State.tick, State.takeBusy, State.waited, heldEvents, ← List.drop_one, hp]
    have hr1 : Running (s.waited 1) := ⟨hr.busy, hr.seq, hr.position⟩
    have h3 := ih (s := s.waited 1) hr1 hc hp (hn.drop rfl) (fun k hk' => by rw [State.waited_busyAt]; exact hb _ (by omega))
      (fun h k hq => by have := hk (by omega) k hq; simp only [State.waited]; omega)
    rw [show 2 * (n + 1) = (2 * n + 1) + 1 by omega, runSteps, h1]
    simp only
    rw [runSteps, h2]
    simp only
    rw [h3]
    simp only [State.waited, heldEvents_succ, Host.Outcome.next.injEq, State.mk.injEq, true_and, List.drop_drop]
    refine ⟨by omega, ?_, by simp [Nat.add_comm], by omega, by simp [heldEvents]⟩
    congr 1; omega

/-- WAIT_BUSY after a sample that read `b` (R89). -/
def State.sampled (s : State) (b : Bool) : State :=
  { (s.log (.readBusy b)).takeBusy with pollCount := s.pollCount + 1 }

@[simp] theorem State.sampled_fb (s : State) (b : Bool) : (s.sampled b).fb = s.fb := rfl
@[simp] theorem State.sampled_orient (s : State) (b : Bool) : (s.sampled b).orient = s.orient := rfl
@[simp] theorem State.sampled_page (s : State) (b : Bool) : (s.sampled b).page = s.page := rfl
@[simp] theorem State.sampled_session (s : State) (b : Bool) : (s.sampled b).session = s.session := rfl
@[simp] theorem State.sampled_portBusy (s : State) (b : Bool) : (s.sampled b).portBusy = s.portBusy := rfl
@[simp] theorem State.sampled_seq (s : State) (b : Bool) : (s.sampled b).seq = s.seq := rfl
@[simp] theorem State.sampled_stepIdx (s : State) (b : Bool) : (s.sampled b).stepIdx = s.stepIdx := rfl
@[simp] theorem State.sampled_streamIdx (s : State) (b : Bool) : (s.sampled b).streamIdx = s.streamIdx := rfl
@[simp] theorem State.sampled_phase (s : State) (b : Bool) : (s.sampled b).phase = s.phase := rfl
@[simp] theorem State.sampled_params (s : State) (b : Bool) : (s.sampled b).params = s.params := rfl
@[simp] theorem State.sampled_offers (s : State) (b : Bool) : (s.sampled b).offers = s.offers := rfl
@[simp] theorem State.sampled_responses (s : State) (b : Bool) : (s.sampled b).responses = s.responses := rfl
@[simp] theorem State.sampled_resetLine (s : State) (b : Bool) : (s.sampled b).resetLine = s.resetLine := rfl
@[simp] theorem State.sampled_pollCount (s : State) (b : Bool) : (s.sampled b).pollCount = s.pollCount + 1 := rfl
@[simp] theorem State.sampled_trace (s : State) (b : Bool) : (s.sampled b).trace = .readBusy b :: s.trace := rfl

theorem State.samplePoll_released {s : State} (h : s.busyAt 0 = false) : s.samplePoll = (s.sampled false).endPrim := by
  unfold State.samplePoll
  rw [h]
  rfl

theorem State.samplePoll_expired {s : State} (h : s.busyAt 0 = true) (hx : (s.sampled true).pollsExpired = true) :
    s.samplePoll = (s.sampled true).raise .panelTimeout := by
  unfold State.sampled at *
  unfold State.samplePoll
  rw [h]
  simp only [if_pos, hx]

/-- WAIT_BUSY that is released after `m` asserted samples, within the bound (R89). -/
theorem run_released {s : State} {m : Nat} (hr : Running s) (hc : s.current = some .waitBusy) (hp : s.phase = 0)
    (hpc : s.pollCount = 0) (hn : NoReset s) (hb : BusyFor s m) (hk : BoundAllows s m) :
    ∃ u, runSteps (2 * m + 1) s = .next u ∧ u.stepIdx = s.stepIdx + 1 ∧ u.trace = (waitEvents m).reverse ++ s.trace ∧
      Kept s u := by
  have h1 := run_waited m hr hc hp hn hb.1 (fun _ j hj => by rw [hpc]; have := hk j hj; omega)
  have h2 := step_sample (s := s.waited m) ⟨hr.busy, hr.seq, hr.position⟩ hc hp (hn.drop rfl)
  rw [State.samplePoll_released (by rw [State.tick_busyAt, State.waited_busyAt]; exact hb.2)] at h2
  have h3 := runSteps_trans h1 (runSteps_one h2)
  refine ⟨_, h3, ?_, ?_, ?_⟩
  · unfold State.endPrim
    split <;> simp
  · simp [waitEvents]
  · have hk : Kept s ((s.waited m).tick.sampled false) := ⟨by simp, by simp, by simp, by simp, by simp⟩
    have hb : ((s.waited m).tick.sampled false).portBusy = true := by simpa using hr.busy
    have hq : ((s.waited m).tick.sampled false).seq ≠ .none := by simpa using hr.seq
    generalize (s.waited m).tick.sampled false = t at hk hb hq ⊢
    exact hk.trans (t.endPrim_after hb hq 0).2

/-- WAIT_BUSY that reaches the bound `k + 1` (R89, R114). -/
theorem run_expired {s : State} {k : Nat} (hr : Running s) (hc : s.current = some .waitBusy) (hp : s.phase = 0)
    (hpc : s.pollCount = 0) (hn : NoReset s) (hk : s.params.busyTimeoutPolls = some (k + 1)) (hb : BusyHeld s (k + 1)) :
    ∃ u, runSteps (2 * k + 1) s = .next u ∧ Answers s u (responseWord .panelTimeout 0) ∧ u.session = .uninitialized ∧
      u.seq = .none ∧ u.trace = .readBusy true :: ((heldEvents k).reverse ++ s.trace) ∧ Kept s u := by
  have h1 := run_waited k hr hc hp hn (fun j hj => hb j (by omega)) (fun _ j hj => by rw [hk] at hj; cases hj; omega)
  have h2 := step_sample (s := s.waited k) ⟨hr.busy, hr.seq, hr.position⟩ hc hp (hn.drop rfl)
  have hx : ((s.waited k).tick.sampled true).pollsExpired = true := by
    have h3 : ((s.waited k).tick.sampled true).params.busyTimeoutPolls = some (k + 1) := hk
    have h4 : ((s.waited k).tick.sampled true).pollCount = s.pollCount + k + 1 := rfl
    unfold State.pollsExpired
    rw [h3, h4]
    simp [hpc]
  rw [State.samplePoll_expired (by rw [State.tick_busyAt, State.waited_busyAt]; exact hb k (by omega)) hx] at h2
  obtain ⟨hq, hs⟩ := ((s.waited k).tick.sampled true).raise_sequence_failure (.inr rfl)
  have h3 := runSteps_trans h1 (runSteps_one h2)
  exact ⟨_, h3, ⟨by simp, by simp⟩, hs, hq, by simp,
    ⟨by simp, by simp, by simp, by simp, by simp⟩⟩

end Sys2Proof.Machine
end

