-- ==== Sys2Proof/Laws/Sequences.lean ====
section
/-!
SUPPORT. The three sequences as plans: the events each starts with, how many answers they take, and what the premises of
a run have to say about the transport.
-/

namespace Sys2Proof.Machine

theorem Running.startSeq {s : State} (hb : s.portBusy = true) {q : SeqId} (hq : q ≠ .none) : Running (s.startSeq q) := by
  cases q with
  | none => contradiction
  | initSeq => exact ⟨hb, by simp, .reset, rfl, by simp [Primitive.phases], by simp [Primitive.streamLength]⟩
  | updateSeq => exact ⟨hb, by simp, .sendCmd s.params.cmdDtm1, rfl, by simp [Primitive.phases], by simp [Primitive.streamLength]⟩
  | sleepSeq =>
    exact ⟨hb, by simp, .sendCmd s.params.cmdVcomDataInterval, rfl, by simp [Primitive.phases], by simp [Primitive.streamLength]⟩

theorem planRest_initSeq (s : State) (m : Nat) : planRest (s.startSeq .initSeq) m = initTrace s.params m := by
  simp [planRest, laterEvents, State.current, SeqId.prims, initSeqPrims, primRest, primEvents, initTrace, initTraceHead,
    initTraceTail]

theorem planRest_updateSeq (s : State) (m : Nat) :
    planRest (s.startSeq .updateSeq) m = updateTrace s.params s.fb m := by
  simp [planRest, laterEvents, State.current, SeqId.prims, updateSeqPrims, primRest, primEvents, updateTrace,
    updateTraceHead, fillBytes, -List.reduceReplicate]

theorem planRest_sleepSeq (s : State) (m : Nat) : planRest (s.startSeq .sleepSeq) m = sleepTrace s.params := by
  simp [planRest, laterEvents, State.current, SeqId.prims, sleepSeqPrims, primRest, primEvents, sleepTrace]

theorem length_streamEvents (bs : List Byte) : (streamEvents bs).length = 2 * bs.length := by
  induction bs with
  | nil => rfl
  | cons b bs ih => rw [streamEvents_cons, List.length_append, ih]; simp [dataEvents]; omega

theorem length_fillBytes : fillBytes.length = 2756 := List.length_replicate

theorem length_cellsInOrder (m : Memory) : (cellsInOrder m).length = 2756 := by simp [cellsInOrder]

theorem countP_heldEvents (f : Event → Bool) (m : Nat) :
    (heldEvents m).countP f = m * ((f (.readBusy true)).toNat + (f (.delay .poll)).toNat) := by
  induction m with
  | zero => simp [heldEvents]
  | succ m ih =>
    rw [heldEvents_succ, List.countP_append, ih, Nat.succ_mul]
    cases h1 : f (.readBusy true) <;> cases h2 : f (.delay .poll) <;> simp [h1, h2] <;> omega

theorem length_heldEvents (m : Nat) : (heldEvents m).length = 2 * m := by
  induction m with
  | zero => rfl
  | succ m ih => rw [heldEvents_succ, List.length_append, ih]; simp; omega

theorem filter_sample_heldEvents (m : Nat) : (heldEvents m).filter Event.sample = List.replicate m (.readBusy true) := by
  induction m with
  | zero => simp [heldEvents]
  | succ m ih => rw [heldEvents_succ, List.filter_append, ih]; rfl

theorem countP_streamEvents (f : Event → Bool) (h : ∀ b, f (.write b true) = f (.write 0 true)) (bs : List Byte) :
    (streamEvents bs).countP f =
      bs.length * ((f (.setControl true true)).toNat + (f (.write 0 true)).toNat) := by
  induction bs with
  | nil => simp [streamEvents]
  | cons b bs ih =>
    rw [streamEvents_cons, List.countP_append, ih, List.length_cons, Nat.succ_mul]
    rw [dataEvents, List.countP_cons, List.countP_cons, List.countP_nil, h b]
    cases f (.setControl true true) <;> cases f (.write 0 true) <;> simp <;> omega

/-- A part of a sequence with no busy sample in it. -/
def NoSample (es : List Event) : Prop := es.filter Event.sample = []

theorem NoSample.held {es : List Event} (h : NoSample es) : es.countP Event.held = 0 := by
  rw [List.countP_eq_zero]
  intro e he hh
  exact (List.filter_eq_nil_iff.1 h) e he (Event.sample_of_held hh)

theorem noSample_streamEvents (bs : List Byte) : NoSample (streamEvents bs) := by
  induction bs with
  | nil => rfl
  | cons b bs ih => rw [NoSample, streamEvents_cons, List.filter_append, ih]; rfl

theorem noSample_initTraceHead (p : Params) : NoSample (initTraceHead p) := rfl

theorem noSample_initTraceTail (p : Params) : NoSample (initTraceTail p) := rfl

theorem noSample_sleepTrace (p : Params) : NoSample (sleepTrace p) := rfl

theorem noSample_updateTraceHead (p : Params) (fb : Memory) : NoSample (updateTraceHead p fb) := by
  have h1 := noSample_streamEvents fillBytes
  have h2 := noSample_streamEvents (cellsInOrder fb)
  simp only [NoSample] at h1 h2
  simp only [NoSample, updateTraceHead, List.filter_append, h1, h2]
  rfl

/-- A part without samples is answered as planned when its actions are. -/
theorem Follows.of_acks {s : State} {es : List Event} {n : Nat} (hes : NoSample es) (hn : es.countP Event.fallible ≤ n)
    (ha : AcksOk s n) : Follows s es :=
  ⟨fun k hk => ha k (by omega), fun k e he => by rw [NoSample] at hes; simp [hes] at he, fun h => by simp [hes.held] at h⟩

/-- A sequence with one busy wait is answered as planned when its actions are, and busy is asserted for `m` samples. -/
theorem Follows.of_wait {s : State} {head tail : List Event} {m n : Nat} (hh : NoSample head) (ht : NoSample tail)
    (hn : (head ++ waitEvents m ++ tail).countP Event.fallible ≤ n) (ha : AcksOk s n) (hb : BusyFor s m)
    (hk : BoundAllows s m) (hp : s.polled = 0) : Follows s (head ++ waitEvents m ++ tail) := by
  have hheld : (head ++ waitEvents m ++ tail).countP Event.held = m := by
    rw [List.countP_append, List.countP_append, hh.held, ht.held, waitEvents, List.countP_append, countP_heldEvents]
    simp [Event.held]
  refine ⟨fun k hk => ha k (by omega), fun k e he => ?_, fun h k hq => ?_⟩
  · simp only [NoSample] at hh ht
    rw [List.filter_append, List.filter_append, hh, ht, waitEvents, List.filter_append, filter_sample_heldEvents] at he
    simp only [List.nil_append, List.append_nil] at he
    by_cases hkm : k < m
    · rw [List.getElem?_append_left (by simpa using hkm), List.getElem?_replicate, if_pos hkm] at he
      cases he
      exact hb.1 k hkm
    · rw [List.getElem?_append_right (by simpa using hkm)] at he
      simp only [List.length_replicate] at he
      obtain rfl : k = m := by
        by_contra hne
        have : k - m ≠ 0 := by omega
        obtain ⟨j, hj⟩ := Nat.exists_eq_succ_of_ne_zero this
        rw [hj, List.filter_cons_of_pos rfl] at he
        simp at he
      rw [List.filter_cons_of_pos rfl] at he
      simp at he
      subst he
      exact hb.2
  · rw [hheld, hp]
    have := hk k hq
    omega

theorem polled_startSeq (s : State) (q : SeqId) : (s.startSeq q).polled = 0 := by simp [State.polled]

theorem countP_fallible_initTrace (p : Params) (m : Nat) : (initTrace p m).countP Event.fallible = 46 := by
  rw [initTrace, waitEvents, List.countP_append, List.countP_append, List.countP_append, countP_heldEvents]
  rfl

theorem countP_fallible_updateTrace (p : Params) (fb : Memory) (m : Nat) :
    (updateTrace p fb m).countP Event.fallible = 11030 := by
  simp only [updateTrace, updateTraceHead, waitEvents, List.countP_append, countP_heldEvents,
    countP_streamEvents Event.fallible (fun _ => rfl), length_cellsInOrder, length_fillBytes]
  simp [Event.fallible, cmdEvents, List.countP_cons]

theorem countP_fallible_sleepTrace (p : Params) : (sleepTrace p).countP Event.fallible = 10 := rfl

theorem countP_sample_initTrace (p : Params) (m : Nat) : (initTrace p m).countP Event.sample = m + 1 := by
  rw [initTrace, waitEvents, List.countP_append, List.countP_append, List.countP_append, countP_heldEvents]
  have h1 : (initTraceHead p).countP Event.sample = 0 := rfl
  have h2 : (initTraceTail p).countP Event.sample = 0 := rfl
  rw [h1, h2]
  simp [Event.sample]

theorem countP_isWrite_initTrace (p : Params) (m : Nat) : (initTrace p m).countP Event.isWrite = 22 := by
  rw [initTrace, waitEvents, List.countP_append, List.countP_append, List.countP_append, countP_heldEvents]
  rfl

theorem countP_isDelay_initTrace (p : Params) (m : Nat) : (initTrace p m).countP Event.isDelay = 2 + m := by
  rw [initTrace, waitEvents, List.countP_append, List.countP_append, List.countP_append, countP_heldEvents]
  have h1 : (initTraceHead p).countP Event.isDelay = 2 := rfl
  have h2 : (initTraceTail p).countP Event.isDelay = 0 := rfl
  rw [h1, h2]
  simp [Event.isDelay]

/-- How many events of a kind UPDATE_SEQ has, for a kind that does not look at the byte of a transfer. -/
theorem countP_updateTrace (f : Event → Bool) (h : ∀ b, f (.write b true) = f (.write 0 true)) (p : Params) (fb : Memory)
    (m : Nat) :
    (updateTrace p fb m).countP f =
      3 * ((f (.setControl false true)).toNat + (f (.write 0 true)).toNat) +
        5512 * ((f (.setControl true true)).toNat + (f (.write 0 true)).toNat) + (f (.delay .refresh)).toNat +
        m * ((f (.readBusy true)).toNat + (f (.delay .poll)).toNat) + (f (.readBusy false)).toNat := by
  simp only [updateTrace, updateTraceHead, waitEvents, List.countP_append, countP_heldEvents, countP_streamEvents f h,
    length_cellsInOrder, length_fillBytes, cmdEvents, List.countP_cons, List.countP_nil, h]
  cases f (.setControl false true) <;> cases f (.write 0 true) <;> cases f (.setControl true true) <;>
    cases f (.delay .refresh) <;> cases f (.readBusy false) <;> simp <;> omega

theorem length_initTrace (p : Params) (m : Nat) : (initTrace p m).length = 49 + 2 * m := by
  simp only [initTrace, waitEvents, List.length_append, length_heldEvents]
  have h1 : (initTraceHead p).length = 26 := rfl
  have h2 : (initTraceTail p).length = 22 := rfl
  rw [h1, h2]
  simp only [List.length_cons, List.length_nil]
  omega

theorem length_updateTraceHead (p : Params) (fb : Memory) : (updateTraceHead p fb).length = 11031 := by
  simp only [updateTraceHead, List.length_append, length_streamEvents, length_cellsInOrder, length_fillBytes]
  simp [cmdEvents]

theorem length_updateTrace (p : Params) (fb : Memory) (m : Nat) : (updateTrace p fb m).length = 11032 + 2 * m := by
  simp only [updateTrace, waitEvents, List.length_append, length_updateTraceHead, length_heldEvents, List.length_cons,
    List.length_nil]
  omega

theorem length_sleepTrace (p : Params) : (sleepTrace p).length = 11 := rfl

theorem initTrace_wait (p : Params) (m : Nat) :
    initTrace p m = initTraceHead p ++ (waitEvents m ++ initTraceTail p) := List.append_assoc _ _ _

theorem updateTrace_wait (p : Params) (fb : Memory) (m : Nat) :
    updateTrace p fb m = updateTraceHead p fb ++ (waitEvents m ++ []) := by rw [List.append_nil, updateTrace]

theorem countP_fallible_initTraceHead (p : Params) : (initTraceHead p).countP Event.fallible = 24 := rfl

theorem countP_fallible_updateTraceHead (p : Params) (fb : Memory) :
    (updateTraceHead p fb).countP Event.fallible = 11030 := by
  simp only [updateTraceHead, List.countP_append, countP_streamEvents Event.fallible (fun _ => rfl),
    length_cellsInOrder, length_fillBytes]
  simp [Event.fallible, cmdEvents, List.countP_cons]

/-- Where a running sequence has a busy sample next, it stands at the start of its WAIT_BUSY. -/
theorem wait_of_plan {s : State} {m : Nat} {b : Bool} {es : List Event} (hr : Running s)
    (hp : planRest s m = .readBusy b :: es) : s.current = some .waitBusy ∧ s.phase = 0 := by
  obtain ⟨p, hc, hph, hst⟩ := hr.position
  rw [planRest, hc] at hp
  simp only at hp
  have noSample : ∀ l : List Event, primRest s m p = l → l ≠ [] → NoSample l → False := by
    intro l hl hne hs
    rw [hl] at hp
    obtain ⟨e, l, rfl⟩ := List.exists_cons_of_ne_nil hne
    simp only [List.cons_append, List.cons.injEq] at hp
    obtain ⟨rfl, -⟩ := hp
    simp [NoSample, Event.sample] at hs
  have dropped : ∀ (l : List Event) n, NoSample l → NoSample (l.drop n) := by
    intro l n hl
    refine List.filter_eq_nil_iff.2 fun e he => List.filter_eq_nil_iff.1 hl e (List.mem_of_mem_drop he)
  have long : ∀ l : List Event, s.phase < l.length → l.drop s.phase ≠ [] := by
    intro l hl h
    have := congrArg List.length h
    simp at this
    omega
  cases p with
  | reset => exact (noSample _ rfl (long _ hph) (dropped _ _ rfl)).elim
  | sendCmd c => exact (noSample _ rfl (long _ hph) (dropped _ _ rfl)).elim
  | sendData d => exact (noSample _ rfl (long _ hph) (dropped _ _ rfl)).elim
  | sendDataFill v n =>
    have := hst n rfl
    have hph : s.phase < 2 := hph
    exact (noSample _ rfl (long _ (by rw [length_streamEvents, List.length_replicate]; omega))
      (dropped _ _ (noSample_streamEvents _))).elim
  | sendDataFb =>
    have : s.streamIdx < 2756 := hst _ rfl
    have hph : s.phase < 2 := hph
    exact (noSample _ rfl (long _ (by rw [length_streamEvents, List.length_drop, length_cellsInOrder]; omega))
      (dropped _ _ (noSample_streamEvents _))).elim
  | delay d => exact (noSample [.delay d] rfl (by simp) rfl).elim
  | waitBusy =>
    refine ⟨hc, ?_⟩
    by_contra h0
    simp [primRest, h0] at hp

/-- A sequence whose actions are answered ok up to its WAIT_BUSY stands at the start of it. -/
theorem run_to_wait {s : State} {head tail : List Event} (hr : Running s) (hn : NoReset s)
    (hp : planRest s 0 = head ++ (waitEvents 0 ++ tail)) (hh : NoSample head)
    (ha : AcksOk s (head.countP Event.fallible)) (h0 : s.polled = 0) :
    ∃ m' u, Reached s u 0 m' head (waitEvents 0 ++ tail) ∧ u.current = some .waitBusy ∧ u.phase = 0 ∧
      u.pollCount = 0 ∧ ∀ k, u.busyAt k = s.busyAt k := by
  obtain ⟨m', u, hu⟩ := run_prefix head hr hn hp (by simp [waitEvents]) (Follows.of_acks hh le_rfl ha)
  obtain ⟨hc, hph⟩ := wait_of_plan (b := false) (es := tail) hu.running (by simpa [waitEvents, heldEvents] using hu.plan)
  refine ⟨m', u, hu, hc, hph, ?_, fun k => ?_⟩
  · have := hu.polled
    rw [hh.held, h0, State.polled, if_pos hc] at this
    omega
  · have : head.countP Event.sample = 0 := by rw [List.countP_eq_length_filter, hh]; rfl
    rw [hu.levels, this]
    rfl

/-- A first part of a sequence with one busy wait is answered as planned when its actions are, and busy is asserted for
`m` samples wherever the part takes one. -/
theorem Follows.of_prefix {s : State} {head tail pre rest : List Event} {m : Nat} (hh : NoSample head) (ht : NoSample tail)
    (h : head ++ (waitEvents m ++ tail) = pre ++ rest) (ha : AcksOk s (pre.countP Event.fallible)) (h0 : s.polled = 0)
    (hb : 0 < pre.countP Event.sample → BusyFor s m ∧ BoundAllows s m) : Follows s pre := by
  have hfil : (pre ++ rest).filter Event.sample = List.replicate m (.readBusy true) ++ [.readBusy false] := by
    rw [← h, List.filter_append, List.filter_append, hh, ht, waitEvents, List.filter_append, filter_sample_heldEvents]
    simp [Event.sample]
  have hheld : (pre ++ rest).countP Event.held = m := by
    rw [← h, List.countP_append, List.countP_append, hh.held, ht.held, waitEvents, List.countP_append, countP_heldEvents]
    simp [Event.held]
  rw [List.filter_append] at hfil
  rw [List.countP_append] at hheld
  refine ⟨fun k hk => ha k hk, fun k e he => ?_, fun hpos k hk => ?_⟩
  · obtain ⟨hl, hke⟩ := List.getElem?_eq_some_iff.1 he
    have hb := hb (by rw [List.countP_eq_length_filter]; omega)
    have he' : (List.replicate m (Event.readBusy true) ++ [.readBusy false])[k]? = some e := by
      rw [← hfil, List.getElem?_append_left hl, he]
    by_cases hkm : k < m
    · rw [List.getElem?_append_left (by simpa using hkm), List.getElem?_replicate, if_pos hkm] at he'
      cases he'
      exact hb.1.1 k hkm
    · rw [List.getElem?_append_right (by simpa using hkm)] at he'
      simp only [List.length_replicate] at he'
      obtain rfl : k = m := by
        by_contra hne
        obtain ⟨j, hj⟩ := Nat.exists_eq_succ_of_ne_zero (show k - m ≠ 0 by omega)
        rw [hj] at he'; simp at he'
      simp at he'
      subst he'
      exact hb.1.2
  · have : 0 < pre.countP Event.sample := by
      rw [List.countP_pos_iff] at hpos ⊢
      obtain ⟨e, h1, h2⟩ := hpos
      exact ⟨e, h1, Event.sample_of_held h2⟩
    have := (hb this).2 k hk
    omega

/-- Either every action of a plan is answered ok, or one is the first that is answered fail. -/
theorem first_failure (es : List Event) : ∀ (s : State), (∀ k, k < es.countP Event.fallible → s.ackAt k = true) ∨ 
    ∃ pre e post, es = pre ++ e :: post ∧ e.fallible = true ∧ AcksOk s (pre.countP Event.fallible) ∧ s.ackAt (pre.countP Event.fallible) = false := by
  induction es using List.reverseRecOn with
  | nil => intro s; left; simp
  | append_singleton es e ih =>
    intro s
    rcases ih s with h | ⟨pre, e', post, rfl, h1, h2, h3⟩
    · by_cases he : e.fallible = true
      · by_cases hk : s.ackAt (es.countP Event.fallible) = true
        · left
          intro k hk'
          rw [List.countP_append] at hk'
          simp [he] at hk'
          rcases Nat.lt_or_ge k (es.countP Event.fallible) with h' | h'
          · exact h k h'
          · have : k = es.countP Event.fallible := by omega
            rw [this]; exact hk
        · right; exact ⟨es, e, [], rfl, he, h, by simpa using hk⟩
      · left; intro k hk; rw [List.countP_append] at hk; simp [he] at hk; exact h k hk
    · right; exact ⟨pre, e', post ++ [e], by simp, h1, h2, h3⟩

end Sys2Proof.Machine
end

