-- ==== Sys2Proof/Laws/Events.lean ====
section
/-!
SUPPORT. What one event of a running sequence leaves for the next: one event in the trace, the place in the sequence, the
line selected for the byte that comes, and every byte behind its selection.
-/

namespace Sys2Proof.Machine

/-- STEP points at a primitive, at one of its events, and a stream has a byte left. -/
def State.Placed (s : State) : Prop :=
  s.seq ≠ .none → ∃ p, s.current = some p ∧ s.phase < p.phases ∧ ∀ n, p.streamLength = some n → s.streamIdx < n

/-- Within a byte transfer the line has just been selected for it. -/
def State.Selected (s : State) : Prop :=
  ∀ p d, s.current = some p → p.selects = some d → s.phase = 1 → s.trace.head? = some (.setControl d true)

theorem State.Selected.of_phase {s : State} (h : s.phase ≠ 1) : s.Selected := fun _ _ _ _ hp => absurd hp h

theorem State.Placed.of_none {s : State} (h : s.seq = .none) : s.Placed := fun hn => absurd h hn

theorem State.Selected.of_none {s : State} (h : s.seq = .none) : s.Selected := fun p d hc => by
  simp [State.current, h, SeqId.prims] at hc

theorem bytesSelected_cons {e : Event} {es : List Event} (he : e.isWrite = false) :
    bytesSelected (e :: es) = bytesSelected es := by
  cases e <;> first | rfl | cases he

theorem bytesSelected_write {b : Byte} {ok d : Bool} {es : List Event} (h : bytesSelected es = true)
    (hd : es.head? = some (.setControl d true)) : bytesSelected (.write b ok :: es) = true := by
  cases es with
  | nil => cases hd
  | cons e es =>
    simp only [List.head?_cons, Option.some.injEq] at hd
    subst hd
    simpa [bytesSelected] using h

/-- What one event of a running sequence leaves for the next. -/
structure EventLeaves (s t : State) : Prop where
  event : ∃ e, t.trace = e :: s.trace
  placed : t.Placed
  selected : t.Selected
  transfers : bytesSelected s.trace = true → bytesSelected t.trace = true

/-- An event that ends its primitive. -/
theorem EventLeaves.ending {s u : State} (hb : u.portBusy = true) (hq : u.seq ≠ .none) (e : Event)
    (ht : u.trace = e :: s.trace) (hw : bytesSelected s.trace = true → bytesSelected u.trace = true) :
    EventLeaves s u.endPrim := by
  refine ⟨⟨e, by simpa using ht⟩, ?_, ?_, by simpa using hw⟩
  · rcases (u.endPrim_after hb hq 0).1 with ⟨hr, _⟩ | ⟨_, hn, _⟩
    · exact fun _ => hr.position
    · exact .of_none hn
  · refine .of_phase ?_
    unfold State.endPrim
    split <;> simp

/-- An action that fails ends the sequence. -/
theorem EventLeaves.act {s : State} {e : Bool → Event} {next : State → State}
    (hw : ∀ ok, bytesSelected s.trace = true → bytesSelected (e ok :: s.trace) = true)
    (hn : EventLeaves s (next (s.log (e true)).takeAck)) : EventLeaves s (s.act e next) := by
  cases ha : s.ackAt 0
  · rw [State.act_fail ha]
    exact ⟨⟨e false, by simp⟩, .of_none rfl, .of_none rfl, by simpa using hw false⟩
  · rw [State.act_ok ha]; exact hn

/-- A byte transfer. -/
theorem EventLeaves.send {s : State} {d : Bool} {b : Byte} {done : State → State} {p : Primitive}
    (hr : Running s) (hc : s.current = some p) (hs : p.selects = some d) (hp2 : p.phases = 2) (hsel : s.Selected)
    (hd : bytesSelected (Event.write b true :: s.trace) = true ∨ bytesSelected s.trace = false → EventLeaves s (done (s.log (.write b true)).takeAck)) :
    EventLeaves s (s.doSend d b done) := by
  obtain ⟨p', hc', hph, hst⟩ := hr.position
  obtain rfl : p' = p := by rw [hc] at hc'; exact (Option.some.inj hc').symm
  unfold State.doSend
  split
  next h0 =>
    refine .act (fun ok h => h) ⟨⟨_, rfl⟩, fun _ => ⟨p', hc, ?_, hst⟩, ?_, fun h => h⟩
    · simp [h0, hp2]
    · intro q d' hq hd' _
      obtain rfl : q = p' := by
        have : (s.log (.setControl d true)).takeAck.nextPhase.current = s.current := rfl
        rw [this, hc] at hq; exact (Option.some.inj hq).symm
      rw [hs] at hd'; cases hd'; rfl
  next h0 =>
    have h1 : s.phase = 1 := by
      have : s.phase ≠ 0 := h0
      omega
    have := hsel p' d hc hs h1
    refine .act (fun ok h => bytesSelected_write h this) (hd ?_)
    by_cases h : bytesSelected s.trace = true
    · exact .inl (bytesSelected_write h this)
    · exact .inr (by simpa using h)

theorem EventLeaves.stream {s : State} {n : Nat} {b : Byte} {p : Primitive}
    (hr : Running s) (hc : s.current = some p) (hs : p.selects = some true) (hp2 : p.phases = 2) (hl : p.streamLength = some n) (hsel : s.Selected) :
    EventLeaves s (s.doStream n b) := by
  obtain ⟨p', hc', hph, hst⟩ := hr.position
  obtain rfl : p' = p := by rw [hc] at hc'; exact (Option.some.inj hc').symm
  rw [State.doStream, if_pos (hst n hl)]
  refine .send hr hc hs hp2 hsel fun hw => ?_
  have hw' : bytesSelected s.trace = true → bytesSelected (Event.write b true :: s.trace) = true := by
    intro h; rcases hw with h' | h'
    · exact h'
    · simp [h] at h'
  unfold State.endByte
  split
  next hlt =>
    refine ⟨⟨_, rfl⟩, fun _ => ⟨p', hc, by simp [hp2], fun k hk => ?_⟩, .of_phase (by simp), hw'⟩
    rw [hl] at hk; cases hk; exact hlt
  next => exact .ending (u := { (s.log (.write b true)).takeAck with streamIdx := s.streamIdx + 1 }) hr.busy hr.seq _ rfl hw'

theorem State.sequence_leaves {s : State} (hr : Running s) (hsel : s.Selected) : EventLeaves s s.sequence := by
  obtain ⟨p, hc, hph, hst⟩ := hr.position
  have hseq : s.sequence = s.doPrim p := by rw [State.sequence, hc]
  rw [hseq]
  have sending : ∀ b, (bytesSelected (Event.write b true :: s.trace) = true ∨ bytesSelected s.trace = false) →
      EventLeaves s (s.log (.write b true)).takeAck.endPrim := fun b hw =>
    .ending hr.busy hr.seq _ rfl fun h => by rcases hw with h' | h'; exact h'; simp [h] at h'
  cases p with
  | reset =>
    simp only [Primitive.phases] at hph
    simp only [State.doPrim, State.doReset]
    have step : ∀ e : Event, e.isWrite = false → s.phase + 1 < 4 → ∀ t : State, t.trace = e :: s.trace → t.current = s.current →
        t.phase = s.phase + 1 → EventLeaves s t := by
      intro e he h4 t ht hct hpt
      refine ⟨⟨e, ht⟩, fun _ => ⟨.reset, hct.trans hc, by simp [hpt, Primitive.phases]; omega, by simp [Primitive.streamLength]⟩, ?_, ?_⟩
      · intro q d hq hd; rw [hct, hc] at hq; cases hq; simp [Primitive.selects] at hd
      · rw [ht, bytesSelected_cons he]; exact id
    split
    next h => exact .act (fun _ h => h) (step _ rfl (by omega) _ rfl rfl rfl)
    next h => exact step _ rfl (by omega) _ rfl rfl rfl
    next h => exact .act (fun _ h => h) (step _ rfl (by omega) _ rfl rfl rfl)
    next => exact .ending hr.busy hr.seq _ rfl fun h => h
  | sendCmd c => exact .send hr hc rfl rfl hsel (sending c)
  | sendData d => exact .send hr hc rfl rfl hsel (sending d)
  | sendDataFill v n => exact .stream hr hc rfl rfl rfl hsel
  | sendDataFb => exact .stream hr hc rfl rfl rfl hsel
  | delay d => exact .ending hr.busy hr.seq _ rfl fun h => h
  | waitBusy =>
    simp only [State.doPrim, State.doWaitBusy]
    have inside : ∀ e : Event, e.isWrite = false → ∀ t : State, t.trace = e :: s.trace → t.current = s.current → t.phase < 2 →
        EventLeaves s t := by
      intro e he t ht hct hpt
      refine ⟨⟨e, ht⟩, fun _ => ⟨.waitBusy, hct.trans hc, hpt, by simp [Primitive.streamLength]⟩, ?_, ?_⟩
      · intro q d hq hd; rw [hct, hc] at hq; cases hq; simp [Primitive.selects] at hd
      · rw [ht, bytesSelected_cons he]; exact id
    split
    next h0 =>
      simp only [State.samplePoll]
      split
      · split
        · exact ⟨⟨_, rfl⟩, .of_none rfl, .of_none rfl, fun h => h⟩
        · exact inside _ rfl _ rfl rfl (by simp [h0])
      · exact .ending (u := { (s.log (.readBusy (s.busyAt 0))).takeBusy with pollCount := s.pollCount + 1 }) hr.busy hr.seq _ rfl fun h => h
    next => exact inside (.delay .poll) rfl _ rfl rfl (by simp)

theorem State.Inv.running {s : State} (h : s.Inv) (hb : s.portBusy = true) : Running s :=
  ⟨hb, h.busy.1 hb, h.position (h.busy.1 hb)⟩

end Sys2Proof.Machine
end

