-- ==== Sys2Proof/Laws/Memory.lean ====
section
/-!
SUPPORT. The framebuffer store: every memory operation keeps the canonical form, and what reads answer after writes.
-/

namespace Sys2Proof.Machine

/-- A cell below every listed address is not listed. -/
theorem Memory.read_below {m : Memory} {a : Nat} (h : ∀ c ∈ m, a < c.1) : m.read a = Memory.unlisted := by
  induction m with
  | nil => rfl
  | cons c rest ih =>
    obtain ⟨k, v⟩ := c
    have hk : a < k := h (k, v) (by simp)
    rw [Memory.read, if_neg (by omega)]
    exact ih fun c hc => h c (by simp [hc])

/-- Every listed address of a written store was listed or is the one written. -/
theorem Memory.mem_write {m : Memory} {a : Nat} {v : Byte} {c : Host.Cell} (h : c ∈ m.write a v) :
    c ∈ m ∨ (c = (a, v) ∧ v ≠ Memory.unlisted) := by
  induction m with
  | nil =>
    simp only [Memory.write] at h
    split at h <;> simp_all
  | cons d rest ih =>
    obtain ⟨k, u⟩ := d
    simp only [Memory.write] at h
    split at h
    · split at h
      · exact .inl h
      · rcases List.mem_cons.1 h with rfl | h
        · exact .inr ⟨rfl, by assumption⟩
        · exact .inl h
    · split at h
      · split at h
        · exact .inl (List.mem_cons_of_mem _ h)
        · rcases List.mem_cons.1 h with rfl | h
          · exact .inr ⟨rfl, by assumption⟩
          · exact .inl (List.mem_cons_of_mem _ h)
      · rcases List.mem_cons.1 h with rfl | h
        · simp
        · rcases ih h with h | h
          · exact .inl (List.mem_cons_of_mem _ h)
          · exact .inr h

/-- A write to a cell of the store keeps the canonical form. -/
theorem Memory.wf_write {m : Memory} (h : m.wf) {a : Nat} (ha : a < Config.cells) (v : Byte) : (m.write a v).wf := by
  obtain ⟨hs, hm⟩ := h
  refine ⟨?_, fun c hc => ?_⟩
  · clear hm
    induction m with
    | nil => simp only [Memory.write]; split <;> simp
    | cons d rest ih =>
      obtain ⟨k, u⟩ := d
      obtain ⟨hk, hr⟩ := List.pairwise_cons.1 hs
      simp only [Memory.write]
      split
      · split
        · exact hs
        · refine List.pairwise_cons.2 ⟨fun c hc => ?_, hs⟩
          rcases List.mem_cons.1 hc with rfl | hc
          · assumption
          · have := hk c hc
            simp only at this ⊢
            omega
      · split
        · subst_vars
          split
          · exact hr
          · exact List.pairwise_cons.2 ⟨hk, hr⟩
        · refine List.pairwise_cons.2 ⟨fun c hc => ?_, ih hr⟩
          rcases Memory.mem_write hc with hc | ⟨rfl, _⟩
          · exact hk c hc
          · simp only
            omega
  · rcases Memory.mem_write hc with hc | ⟨rfl, hv⟩
    · exact hm c hc
    · exact ⟨ha, hv⟩

/-- A fill keeps the canonical form. -/
theorem Memory.wf_fill (v : Byte) : (Memory.fill v).wf := by
  unfold Memory.fill
  split
  · exact ⟨List.Pairwise.nil, by simp⟩
  · refine ⟨?_, fun c hc => ?_⟩
    · rw [List.pairwise_map]
      exact List.pairwise_lt_range
    · simp only [List.mem_map, List.mem_range] at hc
      obtain ⟨a, ha, rfl⟩ := hc
      exact ⟨ha, by assumption⟩

/-- What a read answers after a write: the value written, or what was there before. -/
theorem Memory.read_write {m : Memory} (h : m.wf) (a b : Nat) (v : Byte) :
    (m.write a v).read b = if b = a then v else m.read b := by
  obtain ⟨hs, -⟩ := h
  induction m with
  | nil =>
    simp only [Memory.write]
    split <;> simp_all [Memory.read, eq_comm]
  | cons d rest ih =>
    obtain ⟨k, u⟩ := d
    obtain ⟨hk, hr⟩ := List.pairwise_cons.1 hs
    have hbelow : ∀ e, e ≤ k → Memory.read rest e = Memory.unlisted := fun e he =>
      Memory.read_below fun c hc => lt_of_le_of_lt he (hk c hc)
    simp only [Memory.write]
    split
    · split
      · have := hbelow a (by omega)
        by_cases hb : b = a
        · subst hb
          rw [Memory.read, if_neg (by omega), this, if_pos rfl]
          simp_all
        · rw [if_neg hb]
      · by_cases hb : b = a
        · simp [Memory.read, hb]
        · rw [Memory.read, if_neg (fun h => hb h.symm), if_neg hb]
    · split
      · subst_vars
        split
        · by_cases hb : b = k
          · subst hb
            rw [hbelow b (le_refl b), if_pos rfl]
            simp_all
          · rw [if_neg hb, Memory.read, if_neg (fun h => hb h.symm)]
        · by_cases hb : b = k
          · simp [Memory.read, hb]
          · rw [Memory.read, if_neg (fun h => hb h.symm), if_neg hb, Memory.read, if_neg (fun h => hb h.symm)]
      · by_cases hb : b = k
        · subst hb
          rw [Memory.read, if_pos rfl, if_neg (by omega), Memory.read, if_pos rfl]
        · have hb' : ¬k = b := fun h => hb h.symm
          rw [Memory.read, if_neg hb', ih hr, Memory.read, if_neg hb']

/-- Every cell of the store reads the fill value. -/
theorem Memory.read_fill (v : Byte) {a : Nat} (ha : a < Config.cells) : (Memory.fill v).read a = v := by
  have key : ∀ l : List Nat, a ∈ l → Memory.read (l.map fun a => (a, v)) a = v := by
    intro l hl
    induction l with
    | nil => simp at hl
    | cons k rest ih =>
      rw [List.map_cons, Memory.read]
      split
      · rfl
      · exact ih ((List.mem_cons.1 hl).resolve_left (by omega))
  unfold Memory.fill
  split
  · simp_all [Memory.read]
  · exact key _ (List.mem_range.2 ha)

/-- A cell that does not exist reads the unlisted value. -/
theorem Memory.read_outside {m : Memory} (h : m.wf) {a : Nat} (ha : Config.cells ≤ a) : m.read a = Memory.unlisted := by
  obtain ⟨-, hm⟩ := h
  induction m with
  | nil => rfl
  | cons d rest ih =>
    obtain ⟨k, u⟩ := d
    have := (hm (k, u) (by simp)).1
    rw [Memory.read, if_neg (by simp only at this; omega)]
    exact ih fun c hc => hm c (by simp [hc])

/-- A listed cell reads its listed value. -/
theorem Memory.read_of_mem {m : Memory} (h : m.wf) {a : Nat} {v : Byte} (hc : (a, v) ∈ m) : m.read a = v := by
  obtain ⟨hs, -⟩ := h
  induction m with
  | nil => simp at hc
  | cons d rest ih =>
    obtain ⟨k, u⟩ := d
    obtain ⟨hk, hr⟩ := List.pairwise_cons.1 hs
    rcases List.mem_cons.1 hc with heq | hc
    · cases heq
      rw [Memory.read, if_pos rfl]
    · have := hk _ hc
      rw [Memory.read, if_neg (by simp only at this; omega)]
      exact ih hc hr

/-- A cell that reads something else than the unlisted value is listed. -/
theorem Memory.mem_of_read {m : Memory} {a : Nat} (h : m.read a ≠ Memory.unlisted) : (a, m.read a) ∈ m := by
  induction m with
  | nil => simp [Memory.read] at h
  | cons d rest ih =>
    obtain ⟨k, u⟩ := d
    rw [Memory.read] at h ⊢
    split at h
    · simp_all
    · simp_all

/-- Equal reads mean equal stores: the form is canonical. -/
theorem Memory.ext_of_read {m n : Memory} (hm : m.wf) (hn : n.wf) (h : ∀ a, m.read a = n.read a) : m = n := by
  have sub : ∀ {p q : Memory}, p.wf → q.wf → (∀ a, p.read a = q.read a) → ∀ c ∈ p, c ∈ q := by
    rintro p q hp hq hpq ⟨a, v⟩ hc
    have hv := Memory.read_of_mem hp hc
    have hne := (hp.2 _ hc).2
    simp only at hne
    rw [hpq] at hv
    exact hv ▸ Memory.mem_of_read (hv ▸ hne)
  have antisymm : ∀ c d : Host.Cell, c ∈ m → d ∈ n → c.1 < d.1 → d.1 < c.1 → c = d := fun c d _ _ h h' => absurd h (by omega)
  refine List.Perm.eq_of_pairwise antisymm hm.1 hn.1 ?_
  refine (List.perm_ext_iff_of_nodup ?_ ?_).2 fun c => ⟨sub hm hn h c, sub hn hm (fun a => (h a).symm) c⟩
  · exact hm.1.imp fun h => by rintro rfl; exact absurd h (lt_irrefl _)
  · exact hn.1.imp fun h => by rintro rfl; exact absurd h (lt_irrefl _)

/-- Writing what a cell holds changes nothing. -/
theorem Memory.write_read {m : Memory} (h : m.wf) {a : Nat} (ha : a < Config.cells) : m.write a (m.read a) = m :=
  Memory.ext_of_read (Memory.wf_write h ha _) h fun b => by
    rw [Memory.read_write h]
    split
    · subst_vars; rfl
    · rfl

end Sys2Proof.Machine
end

