-- ==== Sys2Proof/Laws/PerInstr.lean ====
section
/-!
SUPPORT. Statements made per instruction. TableRow: the encoded word of a command matches its row of
spec/opcode_table.json (R62).
-/

namespace Sys2Proof.Laws.TableRow

/-- The word of a command, under its row's mask, is its row's match. -/
def Statement (i : Instr) : Prop := encode i &&& i.opcode.tableMask = i.opcode.tableMatch

/-- A word packed for an opcode, under its row's mask, is the row's match when the mask meets only zero operand bits. -/
theorem packWord_row (op : Opcode) (ma : BitVec 8) (mx my : BitVec 16)
    (hm : op.tableMask = 0xFF#8 ++ ma ++ 0xFFFF#16 ++ mx ++ my) (hr : op.tableMatch = packWord op.code 0 0 0)
    {a : BitVec 8} {x y : BitVec 16} (ha : a &&& ma = 0) (hx : x &&& mx = 0) (hy : y &&& my = 0) :
    packWord op.code a x y &&& op.tableMask = op.tableMatch := by
  have hc : op.code &&& 0xFF#8 = op.code := by cases op <;> rfl
  rw [hm, packWord_and, hc, ha, hx, hy, hr]

theorem initializePanel : Statement .initializePanel := by unfold Statement; decide
theorem update : Statement .update := by unfold Statement; decide
theorem sleep : Statement .sleep := by unfold Statement; decide
theorem readStatus : Statement .readStatus := by unfold Statement; decide

theorem setOrientation (o : Orientation) : Statement (.setOrientation o) := by unfold Statement; cases o <;> decide

theorem setPage (p : Int) : Statement (.setPage p) :=
  packWord_row .setPage 0xFF 0xFFFF 0 (by decide) (by decide) BitVec.zero_and BitVec.zero_and BitVec.and_zero

theorem clear (value : Byte) : Statement (.clear value) :=
  packWord_row .clear 0 0xFFFF 0xFFFF (by decide) (by decide) BitVec.and_zero BitVec.zero_and BitVec.zero_and

theorem drawPixel (x y : Int) (color : Byte) : Statement (.drawPixel x y color) :=
  packWord_row .drawPixel 0 0 0 (by decide) (by decide) BitVec.and_zero BitVec.and_zero BitVec.and_zero

theorem rawWrite (x y : Nat) (color : Byte) : Statement (.rawWrite x y color) :=
  packWord_row .rawWrite 0 0 0 (by decide) (by decide) BitVec.and_zero BitVec.and_zero BitVec.and_zero

theorem getPixel (x y : Int) : Statement (.getPixel x y) :=
  packWord_row .getPixel 0xFF 0 0 (by decide) (by decide) BitVec.zero_and BitVec.and_zero BitVec.and_zero

theorem readCell (addr : Nat) : Statement (.readCell addr) :=
  packWord_row .readCell 0xFF 0xFFFF 0 (by decide) (by decide) BitVec.zero_and BitVec.zero_and BitVec.and_zero

end Sys2Proof.Laws.TableRow
end

