-- ==== Sys2Proof/Laws/Pixels.lean ====
section
/-!
SUPPORT. The pixel pipeline as equations over the integers, and what a pixel write and a pixel read do.
-/

namespace Sys2Proof.Machine

theorem pixelAddr_some {a xp : Int} {p : PixelAddr} (ha : 0 ≤ a) (hx : 0 ≤ xp) :
    pixelAddr a xp = some p ↔ (p.cell.val : Int) = a ∧ (p.bit.val : Int) = 7 - xp % 8 := by
  unfold pixelAddr
  split
  next h =>
    rw [Option.some.injEq]
    constructor
    · rintro rfl
      constructor <;> simp <;> omega
    · rintro ⟨h1, h2⟩
      obtain ⟨⟨c, hc⟩, ⟨b, hb⟩⟩ := p
      simp only [PixelAddr.mk.injEq, Fin.mk.injEq] at *
      omega
  next h =>
    simp only [reduceCtorEq, false_iff]
    rintro ⟨h1, -⟩
    have := p.cell.isLt
    omega

theorem cellStage_some {xp yp : Int} {p : PixelAddr} (hy : 0 ≤ yp) :
    cellStage xp yp = some p ↔
      0 ≤ xp ∧ (p.cell.val : Int) = xp / 8 + yp * 13 ∧ (p.bit.val : Int) = 7 - xp % 8 := by
  unfold cellStage
  split
  · simp; omega
  · rw [pixelAddr_some (by omega) (by omega)]; simp; omega

theorem pageTransform_some {page : BitVec 16} {yo yp : Int} :
    pageTransform page yo = some yp ↔
      (page.toInt < 1 ∧ yp = yo) ∨ (1 ≤ page.toInt ∧ yp = yo - page.toInt * 212 ∧ 0 ≤ yp ∧ yp < 212) := by
  unfold pageTransform sext16
  split
  · split
    · rw [Option.some.injEq]; omega
    · simp; omega
  · rw [Option.some.injEq]; omega

/-- After stage 2 a row of an in-range coordinate is a physical row (R65). -/
theorem orientTransform_row {o : Orientation} {x y : Int} (h : InLogicalBounds x y) :
    0 ≤ (orientTransform o x y).2 ∧ (orientTransform o x y).2 < 212 := by
  obtain ⟨_, _, _, _⟩ := h
  cases o <;> simp only [orientTransform] <;> omega

theorem pixelTarget_some {o : Orientation} {page : BitVec 16} {x y : Int} {p : PixelAddr} :
    pixelTarget o page x y = some p ↔ InLogicalBounds x y ∧
      ∃ yp, pageTransform page (orientTransform o x y).2 = some yp ∧ 0 ≤ (orientTransform o x y).1 ∧
        (p.cell.val : Int) = (orientTransform o x y).1 / 8 + yp * 13 ∧
        (p.bit.val : Int) = 7 - (orientTransform o x y).1 % 8 := by
  unfold pixelTarget
  split
  next hb =>
    rw [and_iff_right hb, Option.bind_eq_some_iff]
    refine exists_congr fun yp => and_congr_right fun hp => cellStage_some ?_
    rcases pageTransform_some.1 hp with ⟨-, rfl⟩ | ⟨-, -, h, -⟩
    · exact (orientTransform_row hb).1
    · exact h
  next hb => simp [hb]

/-- With paging off the pipeline is the orientation transform, the x sign and the address. -/
theorem pixelTarget_unpaged {o : Orientation} {page : BitVec 16} {x y : Int} {p : PixelAddr} (hp : page.toInt < 1) :
    pixelTarget o page x y = some p ↔ InLogicalBounds x y ∧ 0 ≤ (orientTransform o x y).1 ∧
      (p.cell.val : Int) = (orientTransform o x y).1 / 8 + (orientTransform o x y).2 * 13 ∧
      (p.bit.val : Int) = 7 - (orientTransform o x y).1 % 8 := by
  have : pageTransform page (orientTransform o x y).2 = some (orientTransform o x y).2 :=
    pageTransform_some.2 (.inl ⟨hp, rfl⟩)
  simp [pixelTarget_some, this]

theorem pixelTarget_none {o : Orientation} {page : BitVec 16} {x y : Int} :
    pixelTarget o page x y = none ↔ ∀ p, pixelTarget o page x y ≠ some p := Option.eq_none_iff_forall_ne_some

/-- RAW_WRITE's address inside the panel (R74). -/
theorem rawTarget_some {x y : Nat} {p : PixelAddr} :
    rawTarget x y = some p ↔ x < 104 ∧ y < 212 ∧ p.cell.val = x / 8 + y * 13 ∧ p.bit.val = 7 - x % 8 := by
  unfold rawTarget
  split
  · simp; omega
  · rw [pixelAddr_some (by omega) (by omega)]; omega

theorem rawTarget_none {x y : Nat} : rawTarget x y = none ↔ 104 ≤ x ∨ 212 ≤ y := by
  unfold rawTarget
  split
  next h => simpa using h
  next h =>
    simp only [pixelAddr, h, iff_false]
    rw [dif_pos (by have : x < 104 ∧ y < 212 := by omega
                    simp only [Config.cells]; omega)]
    simp

/-- One bit of a painted cell (R69). -/
theorem paintBit_getLsbD (old : Byte) (b : Fin 8) (color : Byte) {k : Nat} (hk : k < 8) :
    (paintBit old b color).getLsbD k = if k = b.val then decide (color = 0) else old.getLsbD k := by
  unfold paintBit
  obtain ⟨b, hb⟩ := b
  by_cases hc : color = 0
  · rw [if_pos hc]
    by_cases hkb : k = b
    · subst hkb; simp [hc, hk]
    · rw [if_neg (by simpa using hkb)]
      have : ¬(b ≤ k ∧ k - b = 0) := by omega
      simp [hk]
      intro h1 h2
      omega
  · rw [if_neg hc]
    by_cases hkb : k = b
    · subst hkb
      have hc' : ¬color = 0#8 := hc
      simp [hk, hc']
    · rw [if_neg (by simpa using hkb)]
      simp [hk]
      intro _
      omega

/-- A pixel write in any state with a canonical framebuffer (R69). -/
theorem State.writeBit_pixelWritten {s : State} (hm : s.fb.wf) (p : PixelAddr) (color : Byte) :
    PixelWritten s (s.writeBit p color) p color := by
  refine ⟨fun a ha => ?_, fun b hb => ?_⟩
  · simp only [State.writeBit]
    rw [Memory.read_write hm, if_neg (by tauto)]
  · simp only [State.writeBit]
    rw [Memory.read_write hm, if_pos (by simp)]
    exact paintBit_getLsbD _ _ _ hb

end Sys2Proof.Machine
end

