-- ==== Sys2Proof/Laws/Repeat.lean ====
section
/-!
SUPPORT. What a sequence does with its own counters depends on the parameters, the framebuffer and the answers alone: two
runs of one sequence that are answered alike leave the sequencer alike, and only SEND_DATA_FB reads the framebuffer.
-/

namespace Sys2Proof.Machine

/-- Everything a sequence reads but the transport's answers. -/
structure Alike (s t : State) : Prop where
  seq : t.seq = s.seq
  stepIdx : t.stepIdx = s.stepIdx
  streamIdx : t.streamIdx = s.streamIdx
  pollCount : t.pollCount = s.pollCount
  phase : t.phase = s.phase
  params : t.params = s.params
  fb : t.fb = s.fb

theorem Alike.current {s t : State} (h : Alike s t) : t.current = s.current := by
  simp [State.current, h.seq, h.params, h.stepIdx]

theorem Alike.planRest {s t : State} (h : Alike s t) (m : Nat) : planRest t m = planRest s m := by
  simp only [Machine.planRest, h.current, laterEvents, h.seq, h.params, h.stepIdx, h.fb]
  cases s.current with
  | none => rfl
  | some p => cases p <;> simp only [primRest, h.phase, h.streamIdx, h.fb]

theorem Alike.endPrim {s t : State} (h : Alike s t) : Alike s.endPrim t.endPrim := by
  unfold State.endPrim
  rw [h.seq, h.params, h.stepIdx]
  split
  next p _ =>
    cases p <;>
      exact ⟨by simp [State.enterPrim], by simp [State.enterPrim], by simp [State.enterPrim, h.streamIdx],
        by simp [State.enterPrim, h.pollCount], by simp [State.enterPrim], by simp [State.enterPrim],
        by simp [State.enterPrim, h.fb]⟩
  next => exact ⟨rfl, rfl, h.streamIdx, h.pollCount, rfl, rfl, h.fb⟩

/-- The sequence did not fail in this event. -/
def Unfailed (s t : State) : Prop := t.responses ≠ responseWord .transportFailure 0 :: s.responses

theorem Alike.act {s t : State} {e : Bool → Event} {next : State → State} (hs : Unfailed s (s.act e next))
    (ht : Unfailed t (t.act e next)) (hn : Alike (next (s.log (e true)).takeAck) (next (t.log (e true)).takeAck)) :
    Alike (s.act e next) (t.act e next) := by
  have ok : ∀ u : State, Unfailed u (u.act e next) → u.ackAt 0 = true := by
    intro u hu
    by_contra h
    rw [State.act_fail (by simpa using h)] at hu
    exact hu (by simp)
  rw [State.act_ok (ok s hs), State.act_ok (ok t ht)]
  exact hn

theorem Alike.send {s t : State} {d : Bool} {b : Byte} {done : State → State} (h : Alike s t)
    (hs : Unfailed s (s.doSend d b done)) (ht : Unfailed t (t.doSend d b done))
    (hd : Alike (done (s.log (.write b true)).takeAck) (done (t.log (.write b true)).takeAck)) :
    Alike (s.doSend d b done) (t.doSend d b done) := by
  unfold State.doSend at *
  rw [h.phase] at ht ⊢
  cases hp : s.phase with
  | zero =>
    rw [hp] at hs ht
    exact .act hs ht ⟨h.seq, h.stepIdx, h.streamIdx, h.pollCount, by simp [h.phase], h.params, h.fb⟩
  | succ k =>
    rw [hp] at hs ht
    exact .act hs ht hd

theorem Alike.stream {s t : State} {n : Nat} {b : Byte} (h : Alike s t) (hs : Unfailed s (s.doStream n b))
    (ht : Unfailed t (t.doStream n b)) : Alike (s.doStream n b) (t.doStream n b) := by
  unfold State.doStream at *
  rw [h.streamIdx] at ht ⊢
  by_cases hi : s.streamIdx < n
  · rw [if_pos hi] at hs ht ⊢
    rw [if_pos hi]
    refine .send h hs ht ?_
    by_cases hl : s.streamIdx + 1 < n
    · rw [State.endByte_more (by exact hl), State.endByte_more (by simpa [h.streamIdx] using hl)]
      exact ⟨h.seq, h.stepIdx, by simp [h.streamIdx], h.pollCount, rfl, h.params, h.fb⟩
    · rw [State.endByte_last (by exact hl), State.endByte_last (by simpa [h.streamIdx] using hl)]
      exact Alike.endPrim ⟨h.seq, h.stepIdx, by simp [h.streamIdx], h.pollCount, h.phase, h.params, h.fb⟩
  · rw [if_neg hi, if_neg hi]
    exact h.endPrim

/-- One event of two runs that stand alike and are answered alike. -/
theorem Alike.sequence {s t : State} (h : Alike s t) (hs : Unfailed s s.sequence) (ht : Unfailed t t.sequence)
    (hb : s.current = some .waitBusy → s.phase = 0 → t.busyAt 0 = s.busyAt 0) : Alike s.sequence t.sequence := by
  have done : ∀ b, Alike (s.log (.write b true)).takeAck.endPrim (t.log (.write b true)).takeAck.endPrim :=
    fun b => Alike.endPrim ⟨h.seq, h.stepIdx, h.streamIdx, h.pollCount, h.phase, h.params, h.fb⟩
  have paused : ∀ p, Alike (s.pause p).endPrim (t.pause p).endPrim :=
    fun p => Alike.endPrim ⟨h.seq, h.stepIdx, h.streamIdx, h.pollCount, h.phase, h.params, h.fb⟩
  have next : ∀ e : Event, Alike (s.log e).takeAck.nextPhase (t.log e).takeAck.nextPhase :=
    fun e => ⟨h.seq, h.stepIdx, h.streamIdx, h.pollCount, by simp [h.phase], h.params, h.fb⟩
  have hct := h.current
  unfold State.sequence at *
  cases hc : s.current with
  | none =>
    rw [hct, hc]
    exact ⟨rfl, h.stepIdx, h.streamIdx, h.pollCount, h.phase, h.params, h.fb⟩
  | some p =>
    rw [hct, hc] at ht
    rw [hc] at hs
    rw [hct, hc]
    dsimp only at hs ht ⊢
    cases p with
    | reset =>
      simp only [State.doPrim, State.doReset] at hs ht ⊢
      rw [h.phase] at ht ⊢
      rcases hp : s.phase with _ | _ | _ | k <;> rw [hp] at hs ht
      · exact .act hs ht (next _)
      · exact ⟨h.seq, h.stepIdx, h.streamIdx, h.pollCount, by simp [h.phase], h.params, h.fb⟩
      · exact .act hs ht (next _)
      · exact paused _
    | sendCmd c => exact .send h hs ht (done c)
    | sendData d => exact .send h hs ht (done d)
    | sendDataFill v n => exact .stream h hs ht
    | sendDataFb =>
      simp only [State.doPrim] at hs ht ⊢
      rw [h.fb, h.streamIdx] at ht ⊢
      exact .stream h hs ht
    | delay d => exact paused d
    | waitBusy =>
      simp only [State.doPrim, State.doWaitBusy] at hs ht ⊢
      rw [h.phase] at ht ⊢
      split
      next h0 =>
        have hbb := hb hc h0
        unfold State.samplePoll
        rw [hbb]
        have hx : ∀ b : Bool, Alike ({ (s.log (.readBusy b)).takeBusy with pollCount := s.pollCount + 1 } : State)
            ({ (t.log (.readBusy b)).takeBusy with pollCount := t.pollCount + 1 } : State) := fun b =>
          ⟨h.seq, h.stepIdx, h.streamIdx, by simp [h.pollCount], h.phase, h.params, h.fb⟩
        generalize ({ (s.log (.readBusy (s.busyAt 0))).takeBusy with pollCount := s.pollCount + 1 } : State) = s',
          ({ (t.log (.readBusy (s.busyAt 0))).takeBusy with pollCount := t.pollCount + 1 } : State) = t',
          hx (s.busyAt 0) = hh
        have he : t'.pollsExpired = s'.pollsExpired := by
          simp only [State.pollsExpired, hh.params, hh.pollCount]
        dsimp only
        rw [he]
        split
        · split
          · exact ⟨rfl, hh.stepIdx, hh.streamIdx, hh.pollCount, hh.phase, hh.params, hh.fb⟩
          · exact ⟨hh.seq, hh.stepIdx, hh.streamIdx, hh.pollCount, by simp [hh.phase], hh.params, hh.fb⟩
        · exact hh.endPrim
      next => exact ⟨h.seq, h.stepIdx, h.streamIdx, h.pollCount, rfl, h.params, h.fb⟩

/-- The next event of a WAIT_BUSY at its start is a sample. -/
theorem sample_of_wait {s : State} {m : Nat} {e : Event} {es : List Event} (hp : planRest s m = e :: es)
    (hc : s.current = some .waitBusy) (h0 : s.phase = 0) : e.sample = true := by
  rw [planRest, hc] at hp
  simp only [primRest, h0, if_pos] at hp
  cases m <;> simp only [waitEvents, heldEvents, List.replicate_zero, List.replicate_succ, List.flatten_nil,
    List.flatten_cons, List.nil_append, List.cons_append, List.cons.injEq] at hp <;> obtain ⟨rfl, -⟩ := hp <;> rfl

theorem WentWell.unfailed {s t : State} {m m' : Nat} {e : Event} {es : List Event} (h : WentWell s t m m' e es) :
    Unfailed s t := by
  rcases h.after with ⟨_, _, _, _, _, hr⟩ | ⟨_, _, _, _, hr⟩
  · intro he
    rw [hr] at he
    exact absurd (congrArg List.length he) (by simp)
  · intro he
    rw [hr] at he
    injection he with he
    exact absurd he (by decide)

/-- Two runs of the rest of a sequence, both answered as planned, leave the sequencer alike. -/
theorem run_alike (es : List Event) : ∀ {s t u v : State} {m : Nat}, Alike s t → Running s → Running t → NoReset s →
    NoReset t → planRest s m = es → Follows s es → Follows t es → runSteps es.length s = .next u →
    runSteps es.length t = .next v → Alike u v := by
  induction es with
  | nil =>
    intro s t u v m h _ _ _ _ _ _ _ hu hv
    simp only [List.length_nil, runSteps, Host.Outcome.next.injEq] at hu hv
    exact hu ▸ hv ▸ h
  | cons e es ih =>
    intro s t u v m h hs ht hns hnt hp hfs hft hu hv
    have hps : planRest s.tick m = e :: es := hp
    have hpt : planRest t.tick m = e :: es := (h.planRest m).trans hp
    have has : Answered s.tick e := hfs.head
    have hat : Answered t.tick e := hft.head
    obtain ⟨ms, ws⟩ := State.sequence_wentWell hs.tick hps has
    obtain ⟨mt, wt⟩ := State.sequence_wentWell ht.tick hpt hat
    have hm : ms = mt := by have h1 := ws.samples; have h2 := wt.samples; omega
    subst hm
    have hh : Alike s.tick t.tick := ⟨h.seq, h.stepIdx, h.streamIdx, h.pollCount, h.phase, h.params, h.fb⟩
    have ha := hh.sequence ws.unfailed wt.unfailed fun hc h0 => by
      have := sample_of_wait hps hc h0
      rw [has.2.1 this, hat.2.1 this]
    rw [List.length_cons, runSteps, step_running hs hns.strikes] at hu
    rw [List.length_cons, runSteps, step_running ht hnt.strikes] at hv
    dsimp only at hu hv
    rcases ws.after with ⟨r1, p1, n1, _⟩ | ⟨e1, _⟩
    · rcases wt.after with ⟨r2, _, _, _⟩ | ⟨e2, _⟩
      · exact ih ha r1 r2 (hns.tail (by simpa using ws.shifted.reset)) (hnt.tail (by simpa using wt.shifted.reset)) p1
          (hfs.tail ws.shifted.acks ws.shifted.levels ws.kept.params ws.polled)
          (hft.tail wt.shifted.acks wt.shifted.levels wt.kept.params wt.polled) hu hv
      · exact absurd e2 n1
    · subst e1
      simp only [List.length_nil, runSteps, Host.Outcome.next.injEq] at hu hv
      exact hu ▸ hv ▸ ha

theorem State.withFb_endPrim (s : State) (fb : Memory) : (s.withFb fb).endPrim = s.endPrim.withFb fb := by
  unfold State.endPrim
  have : ∀ (i : Option Primitive), (match i with | some p => ({ s.withFb fb with stepIdx := s.stepIdx + 1, phase := 0 } : State).enterPrim p | none => ({ s.withFb fb with stepIdx := s.stepIdx + 1, phase := 0 } : State).finishSeq) =
     State.withFb (match i with | some p => ({ s with stepIdx := s.stepIdx + 1, phase := 0 } : State).enterPrim p | none => ({ s with stepIdx := s.stepIdx + 1, phase := 0 } : State).finishSeq) fb := by
    intro i
    cases i with
    | none => rfl
    | some p => cases p <;> rfl
  exact this _

theorem State.withFb_act (s : State) (fb : Memory) (e : Bool → Event) (next : State → State) (hn : ∀ s : State, next (s.withFb fb) = (next s).withFb fb) :
    (s.withFb fb).act e next = (s.act e next).withFb fb := by
  cases h : s.ackAt 0
  · rw [State.act_fail h, State.act_fail (s := s.withFb fb) h]; rfl
  · rw [State.act_ok h, State.act_ok (s := s.withFb fb) h]; exact hn (s.log (e true)).takeAck

theorem State.withFb_doSend (s : State) (fb : Memory) (d b) : (s.withFb fb).doSend d b State.endPrim = (s.doSend d b State.endPrim).withFb fb := by
  have h : (s.withFb fb).phase = s.phase := rfl
  unfold State.doSend
  rw [h]
  split
  · exact State.withFb_act s fb _ _ fun _ => rfl
  · exact State.withFb_act s fb _ _ fun _ => State.withFb_endPrim _ _

/-- An event that sends no framebuffer byte does not depend on the framebuffer. -/
theorem State.withFb_sequence (s : State) (fb : Memory) (hne : ∀ p, s.current = some p → p ≠ .sendDataFb ∧ ∀ v n, p ≠ .sendDataFill v n) :
    (s.withFb fb).sequence = s.sequence.withFb fb := by
  have hc : (s.withFb fb).current = s.current := rfl
  have hp : (s.withFb fb).phase = s.phase := rfl
  unfold State.sequence
  rw [hc]
  cases hcur : s.current with
  | none => rfl
  | some p =>
    have := hne p hcur
    show (s.withFb fb).doPrim p = (s.doPrim p).withFb fb
    cases p with
    | sendDataFb => simp at this
    | sendDataFill v n => simp at this
    | sendCmd c => exact State.withFb_doSend _ _ _ _
    | sendData c => exact State.withFb_doSend _ _ _ _
    | delay d => exact State.withFb_endPrim (s.pause d) _
    | reset =>
      simp only [State.doPrim, State.doReset]
      rw [hp]
      split
      · exact State.withFb_act _ _ _ _ fun _ => rfl
      · rfl
      · exact State.withFb_act _ _ _ _ fun _ => rfl
      · exact State.withFb_endPrim (s.pause _) _
    | waitBusy =>
      simp only [State.doPrim, State.doWaitBusy]
      rw [hp]
      split
      · cases hb : s.busyAt 0
        · rw [State.samplePoll_released hb, State.samplePoll_released (s := s.withFb fb) hb]
          exact State.withFb_endPrim (s.sampled _) _
        · unfold State.samplePoll
          have : (s.withFb fb).busyAt 0 = s.busyAt 0 := rfl
          rw [this, hb]
          simp only [if_pos]
          split
          next hx => rw [if_pos (by exact hx)]; rfl
          next hx => rw [if_neg (by exact hx)]; rfl
      · rfl

end Sys2Proof.Machine
end

