-- ==== Sys2Proof/Laws/Responses.lean ====
section
/-!
SUPPORT. The fields of a response word (R53 to R55): what each reads as, and that a word says which STATUS and DATA it was
built from.
-/

namespace Sys2Proof.Machine

theorem responseWord_status (st : Status) (data : BitVec 28) : (responseWord st data).extractLsb' 28 4 = st.code :=
  BitVec.extractLsb'_append_eq_left

theorem responseWord_data (st : Status) (data : BitVec 28) : (responseWord st data).extractLsb' 0 28 = data :=
  BitVec.extractLsb'_append_eq_right

theorem Status.code_inj {a b : Status} (h : a.code = b.code) : a = b := by
  revert h; cases a <;> cases b <;> simp [Status.code]

theorem responseWord_inj {a b : Status} {x y : BitVec 28} (h : responseWord a x = responseWord b y) : a = b ∧ x = y := by
  refine ⟨Status.code_inj ?_, ?_⟩
  · rw [← responseWord_status a x, h, responseWord_status]
  · rw [← responseWord_data a x, h, responseWord_data]

/-- A field of DATA is the same bits of the response word. -/
theorem responseWord_field (st : Status) (data : BitVec 28) {start len : Nat} (h : start + len ≤ 28) :
    (responseWord st data).extractLsb' start len = data.extractLsb' start len := by
  apply BitVec.eq_of_getLsbD_eq
  intro k hk
  rw [BitVec.getLsbD_extractLsb', BitVec.getLsbD_extractLsb', responseWord, BitVec.getLsbD_append]
  simp [hk, show start + k < 28 by omega]

theorem statusData_page (se : Session) (o : Orientation) (p : BitVec 16) : (statusData se o p).extractLsb' 0 16 = p := by
  unfold statusData
  exact BitVec.extractLsb'_append_eq_right

theorem statusData_orient (se : Session) (o : Orientation) (p : BitVec 16) :
    (statusData se o p).extractLsb' 16 2 = o.code := by
  apply BitVec.eq_of_getLsbD_eq
  intro k hk
  rw [BitVec.getLsbD_extractLsb', statusData, BitVec.getLsbD_append, BitVec.getLsbD_append]
  simp [hk]

theorem statusData_session (se : Session) (o : Orientation) (p : BitVec 16) :
    (statusData se o p).extractLsb' 18 2 = se.code := by
  apply BitVec.eq_of_getLsbD_eq
  intro k hk
  rw [BitVec.getLsbD_extractLsb', statusData, BitVec.getLsbD_append, BitVec.getLsbD_append, BitVec.getLsbD_append]
  simp [hk, show ¬18 + k < 16 by omega, show 18 + k - 16 - 2 = k by omega, show ¬18 + k - 16 < 2 by omega]

theorem statusData_above (se : Session) (o : Orientation) (p : BitVec 16) :
    (responseWord .ok (statusData se o p)).extractLsb' 20 12 = 0#12 := by
  apply BitVec.eq_of_getLsbD_eq
  intro k hk
  rw [BitVec.getLsbD_extractLsb', responseWord, BitVec.getLsbD_append, statusData, BitVec.getLsbD_append,
    BitVec.getLsbD_append, BitVec.getLsbD_append]
  simp [Status.code, show ¬20 + k < 16 by omega, show ¬20 + k - 16 < 2 by omega, show ¬20 + k - 16 - 2 < 2 by omega]

/-- READ_CELL's answer is the cell, zero-extended (R55). -/
theorem responseWord_cell (v : Byte) : responseWord .ok (cellData v) = v.setWidth 32 := by
  apply BitVec.eq_of_getLsbD_eq
  intro k hk
  rw [responseWord, BitVec.getLsbD_append, cellData, BitVec.getLsbD_setWidth, BitVec.getLsbD_setWidth]
  by_cases h : k < 28
  · simp [h, hk]
  · have : v.getLsbD k = false := BitVec.getLsbD_of_ge _ _ (by omega)
    simp [h, Status.code, this]

end Sys2Proof.Machine
end

