-- ==== Sys2Proof/Laws/Step.lean ====
section
/-!
SUPPORT. What a step can do, said once: the cases of `step`, the cases of one event of a sequence in any state, and what
each command answers. Invariants and whole-machine rules are derived from these.
-/

namespace Sys2Proof.Machine

/-- The five things a step does when it answers a next state. -/
inductive StepCase (s t : State) : Prop
  | reset (strikes : s.resetStrikes = true) (next : t = s.tick.blockReset)
  | event (quiet : s.resetStrikes = false) (busy : s.portBusy = true) (seq : s.seq ≠ .none) (next : t = s.tick.sequence)
  | waits (quiet : s.resetStrikes = false) (idle : s.portBusy = false) (offers : s.offers = []) (next : t = s.tick)
  | illegal (quiet : s.resetStrikes = false) (idle : s.portBusy = false) (w : CommandWord) (ws : List CommandWord)
      (offers : s.offers = w :: ws) (e : DecodeError) (bad : decode w = .error e)
      (next : t = s.tick.accept.raise .illegalCommand)
  | command (quiet : s.resetStrikes = false) (idle : s.portBusy = false) (w : CommandWord) (ws : List CommandWord)
      (offers : s.offers = w :: ws) (i : Instr) (good : decode w = .ok i) (next : exec i s.tick.accept = .next t)

theorem step_cases {s t : State} (h : step s = .next t) : StepCase s t := by
  unfold step at h
  split at h
  next hr => exact .reset hr (by cases h; rfl)
  next hr =>
    have hr : s.resetStrikes = false := by simpa using hr
    split at h
    next hb =>
      unfold advance at h
      split at h
      · cases h
      next hq => exact .event hr hb hq (by cases h; rfl)
    next hb =>
      have hb : s.portBusy = false := by simpa using hb
      unfold State.offered at h
      cases ho : s.offers with
      | nil =>
        rw [ho] at h
        exact .waits hr hb ho (by cases h; rfl)
      | cons w ws =>
        rw [ho] at h
        simp only [List.head?_cons, execWord] at h
        cases hd : decode w with
        | ok i => rw [hd] at h; exact .command hr hb w ws ho i hd h
        | error e => rw [hd] at h; exact .illegal hr hb w ws ho e hd (by cases h; rfl)

/-- Every command answers a next state, from every state. -/
theorem exec_next (i : Instr) (s : State) : ∃ t, exec i s = .next t := by
  cases i <;>
    simp only [exec, execInitializePanel, execUpdate, execSleep, execReadStatus, execSetOrientation, execSetPage,
      execClear, execDrawPixel, execRawWrite, execGetPixel, execReadCell]
  all_goals repeat' split
  all_goals exact ⟨_, rfl⟩

/-- A step stops only with the port busy and no sequence in progress. -/
theorem step_next {s : State} (h : s.portBusy = true → s.seq ≠ .none) : ∃ t, step s = .next t := by
  unfold step
  split
  · exact ⟨_, rfl⟩
  · split
    next hb => exact ⟨s.tick.sequence, if_neg (h hb)⟩
    next =>
      split
      · exact ⟨_, rfl⟩
      next w _ =>
        unfold execWord
        split
        · exact exec_next _ _
        · exact ⟨_, rfl⟩

/-- How one event of a sequence leaves the command. -/
inductive EventEnd (s t : State) : Prop
  | goesOn (session : t.session = s.session) (seq : t.seq = s.seq) (responses : t.responses = s.responses)
      (busy : t.portBusy = s.portBusy) (trace : t.trace = s.trace ∨ ∃ e, e.failed = false ∧ t.trace = e :: s.trace)
  | finished (session : t.session = s.seq.sessionAfter s.session) (seq : t.seq = .none)
      (responses : t.responses = responseWord .ok 0 :: s.responses) (busy : t.portBusy = false)
      (trace : t.trace = s.trace ∨ ∃ e, e.failed = false ∧ t.trace = e :: s.trace)
  | failed (session : t.session = .uninitialized) (seq : t.seq = .none)
      (responses : t.responses = responseWord .transportFailure 0 :: s.responses) (busy : t.portBusy = false)
      (trace : ∃ e, e.failed = true ∧ t.trace = e :: s.trace)
  | timedOut (session : t.session = .uninitialized) (seq : t.seq = .none)
      (responses : t.responses = responseWord .panelTimeout 0 :: s.responses) (busy : t.portBusy = false)
      (trace : t.trace = .readBusy true :: s.trace) (waiting : s.current = some .waitBusy) (k : Nat)
      (bound : s.params.busyTimeoutPolls = some k) (reached : k ≤ s.pollCount + 1)

/-- One event of a sequence, in any state: what it keeps and how it leaves the command. -/
structure EventStep (s t : State) : Prop where
  kept : Kept s t
  reset : t.resetLine = s.resetLine
  ended : EventEnd s t

theorem State.endPrim_step (s u : State) (hu : Kept s u) (hr : u.resetLine = s.resetLine) (h1 : u.session = s.session)
    (h2 : u.seq = s.seq) (h3 : u.responses = s.responses) (h4 : u.portBusy = s.portBusy)
    (ht : u.trace = s.trace ∨ ∃ e, e.failed = false ∧ u.trace = e :: s.trace) : EventStep s u.endPrim := by
  unfold State.endPrim
  split
  · exact ⟨hu.trans ⟨by simp, by simp, by simp, by simp, by simp⟩, by simpa using hr,
      .goesOn (by simpa using h1) (by simpa using h2) (by simpa using h3) (by simpa using h4) (by simpa using ht)⟩
  · exact ⟨hu.trans ⟨by simp, by simp, by simp, by simp, by simp⟩, by simpa using hr,
      .finished (by simp [h1, h2]) (by simp) (by simp [h3]) (by simp) (by simpa using ht)⟩

theorem State.act_step (s : State) (e : Bool → Event) (h : ∀ b, (e b).failed = !b) (next : State → State)
    (hn : ∀ u, Kept s u → u.resetLine = s.resetLine → u.session = s.session → u.seq = s.seq → u.responses = s.responses →
      u.portBusy = s.portBusy → u.trace = e true :: s.trace → EventStep s (next u)) : EventStep s (s.act e next) := by
  cases ha : s.ackAt 0
  · rw [State.act_fail ha]
    exact ⟨⟨by simp, by simp, by simp, by simp, by simp⟩, by simp,
      .failed rfl rfl (by simp) rfl ⟨e false, h false, by simp⟩⟩
  · rw [State.act_ok ha]
    exact hn _ ⟨rfl, rfl, rfl, rfl, rfl⟩ rfl rfl rfl rfl rfl rfl

theorem State.doSend_step (s : State) (d : Bool) (b : Byte) (done : State → State)
    (hd : ∀ u, Kept s u → u.resetLine = s.resetLine → u.session = s.session → u.seq = s.seq → u.responses = s.responses →
      u.portBusy = s.portBusy → u.trace = .write b true :: s.trace → EventStep s (done u)) :
    EventStep s (s.doSend d b done) := by
  unfold State.doSend
  split
  · exact s.act_step _ (by simp [Event.failed]) _ fun u hu h0 h1 h2 h3 h4 h5 =>
      ⟨hu.trans ⟨rfl, rfl, rfl, rfl, rfl⟩, h0, .goesOn h1 h2 h3 h4 (.inr ⟨_, rfl, h5⟩)⟩
  · exact s.act_step _ (by simp [Event.failed]) _ hd

theorem State.doStream_step (s : State) (n : Nat) (b : Byte) : EventStep s (s.doStream n b) := by
  unfold State.doStream
  split
  · refine s.doSend_step _ _ _ fun u hu h0 h1 h2 h3 h4 h5 => ?_
    unfold State.endByte
    split
    · exact ⟨hu.trans ⟨rfl, rfl, rfl, rfl, rfl⟩, h0, .goesOn h1 h2 h3 h4 (.inr ⟨_, rfl, h5⟩)⟩
    · exact s.endPrim_step _ (hu.trans ⟨rfl, rfl, rfl, rfl, rfl⟩) h0 h1 h2 h3 h4 (.inr ⟨_, rfl, h5⟩)
  · exact s.endPrim_step _ (Kept.refl s) rfl rfl rfl rfl rfl (.inl rfl)

theorem State.sequence_step (s : State) : EventStep s s.sequence := by
  have log : ∀ e, e.failed = false → EventStep s (s.log e).endPrim := fun e he =>
    s.endPrim_step _ ⟨rfl, rfl, rfl, rfl, rfl⟩ rfl rfl rfl rfl rfl (.inr ⟨e, he, rfl⟩)
  have logNext : ∀ e, e.failed = false → EventStep s (s.log e).nextPhase := fun e he =>
    ⟨⟨rfl, rfl, rfl, rfl, rfl⟩, rfl, .goesOn rfl rfl rfl rfl (.inr ⟨e, he, rfl⟩)⟩
  have actNext : ∀ high, EventStep s (s.act (.setReset high) State.nextPhase) := fun high =>
    s.act_step _ (by simp [Event.failed]) _ fun u hu h0 h1 h2 h3 h4 h5 =>
      ⟨hu.trans ⟨rfl, rfl, rfl, rfl, rfl⟩, h0, .goesOn h1 h2 h3 h4 (.inr ⟨_, rfl, h5⟩)⟩
  have done : ∀ b, ∀ u, Kept s u → u.resetLine = s.resetLine → u.session = s.session → u.seq = s.seq →
      u.responses = s.responses → u.portBusy = s.portBusy → u.trace = .write b true :: s.trace →
      EventStep s u.endPrim := fun b u hu h0 h1 h2 h3 h4 h5 =>
    s.endPrim_step u hu h0 h1 h2 h3 h4 (.inr ⟨_, rfl, h5⟩)
  unfold State.sequence
  split
  next p hc =>
    cases p with
    | reset =>
      simp only [State.doPrim, State.doReset]
      split
      · exact actNext false
      · exact logNext _ rfl
      · exact actNext true
      · exact log _ rfl
    | sendCmd c => exact s.doSend_step _ _ _ (done c)
    | sendData d => exact s.doSend_step _ _ _ (done d)
    | sendDataFill v n => exact s.doStream_step _ _
    | sendDataFb => exact s.doStream_step _ _
    | delay d => exact log _ rfl
    | waitBusy =>
      simp only [State.doPrim, State.doWaitBusy]
      split
      · simp only [State.samplePoll]
        split
        next hb =>
          rw [hb]
          split
          next hx =>
            simp only [State.pollsExpired] at hx
            split at hx
            · cases hx
            next k hk =>
              exact ⟨⟨rfl, rfl, rfl, rfl, rfl⟩, rfl, .timedOut rfl rfl rfl rfl rfl hc k hk (by simpa using hx)⟩
          next => exact ⟨⟨rfl, rfl, rfl, rfl, rfl⟩, rfl, .goesOn rfl rfl rfl rfl (.inr ⟨_, rfl, rfl⟩)⟩
        next =>
          exact s.endPrim_step _ ⟨rfl, rfl, rfl, rfl, rfl⟩ rfl rfl rfl rfl rfl (.inr ⟨.readBusy (s.busyAt 0), rfl, rfl⟩)
      · exact ⟨⟨rfl, rfl, rfl, rfl, rfl⟩, rfl, .goesOn rfl rfl rfl rfl (.inr ⟨_, rfl, rfl⟩)⟩
  next => exact ⟨⟨rfl, rfl, rfl, rfl, rfl⟩, rfl, .finished rfl rfl rfl rfl (.inl rfl)⟩

/-- What no command changes when it is executed, or where a sequence starts. -/
structure ExecKept (s t : State) : Prop where
  params : t.params = s.params
  offers : t.offers = s.offers
  resetLine : t.resetLine = s.resetLine
  transport : SameTransport s t

/-- What a command does: it answers at once with the sequencer untouched, or it starts a sequence. -/
inductive ExecEnd (i : Instr) (s t : State) : Prop
  | answered (st : Status) (data : BitVec 28) (responses : t.responses = responseWord st data :: s.responses)
      (precise : st ≠ .transportFailure ∧ st ≠ .panelTimeout) (zero : st ≠ .ok → data = 0)
      (busy : t.portBusy = false) (session : t.session = s.session) (sequencer : SameSequencer s t)
      (fb : t.fb = s.fb ∨ (writesFb i = true ∧ s.session = .ready))
      (orient : t.orient = s.orient ∨ i = .setOrientation t.orient)
      (page : t.page = s.page ∨ ∃ p, i = .setPage p ∧ t.page = BitVec.ofInt 16 p)
  | started (q : SeqId) (which : (i = .initializePanel ∧ q = .initSeq ∧ t = s.startSeq q) ∨
      (i = .update ∧ q = .updateSeq ∧ s.session = .ready ∧ t = ({ s with session := .updating } : State).startSeq q) ∨
      (i = .sleep ∧ q = .sleepSeq ∧ s.session = .ready ∧ t = s.startSeq q))

theorem ExecKept.respond (s : State) (st : Status) (data : BitVec 28) : ExecKept s (s.respond st data) :=
  ⟨rfl, rfl, rfl, rfl, rfl, rfl, rfl, rfl⟩

theorem exec_kept {i : Instr} {s t : State} (h : exec i s = .next t) : ExecKept s t := by
  cases i <;>
    simp only [exec, execInitializePanel, execUpdate, execSleep, execReadStatus, execSetOrientation, execSetPage,
      execClear, execDrawPixel, execRawWrite, execGetPixel, execReadCell] at h
  all_goals repeat' split at h
  all_goals (cases h; exact ⟨rfl, rfl, rfl, rfl, rfl, rfl, rfl, rfl⟩)

theorem exec_ends {i : Instr} {s t : State} (h : exec i s = .next t) : ExecEnd i s t := by
  have raised : ∀ st, st ≠ .ok → st ≠ .transportFailure → st ≠ .panelTimeout → ExecEnd i s (s.raise st) := by
    intro st h0 h1 h2
    obtain ⟨hq, hs⟩ := s.raise_precise h1 h2
    exact .answered st 0 (by simp) ⟨h1, h2⟩ (fun _ => rfl) (by simp) hs
      ⟨hq, by simp, by simp, by simp, by simp⟩ (.inl (by simp)) (.inl (by simp)) (.inl (by simp))
  cases i <;>
    simp only [exec, execInitializePanel, execUpdate, execSleep, execReadStatus, execSetOrientation, execSetPage,
      execClear, execDrawPixel, execRawWrite, execGetPixel, execReadCell] at h
  case initializePanel => cases h; exact .started .initSeq (.inl ⟨rfl, rfl, rfl⟩)
  case update =>
    split at h
    next hr => cases h; exact .started .updateSeq (.inr (.inl ⟨rfl, rfl, hr, rfl⟩))
    next => cases h; exact raised _ (by simp) (by simp) (by simp)
  case sleep =>
    split at h
    next hr => cases h; exact .started .sleepSeq (.inr (.inr ⟨rfl, rfl, hr, rfl⟩))
    next => cases h; exact raised _ (by simp) (by simp) (by simp)
  case readStatus =>
    cases h
    exact .answered .ok _ rfl (by simp) (by simp) rfl rfl ⟨rfl, rfl, rfl, rfl, rfl⟩ (.inl rfl) (.inl rfl) (.inl rfl)
  case setOrientation o =>
    cases h
    exact .answered .ok _ rfl (by simp) (by simp) rfl rfl ⟨rfl, rfl, rfl, rfl, rfl⟩ (.inl rfl) (.inr rfl) (.inl rfl)
  case setPage p =>
    cases h
    exact .answered .ok _ rfl (by simp) (by simp) rfl rfl ⟨rfl, rfl, rfl, rfl, rfl⟩ (.inl rfl) (.inl rfl)
      (.inr ⟨p, rfl, rfl⟩)
  case clear v =>
    split at h
    next hr =>
      cases h
      exact .answered .ok _ rfl (by simp) (by simp) rfl rfl ⟨rfl, rfl, rfl, rfl, rfl⟩ (.inr ⟨rfl, hr⟩) (.inl rfl) (.inl rfl)
    next => cases h; exact raised _ (by simp) (by simp) (by simp)
  case drawPixel x y c =>
    split at h
    next hr =>
      split at h <;> cases h
      · exact .answered .ok _ rfl (by simp) (by simp) rfl rfl ⟨rfl, rfl, rfl, rfl, rfl⟩ (.inr ⟨rfl, hr⟩) (.inl rfl) (.inl rfl)
      · exact .answered .ok _ rfl (by simp) (by simp) rfl rfl ⟨rfl, rfl, rfl, rfl, rfl⟩ (.inl rfl) (.inl rfl) (.inl rfl)
    next => cases h; exact raised _ (by simp) (by simp) (by simp)
  case rawWrite x y c =>
    split at h
    next hr =>
      split at h <;> cases h
      · exact .answered .ok _ rfl (by simp) (by simp) rfl rfl ⟨rfl, rfl, rfl, rfl, rfl⟩ (.inr ⟨rfl, hr⟩) (.inl rfl) (.inl rfl)
      · exact raised _ (by simp) (by simp) (by simp)
    next => cases h; exact raised _ (by simp) (by simp) (by simp)
  case getPixel x y =>
    split at h <;> cases h
    · exact .answered .ok _ rfl (by simp) (by simp) rfl rfl ⟨rfl, rfl, rfl, rfl, rfl⟩ (.inl rfl) (.inl rfl) (.inl rfl)
    · exact raised _ (by simp) (by simp) (by simp)
  case readCell a =>
    split at h <;> cases h
    · exact .answered .ok _ rfl (by simp) (by simp) rfl rfl ⟨rfl, rfl, rfl, rfl, rfl⟩ (.inl rfl) (.inl rfl) (.inl rfl)
    · exact raised _ (by simp) (by simp) (by simp)

/-- Every command keeps the framebuffer store in its canonical form. -/
theorem exec_wf {i : Instr} {s t : State} (h : exec i s = .next t) (hm : s.fb.wf) : t.fb.wf := by
  have write : ∀ a c, (s.writeBit a c).fb.wf := fun a c => Memory.wf_write hm a.cell.isLt _
  rcases exec_ends h with ⟨_, _, _, _, _, _, _, _, hfb | ⟨hw, -⟩, -, -⟩ | ⟨q, ⟨-, -, rfl⟩ | ⟨-, -, -, rfl⟩ | ⟨-, -, -, rfl⟩⟩
  · rw [hfb]; exact hm
  · cases i <;> simp only [writesFb, Bool.false_eq_true] at hw
    all_goals simp only [exec, execClear, execDrawPixel, execRawWrite] at h
    all_goals repeat' split at h
    all_goals cases h
    all_goals first | exact Memory.wf_fill _ | exact write _ _ | exact hm
  all_goals exact hm

end Sys2Proof.Machine
end

