-- ==== Sys2Proof/Tests/Slice0.lean ====
section
/-!
SUPPORT. Tests: ill-formed commands refused, words written out from the encoding, one-step vectors of
spec/95_test_vectors.md, and for every statement with hypotheses a witness that meets them.
-/

namespace Sys2Proof.Machine.Tests

/-! ## Well-formedness: an ill-formed term for each check (R48, R56) -/

theorem test_illformed_setPage : (Instr.setPage 32768).wellFormed = false ∧ (Instr.setPage (-32769)).wellFormed = false := by
  decide

theorem test_illformed_drawPixel :
    (Instr.drawPixel 32768 0 0).wellFormed = false ∧ (Instr.drawPixel 0 (-32769) 0).wellFormed = false := by decide

theorem test_illformed_rawWrite :
    (Instr.rawWrite 65536 0 0).wellFormed = false ∧ (Instr.rawWrite 0 65536 0).wellFormed = false := by decide

theorem test_illformed_getPixel :
    (Instr.getPixel (-32769) 0).wellFormed = false ∧ (Instr.getPixel 0 32768).wellFormed = false := by decide

theorem test_illformed_readCell : (Instr.readCell 65536).wellFormed = false := by decide

/-! ## Decoding: words written out from R46 to R49, field by field OPC, A8, RSV, X, Y -/

theorem test_decode_lifecycle :
    decode (0x01#8 ++ 0x00#8 ++ 0x0000#16 ++ 0x0000#16 ++ 0x0000#16) = .ok .initializePanel ∧
    decode (0x02#8 ++ 0x00#8 ++ 0x0000#16 ++ 0x0000#16 ++ 0x0000#16) = .ok .update ∧
    decode (0x03#8 ++ 0x00#8 ++ 0x0000#16 ++ 0x0000#16 ++ 0x0000#16) = .ok .sleep ∧
    decode (0x04#8 ++ 0x00#8 ++ 0x0000#16 ++ 0x0000#16 ++ 0x0000#16) = .ok .readStatus := by decide

theorem test_decode_registers :
    decode (0x10#8 ++ 0b00000011#8 ++ 0x0000#16 ++ 0x0000#16 ++ 0x0000#16) = .ok (.setOrientation .deg270) ∧
    decode (0x10#8 ++ 0b00000001#8 ++ 0x0000#16 ++ 0x0000#16 ++ 0x0000#16) = .ok (.setOrientation .deg90) ∧
    decode (0x11#8 ++ 0x00#8 ++ 0x0000#16 ++ 0x0000#16 ++ 0b1000000000000000#16) = .ok (.setPage (-32768)) := by decide

theorem test_decode_framebuffer :
    decode (0x20#8 ++ 0xAA#8 ++ 0x0000#16 ++ 0x0000#16 ++ 0x0000#16) = .ok (.clear 0xAA) ∧
    decode (0x21#8 ++ 0x01#8 ++ 0x0000#16 ++ 0x0005#16 ++ 0xFFF6#16) = .ok (.drawPixel 5 (-10) 1) ∧
    decode (0x22#8 ++ 0x01#8 ++ 0x0000#16 ++ 0xFFFF#16 ++ 0x0068#16) = .ok (.rawWrite 65535 104 1) ∧
    decode (0x30#8 ++ 0x00#8 ++ 0x0000#16 ++ 0x8000#16 ++ 0x7FFF#16) = .ok (.getPixel (-32768) 32767) ∧
    decode (0x31#8 ++ 0x00#8 ++ 0x0000#16 ++ 0x0000#16 ++ 0xFFFF#16) = .ok (.readCell 65535) := by decide

/-- 95_test_vectors.md section 2.1, the words that decode. -/
theorem test_decode_vectors :
    decode 0x1003000000000000 = .ok (.setOrientation .deg270) ∧ decode 0x1100000000008000 = .ok (.setPage (-32768)) ∧
    decode 0x21FF0000FFFFFFFF = .ok (.drawPixel (-1) (-1) 255) ∧ decode 0x22010000FFFF0000 = .ok (.rawWrite 65535 0 1) ∧
    decode 0x31000000000000FF = .ok (.readCell 255) := by decide

/-- 95_test_vectors.md section 2.1, the illegal words. -/
theorem test_decode_illegal :
    [0x0000000000000000#64, 0xFF00000000000000#64, 0x0500000000000000#64].map decode =
      List.replicate 3 (.error .undefinedOpcode) ∧
    [0x0100000000000001#64, 0x0180000000000000#64, 0x1004000000000000#64, 0x1080000000000000#64, 0x1100000100000000#64,
      0x2000000000000001#64, 0x2100000100000000#64, 0x2200800000000000#64, 0x30FF000000000000#64, 0x3000000100000000#64,
      0x3100000000010000#64].map decode = List.replicate 11 (.error .reservedBit) := by decide

/-- The words of 95_test_vectors.md sections 2.3 and 2.5, from the encoder. -/
theorem test_encode_vectors :
    encode (.drawPixel (-1) 0 1) = 0x21010000FFFF0000 ∧ encode (.drawPixel (-32768) (-32768) 1) = 0x2101000080008000 ∧
    encode (.rawWrite 103 211 1) = 0x22010000006700D3 ∧ encode (.getPixel 0 103) = 0x3000000000000067 ∧
    encode (.setPage (-1)) = 0x110000000000FFFF ∧ encode (.clear 0xFF) = 0x20FF000000000000 := by decide

/-! ## The framebuffer store -/

theorem test_write_keeps_order : Memory.write [(3, 5), (9, 1)] 7 2 = [(3, 5), (7, 2), (9, 1)] := by decide

theorem test_write_reset_value_unlists : Memory.write [(3, 5), (9, 1)] 3 0 = [(9, 1)] := by decide

/-! ## States for one step -/

/-- The state a result gives, for a result that is a next state. -/
def ran : Result → State
  | .next t => t
  | .fault _ | .refused _ => State.reset

/-- Block reset with SESSION READY. -/
def ready : State := { State.reset with session := .ready }

/-- Block reset with SESSION ASLEEP. -/
def asleep : State := { State.reset with session := .asleep }

/-- Parameters with a busy-wait bound. -/
def bounded (k : Option Nat) : Params := { (default : Params) with busyTimeoutPolls := k }

/-- READY with the port busy: a command has just been accepted, `n` actions will be answered ok, and busy is asserted for
`m` samples. -/
def panel (k : Option Nat) (n m : Nat) : State :=
  { ready with
    portBusy := true
    params := bounded k
    acks := List.replicate n true
    busyLevels := List.replicate m true ++ [false] }

/-- A sequence at one of its events, the trace as it stands there. -/
def mid (q : SeqId) (session : Session) (stepIdx phase : Nat) (trace : List Event) : State :=
  { State.reset with
    params := bounded (some 1)
    session := session
    portBusy := true
    seq := q
    stepIdx := stepIdx
    phase := phase
    trace := trace
    acks := [true]
    busyLevels := [false] }

/-! ## One-step vectors -/

/-- R96, R99: INITIALIZE is accepted in reset state and starts INIT_SEQ. -/
theorem test_initialize_starts :
    let t := ran (step { State.reset with offers := [0x0100000000000000] })
    t.portBusy = true ∧ t.seq = .initSeq ∧ t.responses = [] ∧ t.offers = [] := by decide

/-- 95_test_vectors.md section 2.9, event 48 and 49 of INIT_SEQ: the last byte 0x97 ends it with OK and READY. -/
theorem test_initialize_ends :
    let t := ran (step (mid .initSeq .uninitialized 23 1 [.setControl true true]))
    t.trace = [.write 0x97 true, .setControl true true] ∧ t.session = .ready ∧ t.responses = [0x00000000] ∧
      t.seq = .none := by decide

/-- S7 of 95_test_vectors.md: UPDATE in ASLEEP answers PANEL_NOT_READY with no event. -/
theorem test_update_asleep :
    let t := ran (step { asleep with offers := [0x0200000000000000] })
    t.responses = [0x20000000] ∧ t.trace = [] ∧ t.session = .asleep := by decide

/-- R87: the second transmission phase sends FB[0] first. -/
theorem test_update_streams_cell :
    let t := ran (step { mid .updateSeq .updating 3 1 [.setControl true true] with fb := [(0, 0xAB)] })
    t.trace = [.write 0xAB true, .setControl true true] ∧ t.streamIdx = 1 := by decide

/-- R92, R101: the byte 0xA5 ends SLEEP_SEQ with OK and ASLEEP. -/
theorem test_sleep_ends :
    let t := ran (step (mid .sleepSeq .ready 5 1 [.setControl true true]))
    t.trace = [.write 0xA5 true, .setControl true true] ∧ t.session = .asleep ∧ t.responses = [0x00000000] := by decide

/-- Section 2.7: SLEEP in UNINITIALIZED. -/
theorem test_sleep_uninitialized : (ran (exec .sleep State.reset)).responses = [0x20000000] := by decide

/-- Section 2.8. -/
theorem test_readStatus_reset : (ran (exec .readStatus State.reset)).responses = [0x0000FFFF] := by decide

theorem test_readStatus_asleep :
    (ran (exec .readStatus { asleep with orient := .deg270, page := 0x8000 })).responses = [0x000B8000] := by decide

theorem test_setOrientation : (ran (exec (.setOrientation .deg180) asleep)).orient = .deg180 := by decide

theorem test_setPage_negative : (ran (exec (.setPage (-32768)) asleep)).page = 0x8000 := by decide

/-- S3 of 95_test_vectors.md, its second half. -/
theorem test_clear_zero : (ran (exec (.clear 0x00) { ready with fb := [(7, 0xFF)] })).fb = [] := by decide

theorem test_clear_uninitialized :
    let t := ran (exec (.clear 0xFF) State.reset)
    t.fb = [] ∧ t.responses = [0x20000000] := by decide

/-- Section 2.4: cell 0 holds 0xAA. -/
theorem test_drawPixel_polarity :
    (ran (exec (.drawPixel 1 0 0) { ready with fb := [(0, 0xAA)] })).fb = [(0, 0xEA)] ∧
    (ran (exec (.drawPixel 0 0 1) { ready with fb := [(0, 0xAA)] })).fb = [(0, 0x2A)] := by decide

/-- S6 of 95_test_vectors.md, its variant with color 0. -/
theorem test_drawPixel_rotated :
    (ran (exec (.drawPixel 0 0 0) { ready with orient := .deg180 })).fb = [(2755, 0x01)] := by decide

/-- S4 of 95_test_vectors.md: off by one is rejected. -/
theorem test_rawWrite_boundary :
    (ran (exec (.rawWrite 104 0 1) ready)).responses = [0x10000000] ∧
    (ran (exec (.rawWrite 0 212 1) ready)).responses = [0x10000000] := by decide

/-- Section 2.5: RAW_WRITE ignores ORIENT and PAGE. -/
theorem test_rawWrite_corner :
    (ran (exec (.rawWrite 103 211 1) { ready with orient := .deg270, page := 1, fb := [(2755, 0xFF)] })).fb =
      [(2755, 0xFE)] := by decide

/-- Section 2.6. -/
theorem test_getPixel :
    (ran (exec (.getPixel 0 103) { ready with orient := .deg270, fb := [(2755, 0xFE)] })).responses = [0x00000000] ∧
    (ran (exec (.getPixel 0 104) { ready with orient := .deg90 })).responses = [0x10000000] := by decide

theorem test_readCell :
    (ran (exec (.readCell 2755) { ready with fb := [(2755, 0xFE)] })).responses = [0x000000FE] ∧
    (ran (exec (.readCell 2756) ready)).responses = [0x10000000] := by decide

/-- Section 2.1: RAW_WRITE with a reserved bit is illegal before it is gated, and gated before its bounds are checked. -/
theorem test_priority :
    (ran (step { asleep with offers := [0x2201000100680000] })).responses = [0x50000000] ∧
    (ran (step { asleep with offers := [0x2201000000680000] })).responses = [0x20000000] := by decide

/-- Section 2.2, the reference table. -/
theorem test_pipeline :
    pixelTarget .deg0 0xFFFF 5 10 = some ⟨130, 2⟩ ∧ pixelTarget .deg0 0xFFFF 2 208 = some ⟨2704, 5⟩ ∧
    pixelTarget .deg90 0xFFFF 5 10 = some ⟨76, 2⟩ ∧ pixelTarget .deg90 0xFFFF 8 1 = some ⟨116, 1⟩ ∧
    pixelTarget .deg90 0xFFFF 0 104 = none ∧
    pixelTarget .deg180 0xFFFF 5 10 = some ⟨2625, 5⟩ ∧ pixelTarget .deg180 0xFFFF 8 1 = some ⟨2741, 0⟩ ∧
    pixelTarget .deg270 0xFFFF 5 10 = some ⟨2679, 5⟩ ∧ pixelTarget .deg270 0xFFFF 103 211 = some ⟨1430, 4⟩ ∧
    pixelTarget .deg270 0xFFFF 0 104 = none := by decide

/-- Section 2.3, paging. -/
theorem test_paging :
    pixelTarget .deg0 0x8000 5 10 = some ⟨130, 2⟩ ∧ pixelTarget .deg0 0 5 10 = some ⟨130, 2⟩ ∧
    pixelTarget .deg0 1 5 10 = none ∧ pixelTarget .deg0 0x7FFF 5 10 = none := by decide

/-- The step fetches what withFetchWord places. -/
theorem test_withFetchWord :
    (ran (step (State.reset.withFetchWord 64 0x0400000000000000))).responses = [0x0000FFFF] := by decide

/-! ## The assembler (R56, R57) -/

theorem test_assemble_operands :
    assemble "DRAW_PIXEL -1, 0x10, 255" = some (.drawPixel (-1) 16 255) ∧
    assemble "SET_ORIENTATION 4" = none ∧ assemble "RAW_WRITE -1, 0, 0" = none ∧ assemble "CLEAR 256" = none := by decide

theorem test_flush_order : flushPixels 3 5 4 6 = [(3, 5), (4, 5), (3, 6), (4, 6)] := by decide

/-! ## Witnesses: a state and operands that meet the hypotheses of each statement, one for each clause -/

theorem panel_acks (k : Option Nat) (n m : Nat) : AcksOk (panel k n m) n := fun j hj => by
  simp [State.ackAt, panel, hj]

theorem panel_busy (k : Option Nat) (n m : Nat) : BusyFor (panel k n m) m :=
  ⟨fun j hj => by simp [State.busyAt, panel, List.getElem?_append_left, hj], by simp [State.busyAt, panel]⟩

theorem panel_noReset (k : Option Nat) (n m : Nat) : NoReset (panel k n m) := fun b hb => by
  simp [panel, ready, State.reset] at hb

theorem panel_bound (n : Nat) {k m : Nat} (h : m < k) : BoundAllows (panel (some k) n m) m := fun j hj => by
  simp only [panel, bounded, Option.some.injEq] at hj
  omega

/-- How a state inside a sequence meets the invariant. -/
theorem inv_of {s : State} {p : Primitive} (memory : s.fb.wf) (busy : s.portBusy = true) (seq : s.seq ≠ .none)
    (updating : s.session = .updating ↔ s.seq = .updateSeq) (sleeping : s.seq = .sleepSeq → s.session = .ready)
    (current : s.current = some p) (phase : s.phase < p.phases) (byte : p.streamLength.all (fun n => s.streamIdx < n) = true)
    (selected : s.phase = 1 → p.selects.all (fun d => s.trace.head? == some (.setControl d true)) = true)
    (transfers : bytesSelected s.trace = true) : s.Inv := by
  refine ⟨memory, by simp [busy, seq], updating, sleeping, fun _ => ⟨p, current, phase, fun n hn => ?_⟩, ?_, transfers⟩
  · simpa [hn] using byte
  · intro q d hq hd h1
    rw [current, Option.some.injEq] at hq
    subst hq
    simpa [hd] using selected h1

/-- How an idle state meets the invariant. -/
theorem inv_idle {s : State} (memory : s.fb.wf) (busy : s.portBusy = false) (seq : s.seq = .none)
    (updating : s.session ≠ .updating) (transfers : bytesSelected s.trace = true) : s.Inv := by
  refine ⟨memory, by simp [busy, seq], by simp [updating, seq], by simp [seq], by simp [seq], ?_, transfers⟩
  intro q d hq
  simp [State.current, seq, SeqId.prims] at hq

theorem witness_DecodeEncodeRoundTrip :
    (Instr.drawPixel (-32768) 32767 255).wellFormed = true ∧ (Instr.rawWrite 65535 0 0).wellFormed = true ∧
    (Instr.setPage (-32768)).wellFormed = true ∧ (Instr.getPixel 32767 (-32768)).wellFormed = true ∧
    (Instr.readCell 65535).wellFormed = true ∧ (Instr.setOrientation .deg270).wellFormed = true ∧
    (Instr.clear 0xFF).wellFormed = true ∧ Instr.update.wellFormed = true := by decide

theorem witness_EncodeDecodeRoundTrip : decode 0x21FF0000FFFFFFFF = .ok (.drawPixel (-1) (-1) 255) := by decide

theorem witness_DecoderRejectsExactlyIllegalWords :
    IllegalWord 0x0500000000000000 ∧ IllegalWord 0x1004000000000000 ∧ decode 0x1003000000000000 = .ok (.setOrientation .deg270) :=
  ⟨.inl fun op => by cases op <;> decide, .inr ⟨.setOrientation, 50, by decide⟩, by decide⟩

theorem witness_OpcodeTableSelectsCommands :
    0x20FF000000000000#64 &&& Opcode.tableMask .clear = Opcode.tableMatch .clear := by decide

theorem witness_StepRunsDecodedCommand :
    let s : State := { State.reset with offers := [0x0400000000000000, 0x0200000000000000], resetLine := [false, true] }
    s.resetStrikes = false ∧ s.portBusy = false ∧ s.offers = [0x0400000000000000, 0x0200000000000000] ∧
      decode 0x0400000000000000 = .ok .readStatus := by decide

theorem witness_IllegalWordAnsweredWithoutEffect :
    let s : State := { asleep with offers := [0x2201000100680000] }
    s.resetStrikes = false ∧ s.portBusy = false ∧ s.offers = [0x2201000100680000] ∧ IllegalWord 0x2201000100680000 :=
  ⟨rfl, rfl, rfl, .inr ⟨.rawWrite, 32, by decide⟩⟩

theorem witness_BusyPortHoldsOffer :
    let s : State := mid .sleepSeq .ready 5 0 []
    let u : State := mid .sleepSeq .ready 5 1 [.setControl true true]
    (s.resetStrikes = false ∧ s.portBusy = true ∧ step s = .next (ran (step s)) ∧ (ran (step s)).responses = []) ∧
    (u.resetStrikes = false ∧ u.portBusy = true ∧ step u = .next (ran (step u)) ∧ (ran (step u)).responses = [0]) :=
  ⟨⟨rfl, rfl, rfl, rfl⟩, ⟨rfl, rfl, rfl, rfl⟩⟩

theorem witness_IdlePortWaits :
    asleep.resetStrikes = false ∧ asleep.portBusy = false ∧ asleep.offers = [] := by decide

theorem witness_BlockResetSetsEverything :
    ({ mid .updateSeq .updating 3 1 [.setControl true true] with fb := [(0, 1)], resetLine := [true] } : State).resetStrikes = true :=
  rfl

/-- A state inside UPDATE_SEQ, before a data byte. -/
theorem inv_stream : (mid .updateSeq .updating 3 1 [.setControl true true]).Inv :=
  inv_of (p := .sendDataFb) (by decide) rfl (by decide) (by decide) (by decide) rfl (by decide) (by decide) (by decide) rfl

/-- The last event of INIT_SEQ. -/
theorem inv_initLast : (mid .initSeq .asleep 23 1 [.setControl true true]).Inv :=
  inv_of (p := .sendData 0x97) (by decide) rfl (by decide) (by decide) (by decide) rfl (by decide) (by decide) (by decide) rfl

/-- The last event of SLEEP_SEQ. -/
theorem inv_sleepLast : (mid .sleepSeq .ready 5 1 [.setControl true true]).Inv :=
  inv_of (p := .sendData 0xA5) (by decide) rfl (by decide) (by decide) (by decide) rfl (by decide) (by decide) (by decide) rfl

/-- The busy wait of UPDATE_SEQ. -/
theorem inv_updateWait (levels : List Bool) :
    ({ mid .updateSeq .updating 6 0 [] with busyLevels := levels } : State).Inv :=
  inv_of (p := .waitBusy) (by show State.reset.fb.wf; decide) rfl (by simp [mid]) (by simp [mid]) (by simp [mid]) rfl
    (by simp [mid, Primitive.phases]) rfl (by simp [mid]) rfl

theorem inv_asleep : asleep.Inv := inv_idle (by decide) rfl rfl (by decide) rfl

theorem witness_OneEventPerStep :
    ((mid .updateSeq .updating 3 1 [.setControl true true]).Inv ∧
      (mid .updateSeq .updating 3 1 [.setControl true true]).resetStrikes = false ∧
      step (mid .updateSeq .updating 3 1 [.setControl true true]) =
        .next (ran (step (mid .updateSeq .updating 3 1 [.setControl true true])))) ∧
    (asleep.Inv ∧ asleep.resetStrikes = false ∧ step asleep = .next (ran (step asleep))) :=
  ⟨⟨inv_stream, rfl, rfl⟩, inv_asleep, rfl, rfl⟩

theorem witness_StepKeepsInvariant :
    (mid .initSeq .asleep 23 1 [.setControl true true]).Inv ∧
      step (mid .initSeq .asleep 23 1 [.setControl true true]) =
        .next (ran (step (mid .initSeq .asleep 23 1 [.setControl true true]))) := ⟨inv_initLast, rfl⟩

theorem witness_InvariantStatesStep : (mid .sleepSeq .ready 5 1 [.setControl true true]).Inv := inv_sleepLast

/-- Each row of the session state machine: block reset, UPDATE accepted, INITIALIZE, UPDATE and SLEEP ended, an action
that fails, the bound of a busy wait reached, a sequence that goes on, and UPDATE refused. -/
theorem witness_SessionFollowsStateMachine :
    (∃ s t, State.Inv s ∧ step s = .next t ∧ s.resetStrikes = true ∧ t.session ≠ s.session) ∧
    (∃ s t, State.Inv s ∧ step s = .next t ∧ s.session = .ready ∧ t.session = .updating) ∧
    (∃ s t, State.Inv s ∧ step s = .next t ∧ s.session = .asleep ∧ t.session = .ready) ∧
    (∃ s t, State.Inv s ∧ step s = .next t ∧ s.session = .updating ∧ t.session = .ready) ∧
    (∃ s t, State.Inv s ∧ step s = .next t ∧ s.session = .ready ∧ t.session = .asleep) ∧
    (∃ s t, State.Inv s ∧ step s = .next t ∧ s.session = .updating ∧ t.session = .uninitialized ∧
      t.responses = [0x30000000]) ∧
    (∃ s t, State.Inv s ∧ step s = .next t ∧ s.session = .updating ∧ t.session = .uninitialized ∧
      t.responses = [0x40000000]) ∧
    (∃ s t, State.Inv s ∧ step s = .next t ∧ s.portBusy = true ∧ t.portBusy = true) ∧
    (∃ s t, State.Inv s ∧ step s = .next t ∧ s.portBusy = false ∧ s.session = .asleep ∧ t.responses = [0x20000000]) :=
  ⟨⟨{ asleep with resetLine := [true] }, _, inv_idle (by decide) rfl rfl (by decide) rfl, rfl, rfl, by decide⟩,
    ⟨{ ready with offers := [0x0200000000000000] }, _, inv_idle (by decide) rfl rfl (by decide) rfl, rfl, rfl, rfl⟩,
    ⟨_, _, inv_initLast, rfl, rfl, rfl⟩,
    ⟨_, _, inv_updateWait [false], rfl, rfl, rfl⟩,
    ⟨_, _, inv_sleepLast, rfl, rfl, rfl⟩,
    ⟨{ mid .updateSeq .updating 3 1 [.setControl true true] with acks := [false] }, _,
      inv_of (p := .sendDataFb) (by decide) rfl (by decide) (by decide) (by decide) rfl (by decide) (by decide) (by decide) rfl,
      rfl, rfl, rfl, rfl⟩,
    ⟨_, _, inv_updateWait [true], rfl, rfl, rfl, rfl⟩,
    ⟨_, _, inv_stream, rfl, rfl, rfl⟩,
    ⟨{ asleep with offers := [0x0200000000000000] }, _, inv_idle (by decide) rfl rfl (by decide) rfl, rfl, rfl, rfl, rfl⟩⟩

theorem witness_VisibleStateHasOnlyItsWriters :
    (∃ (s t : State), step s = .next t ∧ s.resetStrikes = false ∧ t.orient ≠ s.orient) ∧
    (∃ (s t : State), step s = .next t ∧ s.resetStrikes = false ∧ t.page ≠ s.page) ∧
    (∃ (s t : State), step s = .next t ∧ s.resetStrikes = false ∧ ¬SameCells s t) :=
  ⟨⟨{ asleep with offers := [0x1003000000000000] }, _, rfl, rfl, by decide⟩,
    ⟨{ asleep with offers := [0x1100000000000001] }, _, rfl, rfl, by decide⟩,
    ⟨{ ready with offers := [0x2200000000000000] }, _, rfl, rfl, fun h => absurd (h 0) (by decide)⟩⟩

theorem witness_ParametersNeverChange :
    step (mid .sleepSeq .ready 5 0 []) = .next (ran (step (mid .sleepSeq .ready 5 0 []))) := rfl

theorem witness_ResponsesAreLegal :
    (∃ (s t : State), step s = .next t ∧ t.responses ≠ s.responses ∧ t.responses = [0x000000AB]) ∧
    (∃ (s t : State), step s = .next t ∧ t.responses ≠ s.responses ∧ t.responses = [0x50000000]) :=
  ⟨⟨{ asleep with fb := [(0, 0xAB)], offers := [0x3100000000000000] }, _, rfl, by decide, rfl⟩,
    ⟨{ asleep with offers := [0xFFFFFFFFFFFFFFFF] }, _, rfl, by decide, rfl⟩⟩

/-- The first action of SLEEP_SEQ, answered fail. -/
def failing : State := { mid .sleepSeq .ready 0 0 [] with acks := [false] }

theorem witness_FailedActionEndsSequence :
    step failing = .next (ran (step failing)) ∧ (ran (step failing)).trace = .setControl false false :: failing.trace ∧
      (Event.setControl false false).failed = true := ⟨rfl, rfl, rfl⟩

theorem witness_TransportFailureCause :
    failing.resetStrikes = false ∧ step failing = .next (ran (step failing)) ∧
      Answers failing (ran (step failing)) 0x30000000#32 := ⟨rfl, rfl, rfl, rfl⟩

/-- The busy waits of both sequences, at the bound 1. -/
theorem witness_PanelTimeoutCause :
    (∃ (s t : State), step s = .next t ∧ Answers s t 0x40000000#32 ∧ s.seq = .initSeq) ∧
    (∃ (s t : State), step s = .next t ∧ Answers s t 0x40000000#32 ∧ s.seq = .updateSeq) :=
  ⟨⟨{ mid .initSeq .ready 12 0 [] with busyLevels := [true] }, _, rfl, ⟨rfl, rfl⟩, rfl⟩,
    ⟨{ mid .updateSeq .updating 6 0 [] with busyLevels := [true] }, _, rfl, ⟨rfl, rfl⟩, rfl⟩⟩

theorem witness_GatedCommandsNeedReady :
    (needsReady .sleep = true ∧ asleep.session ≠ .ready) ∧
    (exec .update State.reset = .next (ran (exec .update State.reset)) ∧
      Answers State.reset (ran (exec .update State.reset)) 0x20000000#32) := ⟨⟨rfl, by decide⟩, rfl, rfl, rfl⟩

theorem witness_InvalidCoordinateCauses :
    (∃ t, exec (.rawWrite 103 212 0) ready = .next t ∧ Answers ready t 0x10000000#32) ∧
    (∃ t, exec (.getPixel (-1) 0) asleep = .next t ∧ Answers asleep t 0x10000000#32) ∧
    (∃ t, exec (.readCell 2756) asleep = .next t ∧ Answers asleep t 0x10000000#32) :=
  ⟨⟨_, rfl, rfl, rfl⟩, ⟨_, rfl, rfl, rfl⟩, ⟨_, rfl, rfl, rfl⟩⟩

theorem witness_StatusNeverReadsUpdating :
    let s : State := { ready with offers := [0x0400000000000000] }
    s.Inv ∧ s.resetStrikes = false ∧ s.portBusy = false ∧ s.offers = [0x0400000000000000] ∧
      decode 0x0400000000000000 = .ok .readStatus ∧ step s = .next (ran (step s)) :=
  ⟨inv_idle (by decide) rfl rfl (by decide) rfl, rfl, rfl, rfl, rfl, rfl⟩

theorem witness_OrientTransformRanges :
    (0 ≤ (103 : Int) ∧ (103 : Int) < 104) ∧ (0 ≤ (211 : Int) ∧ (211 : Int) < 212) ∧
      orientTransform .deg0 103 211 = (103, 211) ∧ orientTransform .deg90 103 211 = (-108, 103) ∧
      orientTransform .deg180 103 211 = (0, 0) ∧ orientTransform .deg270 103 211 = (211, 108) := by decide

/-- 95_test_vectors.md section 2.2: in ORIENT 3, (1, 104) has the physical position (104, 210). -/
theorem witness_AddressIsLinearIndex :
    0 ≤ (104 : Int) ∧ 0 ≤ (210 : Int) ∧ cellStage 104 210 = some ⟨2743, 7⟩ := by decide

theorem witness_Orient0And2AreBijective :
    (0xFFFF#16).toInt < 1 ∧ (0 ≤ (103 : Int) ∧ (103 : Int) < 104) ∧ (0 ≤ (211 : Int) ∧ (211 : Int) < 212) ∧
      pixelTarget .deg180 0xFFFF 103 211 = some ⟨0, 7⟩ := by decide

theorem witness_Orient1ReachesFirstRows :
    (0x0000#16).toInt < 1 ∧ (1351 : Fin 2756).val < 104 * 13 ∧ 104 * 13 ≤ (1352 : Fin 2756).val ∧
      pixelTarget .deg90 0 103 0 = some ⟨1351, 0⟩ ∧ pixelTarget .deg90 0 103 104 = none := by decide

theorem witness_Orient3AliasesLastRows :
    (0x8000#16).toInt < 1 ∧ 108 * 13 ≤ (1404 : Fin 2756).val ∧ pixelTarget .deg270 0x8000 103 0 = some ⟨1404, 7⟩ ∧
      pixelTarget .deg270 0x8000 0 104 = none ∧ pixelTarget .deg270 0x8000 0 103 = some ⟨2755, 0⟩ := by decide

theorem witness_PagingDiscardsEverything : 1 ≤ (0x0001#16).toInt ∧ 1 ≤ (0x7FFF#16).toInt := by decide

theorem witness_ClearFillsEveryCell : ready.session = .ready := rfl

theorem witness_ClearTwiceEqualsReset :
    ∃ t u, ready.session = .ready ∧ exec (.clear 0xFF) ready = .next t ∧ exec (.clear 0x00) t = .next u :=
  ⟨_, _, rfl, rfl, rfl⟩

theorem witness_DrawPixelWritesOneBit :
    ready.fb.wf ∧ ready.session = .ready ∧ pixelTarget ready.orient ready.page 103 211 = some ⟨2755, 0⟩ ∧
      pixelTarget ready.orient ready.page 103 212 = none := by decide

theorem witness_OutOfBoundsDrawIsDiscarded :
    ready.session = .ready ∧ ((-1 : Int) < 0 ∨ 104 ≤ (-1 : Int) ∨ (0 : Int) < 0 ∨ 212 ≤ (0 : Int)) ∧
      ((104 : Int) < 0 ∨ 104 ≤ (104 : Int) ∨ (0 : Int) < 0 ∨ 212 ≤ (0 : Int)) ∧
      ((0 : Int) < 0 ∨ 104 ≤ (0 : Int) ∨ (-1 : Int) < 0 ∨ 212 ≤ (-1 : Int)) ∧
      ((0 : Int) < 0 ∨ 104 ≤ (0 : Int) ∨ (212 : Int) < 0 ∨ 212 ≤ (212 : Int)) := by decide

theorem witness_RawWriteWritesOneBit : ready.fb.wf ∧ ready.session = .ready ∧ 103 < 104 ∧ 211 < 212 := by decide

theorem witness_RawWriteRejectsOutside :
    ready.session = .ready ∧ (104 ≤ 104 ∨ 212 ≤ 0) ∧ (104 ≤ 0 ∨ 212 ≤ 212) := by decide

theorem witness_GetPixelAnswersStoredBit :
    pixelTarget asleep.orient asleep.page 103 211 = some ⟨2755, 0⟩ ∧ pixelTarget asleep.orient asleep.page 0 212 = none := by
  decide

theorem witness_ReadCellAnswersCell : 2755 < 2756 ∧ 2756 ≤ 2756 := by decide

theorem witness_GetPixelReadsBackDraw :
    ready.fb.wf ∧ ready.session = .ready ∧ pixelTarget ready.orient ready.page 0 0 ≠ none := by decide

theorem witness_PixelWriteIsIdempotent :
    ready.fb.wf ∧ ready.session = .ready ∧
      (∃ x y color, Instr.drawPixel 5 10 1 = .drawPixel x y color) ∧ ∃ x y color, Instr.rawWrite 5 10 1 = .rawWrite x y color :=
  ⟨by decide, rfl, ⟨_, _, _, rfl⟩, ⟨_, _, _, rfl⟩⟩

theorem witness_SetPageWritesPage :
    (-32768 ≤ (-32768 : Int) ∧ (-32768 : Int) ≤ 32767) ∧ (-32768 ≤ (32767 : Int) ∧ (32767 : Int) ≤ 32767) := by decide

theorem witness_SequenceStartsAtFirstPrimitive :
    ((Instr.initializePanel = .initializePanel ∧ SeqId.initSeq = .initSeq ∧ Session.asleep = asleep.session)) ∧
    (Instr.update = .update ∧ SeqId.updateSeq = .updateSeq ∧ ready.session = .ready) ∧
    (Instr.sleep = .sleep ∧ SeqId.sleepSeq = .sleepSeq ∧ ready.session = .ready) := by decide

theorem witness_InitializeRunsInitSequence :
    (panel (some 4) 46 3).portBusy = true ∧ NoReset (panel (some 4) 46 3) ∧ AcksOk (panel (some 4) 46 3) 46 ∧
      BusyFor (panel (some 4) 46 3) 3 ∧ BoundAllows (panel (some 4) 46 3) 3 :=
  ⟨rfl, panel_noReset _ _ _, panel_acks _ _ _, panel_busy _ _ _, panel_bound _ (by decide)⟩

theorem witness_UpdateStreamsFramebuffer :
    let s := panel (some 1) 11030 0
    s.session = .ready ∧ s.portBusy = true ∧ NoReset s ∧ AcksOk s 11030 ∧ BusyFor s 0 ∧ BoundAllows s 0 :=
  ⟨rfl, rfl, panel_noReset _ _ _, panel_acks _ _ _, panel_busy _ _ _, panel_bound _ (by decide)⟩

theorem witness_SleepRunsSleepSequence :
    let s := panel none 10 0
    s.session = .ready ∧ s.portBusy = true ∧ NoReset s ∧ AcksOk s 10 :=
  ⟨rfl, rfl, panel_noReset _ _ _, panel_acks _ _ _⟩

/-- The premises of its three clauses are those of the three statements before it. -/
theorem witness_TraceSizes :
    (let s := panel (some 4) 46 3
     s.portBusy = true ∧ NoReset s ∧ AcksOk s 46 ∧ BusyFor s 3 ∧ BoundAllows s 3) ∧
    (let s := panel (some 1) 11030 0
     s.session = .ready ∧ s.portBusy = true ∧ NoReset s ∧ AcksOk s 11030 ∧ BusyFor s 0 ∧ BoundAllows s 0) ∧
    (let s := panel none 10 0
     s.session = .ready ∧ s.portBusy = true ∧ NoReset s ∧ AcksOk s 10) :=
  ⟨witness_InitializeRunsInitSequence, witness_UpdateStreamsFramebuffer, witness_SleepRunsSleepSequence⟩

/-- The busy wait of UPDATE_SEQ with a bound `k` and busy asserted for `m` samples. -/
def waiting (k : Option Nat) (m : Nat) : State :=
  { mid .updateSeq .updating 6 0 [] with params := bounded k, busyLevels := List.replicate m true ++ [false] }

theorem waiting_start (k : Option Nat) (m : Nat) :
    (waiting k m).Inv ∧ (waiting k m).portBusy = true ∧ NoReset (waiting k m) ∧
      (waiting k m).current = some .waitBusy ∧ (waiting k m).phase = 0 ∧ (waiting k m).pollCount = 0 :=
  ⟨inv_of (p := .waitBusy) (by show State.reset.fb.wf; decide) rfl (by simp [waiting, mid]) (by simp [waiting, mid])
      (by simp [waiting, mid]) rfl (by simp [waiting, mid, Primitive.phases]) rfl (by simp [waiting, mid]) rfl,
    rfl, fun b hb => by simp [waiting, mid, State.reset] at hb, rfl, rfl, rfl⟩

theorem waiting_busy (k : Option Nat) (m : Nat) : BusyFor (waiting k m) m :=
  ⟨fun j hj => by simp [State.busyAt, waiting, List.getElem?_append_left, hj], by simp [State.busyAt, waiting]⟩

/-- The three clauses: released just within the bound, the bound reached, and the infinite bound. -/
theorem witness_WaitBusyPollsUntilReleased :
    (BusyFor (waiting (some 6) 5) 5 ∧ BoundAllows (waiting (some 6) 5) 5) ∧
    ((waiting (some 6) 6).params.busyTimeoutPolls = some (5 + 1) ∧ BusyHeld (waiting (some 6) 6) (5 + 1)) ∧
    ((waiting none 100).params.busyTimeoutPolls = none ∧ BusyHeld (waiting none 100) 100) ∧
    ∀ k m, (waiting k m).Inv ∧ (waiting k m).portBusy = true ∧ NoReset (waiting k m) ∧
      (waiting k m).current = some .waitBusy ∧ (waiting k m).phase = 0 ∧ (waiting k m).pollCount = 0 :=
  ⟨⟨waiting_busy _ _, fun j hj => by simp only [waiting, bounded, Option.some.injEq] at hj; omega⟩,
    ⟨rfl, (waiting_busy _ _).1⟩, ⟨rfl, (waiting_busy _ _).1⟩, waiting_start⟩

theorem witness_InitializeTimesOut :
    let s := panel (some (2 + 1)) 24 (2 + 1)
    s.portBusy = true ∧ NoReset s ∧ AcksOk s 24 ∧ s.params.busyTimeoutPolls = some (2 + 1) ∧ BusyHeld s (2 + 1) :=
  ⟨rfl, panel_noReset _ _ _, panel_acks _ _ _, rfl, (panel_busy _ _ _).1⟩

theorem witness_UpdateTimesOut :
    let s := panel (some (0 + 1)) 11030 (0 + 1)
    s.session = .ready ∧ s.portBusy = true ∧ NoReset s ∧ AcksOk s 11030 ∧ s.params.busyTimeoutPolls = some (0 + 1) ∧
      BusyHeld s (0 + 1) :=
  ⟨rfl, rfl, panel_noReset _ _ _, panel_acks _ _ _, rfl, (panel_busy _ _ _).1⟩

theorem witness_InitializeHangsWhileBusy :
    let s := panel none 24 1000
    s.portBusy = true ∧ NoReset s ∧ AcksOk s 24 ∧ s.params.busyTimeoutPolls = none ∧ BusyHeld s 1000 :=
  ⟨rfl, panel_noReset _ _ _, panel_acks _ _ _, rfl, (panel_busy _ _ _).1⟩

/-- The action after `n` ok answers fails. -/
def breaking (k : Option Nat) (n m : Nat) : State :=
  { panel k n m with acks := List.replicate n true ++ [false] }

theorem breaking_acks (k : Option Nat) (n m : Nat) : AcksOk (breaking k n m) n ∧ (breaking k n m).ackAt n = false :=
  ⟨fun j hj => by simp [State.ackAt, breaking, List.getElem?_append_left, hj], by simp [State.ackAt, breaking]⟩

/-- INITIALIZE whose last action, after a busy wait of one asserted sample, fails; UPDATE and SLEEP whose first action
fails. -/
theorem witness_FirstFailureCutsTrace :
    (∃ pre e, let s := breaking (some 2) 45 1
      initTrace s.params 1 = pre ++ [e] ∧ e.fallible = true ∧ pre.countP Event.fallible = 45 ∧ s.portBusy = true ∧
        NoReset s ∧ AcksOk s 45 ∧ s.ackAt 45 = false ∧ BusyFor s 1 ∧ BoundAllows s 1 ∧
        exec .initializePanel s = .next (ran (exec .initializePanel s))) ∧
    (∃ e post, let s := breaking none 0 0
      updateTrace s.params s.fb 0 = [] ++ e :: post ∧ e.fallible = true ∧ s.session = .ready ∧ s.portBusy = true ∧
        NoReset s ∧ AcksOk s 0 ∧ s.ackAt 0 = false ∧ exec .update s = .next (ran (exec .update s))) ∧
    (∃ e post, let s := breaking none 0 0
      sleepTrace s.params = [] ++ e :: post ∧ e.fallible = true ∧ s.session = .ready ∧ s.portBusy = true ∧
        NoReset s ∧ AcksOk s 0 ∧ s.ackAt 0 = false ∧ exec .sleep s = .next (ran (exec .sleep s))) := by
  refine ⟨⟨_, _, (List.dropLast_append_getLast (l := initTrace (bounded (some 2)) 1) (by decide)).symm, by decide, by decide,
      rfl, panel_noReset (some 2) 45 1, (breaking_acks _ 45 _).1, (breaking_acks _ 45 _).2, panel_busy (some 2) 45 1,
      panel_bound 45 (k := 2) (m := 1) (by decide), rfl⟩,
    ⟨_, _, rfl, rfl, rfl, rfl, panel_noReset none 0 0, (breaking_acks _ 0 _).1, (breaking_acks _ 0 _).2, rfl⟩,
    ⟨_, _, rfl, rfl, rfl, rfl, panel_noReset none 0 0, (breaking_acks _ 0 _).1, (breaking_acks _ 0 _).2, rfl⟩⟩

/-- INITIALIZE and UPDATE with a finite bound, and SLEEP; no answer to an action is assumed. -/
theorem witness_SequenceCommandsRespond :
    let s := panel (some 3) 0 2
    s.portBusy = true ∧ NoReset s ∧ s.session = .ready ∧ BusyFor s 2 ∧ BoundAllows s 2 :=
  ⟨rfl, panel_noReset _ _ _, rfl, panel_busy _ _ _, panel_bound _ (by decide)⟩

/-- Two INITIALIZE commands offered, 92 ok answers, and twice one asserted sample. -/
theorem witness_InitializeTwiceEqualsOnce :
    let s : State := { panel (some 2) 92 0 with
      portBusy := false, offers := [0x0100000000000000, 0x0100000000000000], busyLevels := [true, false, true, false] }
    s.portBusy = false ∧ NoReset s ∧ s.offers = [0x0100000000000000#64, 0x0100000000000000#64] ∧ AcksOk s 92 ∧
      BusyFor s 1 ∧ (∀ k, k < 1 → s.busyAt (1 + 1 + k) = true) ∧ s.busyAt (2 * 1 + 1) = false ∧ BoundAllows s 1 :=
  ⟨rfl, panel_noReset (some 2) 92 0, rfl, panel_acks (some 2) 92 0,
    ⟨fun k hk => by obtain rfl : k = 0 := by omega
                    rfl, rfl⟩,
    fun k hk => by obtain rfl : k = 0 := by omega
                   rfl,
    rfl, panel_bound 92 (k := 2) (m := 1) (by decide)⟩

theorem witness_InitAndSleepIgnoreFramebuffer :
    (failing.resetStrikes = false ∧ failing.portBusy = true ∧ failing.seq ≠ .updateSeq ∧
      step failing = .next (ran (step failing))) ∧
    ((mid .initSeq .asleep 23 1 [.setControl true true]).resetStrikes = false ∧
      (mid .initSeq .asleep 23 1 [.setControl true true]).portBusy = true ∧
      (mid .initSeq .asleep 23 1 [.setControl true true]).seq ≠ .updateSeq ∧
      step (mid .initSeq .asleep 23 1 [.setControl true true]) =
        .next (ran (step (mid .initSeq .asleep 23 1 [.setControl true true])))) :=
  ⟨⟨rfl, rfl, by decide, rfl⟩, rfl, rfl, by decide, rfl⟩

/-- A written line for each kind of refusal and for a command, in both bases, and a first word that is no mnemonic. -/
theorem witness_AssemblerFollowsR56 :
    ((Instr.drawPixel (-32768) 16 255).wellFormed = true ∧
      [(Base.hexadecimal, (-32768 : Int)), (.decimal, 16), (.hexadecimal, 255)].map Prod.snd =
        operandsInOrder (.drawPixel (-32768) 16 255) ∧
      writtenLine (mnemonicOf .drawPixel) [(.hexadecimal, -32768), (.decimal, 16), (.hexadecimal, 255)] =
        "DRAW_PIXEL -0x8000, 16, 0xFF") ∧
    (¬OperandsFit .setOrientation [4] ∧ ¬OperandsFit .clear [-1] ∧ ¬OperandsFit .getPixel [32768, 0] ∧
      ¬OperandsFit .rawWrite [-1, 0, 0] ∧ ¬OperandsFit .readCell [65536]) ∧
    (¬OperandsFit .clear [] ∧ ¬OperandsFit .update [0]) ∧
    ("FLIP" ≠ "" ∧ ' ' ∉ "FLIP".toList ∧ ∀ op, "FLIP" ≠ mnemonicOf op) ∧
    assemble "GET_PIXEL 103, -1" = some (.getPixel 103 (-1)) :=
  ⟨⟨by decide, by decide, by decide⟩, by simp [OperandsFit], by simp [OperandsFit],
    ⟨by decide, by decide, fun op => by cases op <;> decide⟩, by decide⟩

theorem witness_PseudoInstructionsExpand :
    [0x00#8, 0x01#8, 0x00#8, 0xFF#8, 0x00#8, 0x00#8].length = 3 * 2 ∧ 2 < 3 ∧ 1 < 2 ∧
      [0x00#8, 0x01#8, 0x00#8, 0xFF#8, 0x00#8, 0x00#8][1 * 3 + 2]? = some 0x00#8 := by decide

end Sys2Proof.Machine.Tests
end

section
/-!
PROOFS. One event per step (R14, R44): a busy step logs one event, a step of the idle port none.
-/

namespace Sys2Proof.Machine

/-- A command that is executed logs nothing: a sequence it starts logs its first event in the next step (log entry 1). -/
theorem exec_trace {i : Instr} {s t : State} (h : exec i s = .next t) : t.trace = s.trace := by
  obtain ⟨-, -, -, -, trace⟩ := (exec_kept h).transport
  exact trace

/-- With the port busy a step is one event of the sequence in progress. -/
theorem step_busy_logs_one {s t : State} (hi : s.Inv) (hn : s.resetStrikes = false) (hb : s.portBusy = true)
    (h : step s = .next t) : ∃ e, t.trace = e :: s.trace := by
  have hr : Running s := hi.running hb
  obtain rfl : s.tick.sequence = t := by simpa using (step_running hr hn).symm.trans h
  have hsel : s.tick.Selected := hi.selected
  exact (State.sequence_leaves hr.tick hsel).event

/-- With the port idle a step waits, answers an illegal word or executes a command, and logs nothing. -/
theorem step_idle_logs_none {s t : State} (hn : s.resetStrikes = false) (hb : s.portBusy = false)
    (h : step s = .next t) : t.trace = s.trace := by
  cases step_cases h with
  | reset strikes => simp [hn] at strikes
  | event _ busy => simp [hb] at busy
  | waits _ _ _ next => simp [next]
  | illegal _ _ _ _ _ _ _ next => simp [next]
  | command _ _ _ _ _ _ _ next => simpa using exec_trace next

/-- Settles O12: a busy step is one event of a running sequence, by the invariant; an idle step keeps the trace, by the
cases of `step`. -/
theorem oneEventPerStep : Obligations.OneEventPerStep := by
  intro s t hi hn h
  exact ⟨fun hb => step_busy_logs_one hi hn hb h, fun hb => step_idle_logs_none hn hb h⟩

end Sys2Proof.Machine
end

section
/-!
PROOFS. The invariant (R18, R22, R25, R85, R96, R97): it holds at reset, and block reset, one event of a sequence, the wait
of an idle port, an illegal word and an executed command each keep it.
-/

namespace Sys2Proof.Machine

/-- A sequence ends in READY or ASLEEP (R97). -/
theorem SeqId.sessionAfter_ne_updating {q : SeqId} (hq : q ≠ .none) (session : Session) :
    q.sessionAfter session ≠ .updating := by
  cases q with
  | none => contradiction
  | initSeq | updateSeq | sleepSeq => simp [SeqId.sessionAfter]

/-- With the port idle and no sequence in progress, what is left of the invariant is the store, SESSION and the trace. -/
theorem State.Inv.idle {s : State} (memory : s.fb.wf) (busy : s.portBusy = false) (seq : s.seq = .none)
    (session : s.session ≠ .updating) (transfers : bytesSelected s.trace = true) : s.Inv where
  memory := memory
  busy := by simp [busy, seq]
  updating := by simp [session, seq]
  sleeping := by simp [seq]
  position := State.Placed.of_none seq
  selected := State.Selected.of_none seq
  transfers := transfers

/-- Settles O13: at reset the store is empty, the port is idle, SESSION is UNINITIALIZED and the trace is empty. -/
theorem resetMeetsInvariant : Obligations.ResetMeetsInvariant :=
  .idle ⟨.nil, by simp [State.reset]⟩ rfl rfl (by simp [State.reset]) rfl

/-- An idle port has no sequence in progress (R25). -/
theorem State.Inv.seq_none {s : State} (h : s.Inv) (hb : s.portBusy = false) : s.seq = .none := by
  by_contra hq
  simp [h.busy.2 hq] at hb

/-- An idle block is not UPDATING (R97). -/
theorem State.Inv.not_updating {s : State} (h : s.Inv) (hb : s.portBusy = false) : s.session ≠ .updating := by
  rw [Ne, h.updating, h.seq_none hb]
  simp

theorem State.Inv.tick {s : State} (h : s.Inv) : s.tick.Inv :=
  ⟨h.memory, h.busy, h.updating, h.sleeping, h.position, h.selected, h.transfers⟩

theorem State.Inv.blockReset {s : State} (h : s.Inv) : s.blockReset.Inv :=
  .idle ⟨.nil, by simp⟩ rfl rfl (by simp) h.transfers

/-- One event of a sequence keeps the invariant: either the sequence goes on from where the event leaves it, or the
command has ended. -/
theorem State.Inv.sequence {s : State} (h : s.Inv) (hb : s.portBusy = true) : s.sequence.Inv := by
  have hr : Running s := h.running hb
  have hl : EventLeaves s s.sequence := State.sequence_leaves hr h.selected
  have htr : bytesSelected s.sequence.trace = true := hl.transfers h.transfers
  obtain ⟨kept, -, ended⟩ := s.sequence_step
  have hm : s.sequence.fb.wf := by rw [kept.fb]; exact h.memory
  cases ended with
  | goesOn session seq _ busy _ =>
    exact ⟨hm, by rw [busy, seq]; exact h.busy, by rw [session, seq]; exact h.updating,
      by rw [session, seq]; exact h.sleeping, hl.placed, hl.selected, htr⟩
  | finished session seq _ busy _ =>
    exact .idle hm busy seq (by rw [session]; exact SeqId.sessionAfter_ne_updating hr.seq _) htr
  | failed session seq _ busy _ => exact .idle hm busy seq (by simp [session]) htr
  | timedOut session seq _ busy => exact .idle hm busy seq (by simp [session]) htr

/-- A sequence that starts in a busy block stands at the first event of its first primitive. -/
theorem State.Inv.startSeq {s : State} {q : SeqId} (hq : q ≠ .none) (memory : s.fb.wf) (busy : s.portBusy = true)
    (updating : s.session = .updating ↔ q = .updateSeq) (sleeping : q = .sleepSeq → s.session = .ready)
    (transfers : bytesSelected s.trace = true) : (s.startSeq q).Inv where
  memory := memory
  busy := by simp [busy, hq]
  updating := updating
  sleeping := sleeping
  position := fun _ => (Running.startSeq busy hq).position
  selected := State.Selected.of_phase (by simp)
  transfers := transfers

/-- An accepted command keeps the invariant: it answers with the port idle again, or it starts its sequence in the
SESSION the sequence runs in. -/
theorem State.Inv.exec {s t : State} {i : Instr} (h : s.Inv) (hb : s.portBusy = false) (ht : exec i s.accept = .next t) :
    t.Inv := by
  have hn : s.accept.session ≠ .updating := h.not_updating hb
  cases exec_ends ht with
  | answered _ _ _ _ _ busy session sequencer =>
    obtain ⟨seq, -⟩ := sequencer
    exact .idle (exec_wf ht h.memory) busy (seq.trans (h.seq_none hb)) (by rwa [session])
      (by rw [exec_trace ht]; exact h.transfers)
  | started q which =>
    rcases which with ⟨-, rfl, rfl⟩ | ⟨-, rfl, -, rfl⟩ | ⟨-, rfl, hready, rfl⟩
    · exact .startSeq (by simp) h.memory rfl (by simpa using hn) (by simp) h.transfers
    · exact .startSeq (by simp) h.memory rfl (by simp) (by simp) h.transfers
    · exact .startSeq (by simp) h.memory rfl (by simpa using hn) (fun _ => hready) h.transfers

/-- Settles O14, by the cases of `step`. -/
theorem stepKeepsInvariant : Obligations.StepKeepsInvariant := by
  intro s t h hs
  cases step_cases hs with
  | reset _ next => rw [next]; exact h.tick.blockReset
  | event _ busy _ next => rw [next]; exact h.tick.sequence busy
  | waits _ _ _ next => rw [next]; exact h.tick
  | illegal _ idle w ws offers e bad next =>
    rw [next]
    exact .idle (by simpa using h.memory) rfl (h.seq_none idle) (h.not_updating idle) h.transfers
  | command _ idle w ws offers i good next => exact h.tick.exec idle next

end Sys2Proof.Machine
end

section
/-!
PROOFS. Who writes what (R17, R27, R29): what a busy step keeps, and which command writes FB, ORIENT and PAGE.
-/

namespace Sys2Proof

theorem sext16_inS16 (v : BitVec 16) : InS16 (sext16 v) := by
  have h1 := v.toInt_lt
  have h2 := v.le_toInt
  unfold sext16 InS16
  omega

theorem zext16_inU16 (v : BitVec 16) : InU16 (zext16 v) := by
  have h := v.isLt
  unfold zext16 InU16
  omega

theorem operandsOf_wellFormed (w : CommandWord) (op : Opcode) : (operandsOf w op).wellFormed = true := by
  cases op with
  | initializePanel | update | sleep | readStatus | setOrientation | clear => rfl
  | setPage => exact decide_eq_true (sext16_inS16 _)
  | drawPixel | getPixel => exact decide_eq_true ⟨sext16_inS16 _, sext16_inS16 _⟩
  | rawWrite => exact decide_eq_true ⟨zext16_inU16 _, zext16_inU16 _⟩
  | readCell => exact decide_eq_true (zext16_inU16 _)

/-- The decoder gives well-formed commands only (R48). -/
theorem decode_wellFormed {w : CommandWord} {i : Instr} (h : decode w = .ok i) : i.wellFormed = true := by
  unfold decode at h
  split at h
  · cases h
  · split at h
    · cases h; exact operandsOf_wellFormed w _
    · cases h

end Sys2Proof

namespace Sys2Proof.Machine

/-- With the port busy a step is one event of the sequence in progress, in every state; with none it is no next state. -/
theorem step_busy_iff {s t : State} (hn : s.resetStrikes = false) (hb : s.portBusy = true) :
    step s = .next t ↔ s.seq ≠ .none ∧ s.tick.sequence = t := by
  by_cases hq : s.seq = .none <;> simp [step, hn, hb, advance, hq]

/-- An event goes on with the command, or gives its one response. -/
theorem EventEnd.answers {s t : State} (h : EventEnd s t) :
    (t.responses = s.responses ∧ t.portBusy = s.portBusy) ∨ ∃ r, Answers s t r := by
  cases h with
  | goesOn _ _ responses busy => exact .inl ⟨responses, busy⟩
  | finished _ _ responses busy => exact .inr ⟨_, responses, busy⟩
  | failed _ _ responses busy => exact .inr ⟨_, responses, busy⟩
  | timedOut _ _ responses busy => exact .inr ⟨_, responses, busy⟩

/-- Settles O8: a busy step is one event of a sequence, and no event changes what `Kept` lists. -/
theorem busyPortHoldsOffer : Obligations.BusyPortHoldsOffer := by
  intro s t hn hb h
  obtain ⟨-, rfl⟩ := (step_busy_iff hn hb).1 h
  obtain ⟨kept, -, ended⟩ := s.tick.sequence_step
  obtain ⟨cells, orient, page, -, offers⟩ := kept.frame
  have hend : (s.tick.sequence.responses = s.responses ∧ s.tick.sequence.portBusy = s.portBusy) ∨
      ∃ r, Answers s s.tick.sequence r := ended.answers
  rw [hb] at hend
  exact ⟨offers, cells, orient, page, hend⟩

/-- Settles O18: neither block reset, an event of a sequence, nor a command writes the parameters. -/
theorem parametersNeverChange : Obligations.ParametersNeverChange := by
  intro s t h
  cases step_cases h with
  | reset _ next => simp [next]
  | event _ _ _ next => rw [next]; exact s.tick.sequence_step.kept.params
  | waits _ _ _ next => simp [next]
  | illegal _ _ _ _ _ _ _ next => simp [next]
  | command _ _ _ _ _ _ _ next => exact (exec_kept next).params

/-- The registers and cells the host can see: FB, ORIENT and PAGE (R29). -/
structure SameVisible (s t : State) : Prop where
  fb : t.fb = s.fb
  orient : t.orient = s.orient
  page : t.page = s.page

/-- Where block reset does not strike, only the execution of an accepted command changes FB, ORIENT or PAGE. -/
theorem step_sameVisible_or_exec {s t : State} (h : step s = .next t) (hn : s.resetStrikes = false) :
    SameVisible s t ∨ (s.portBusy = false ∧
      ∃ w i, s.offers.head? = some w ∧ decode w = .ok i ∧ exec i s.tick.accept = .next t) := by
  cases step_cases h with
  | reset strikes => simp [hn] at strikes
  | event _ _ _ next =>
    have kept := s.tick.sequence_step.kept
    rw [← next] at kept
    exact .inl ⟨kept.fb, kept.orient, kept.page⟩
  | waits _ _ _ next => subst next; exact .inl ⟨rfl, rfl, rfl⟩
  | illegal _ _ _ _ _ _ _ next => subst next; exact .inl ⟨rfl, rfl, rfl⟩
  | command _ idle w ws offers i good next => exact .inr ⟨idle, w, i, by simp [offers], good, next⟩

/-- Each of FB, ORIENT and PAGE stays, or the command is one of its writers (R17). -/
theorem exec_writers {i : Instr} {s t : State} (h : exec i s = .next t) :
    (t.fb = s.fb ∨ (writesFb i = true ∧ s.session = .ready)) ∧
      (t.orient = s.orient ∨ i = .setOrientation t.orient) ∧
      (t.page = s.page ∨ ∃ p, i = .setPage p ∧ t.page = BitVec.ofInt 16 p) := by
  cases exec_ends h with
  | answered _ _ _ _ _ _ _ _ fb orient page => exact ⟨fb, orient, page⟩
  | started q which =>
    rcases which with ⟨-, -, rfl⟩ | ⟨-, -, -, rfl⟩ | ⟨-, -, -, rfl⟩ <;> exact ⟨.inl rfl, .inl rfl, .inl rfl⟩

/-- SET_PAGE's operand, as it comes from a word, is the signed value of what it writes (R48, R103). -/
theorem toInt_of_decode_setPage {w : CommandWord} {p : Int} (h : decode w = .ok (.setPage p)) :
    (BitVec.ofInt 16 p).toInt = p :=
  sext16_ofInt (by simpa [Instr.wellFormed] using decode_wellFormed h)

/-- Settles O17: a change is the work of an accepted command, and the command is one of the writers. -/
theorem visibleStateHasOnlyItsWriters : Obligations.VisibleStateHasOnlyItsWriters := by
  intro s t h hn
  rcases step_sameVisible_or_exec h hn with same | ⟨idle, w, i, offered, good, next⟩
  · exact ⟨fun hne => absurd same.orient hne, fun hne => absurd same.page hne,
      fun hne => absurd (fun a => by rw [same.fb]) hne⟩
  · obtain ⟨hfb, horient, hpage⟩ := exec_writers next
    refine ⟨fun hne => ⟨idle, w, offered, ?_⟩, fun hne => ⟨idle, w, offered, ?_⟩, fun hne => ?_⟩
    · rw [good, ← horient.resolve_left hne]
    · obtain ⟨p, rfl, hp⟩ := hpage.resolve_left hne
      rw [good, hp, toInt_of_decode_setPage good]
    · have hne' : t.fb ≠ s.tick.accept.fb := fun heq => hne fun a => by rw [heq]; rfl
      obtain ⟨hw, hready⟩ := hfb.resolve_left hne'
      exact ⟨idle, hready, w, i, offered, good, hw⟩

end Sys2Proof.Machine
end

section
/-!
PROOFS. INIT_SEQ and SLEEP_SEQ do not read the framebuffer (R17, R90, R92): they have no stream.
-/

namespace Sys2Proof.Machine

/-- Only UPDATE_SEQ has streams (R90 to R92). -/
theorem SeqId.streamLength_none {q : SeqId} (hq : q ≠ .updateSeq) {ps : Params} {p : Primitive} (hp : p ∈ q.prims ps) :
    p.streamLength = .none := by
  revert p
  cases q with
  | updateSeq => contradiction
  | none => simp [SeqId.prims]
  | initSeq => simp [SeqId.prims, initSeqPrims, Primitive.streamLength]
  | sleepSeq => simp [SeqId.prims, sleepSeqPrims, Primitive.streamLength]

/-- Settles O58: no primitive of INIT_SEQ or SLEEP_SEQ is a stream, and an event of no stream goes the same way with
another framebuffer. -/
theorem initAndSleepIgnoreFramebuffer : Obligations.InitAndSleepIgnoreFramebuffer := by
  intro s t fb hn hb hq h
  obtain ⟨seq, rfl⟩ := (step_busy_iff hn hb).1 h
  have noStream : ∀ p, s.tick.current = some p → p ≠ .sendDataFb ∧ ∀ v n, p ≠ .sendDataFill v n := by
    intro p hp
    have hl := SeqId.streamLength_none hq (List.mem_of_getElem? hp)
    constructor
    · rintro rfl; cases hl
    · rintro v n rfl; cases hl
  have hseq : (s.withFb fb).tick.sequence = s.tick.sequence.withFb fb := s.tick.withFb_sequence fb noStream
  exact (step_busy_iff (s := s.withFb fb) hn hb).2 ⟨seq, hseq⟩

end Sys2Proof.Machine
end

section
/-!
PROOFS. The registers (R20 to R25): their values at reset, the commands that write and read them, and the sequencer's
registers where a sequence starts.
-/

namespace Sys2Proof

/-- The encoding of ORIENT as R20 lists it. -/
theorem Orientation.code_toNat (o : Orientation) :
    o.code.toNat = if o = .deg0 then 0 else if o = .deg90 then 1 else if o = .deg180 then 2 else 3 := by
  cases o <;> rfl

end Sys2Proof

namespace Sys2Proof.Machine

/-- Settles O11: the values of `State.reset`; a cell of the empty store reads 0x00. -/
theorem resetStateHasSpecValues : Obligations.ResetStateHasSpecValues :=
  ⟨fun _ => rfl, rfl, rfl, rfl, rfl, rfl, rfl, rfl, rfl⟩

/-- A response changes the port and the responses alone. -/
theorem State.respond_quiet (s : State) (st : Status) (data : BitVec 28) : QuietFrame s (s.respond st data) :=
  ⟨⟨rfl, rfl, rfl⟩, ⟨rfl, rfl, rfl, rfl, rfl⟩, ⟨rfl, rfl, rfl, rfl, rfl⟩, ⟨rfl, rfl, rfl⟩⟩

/-- Settles O43: the command is the write of ORIENT and the response. -/
theorem setOrientationWritesOrient : Obligations.SetOrientationWritesOrient := by
  intro s o
  obtain ⟨-, sequencer, transport, hostSide⟩ := ({ s with orient := o } : State).respond_quiet .ok 0
  exact ⟨_, rfl, rfl, ⟨rfl, rfl⟩, fun _ => rfl, rfl, rfl, sequencer, transport, hostSide⟩

/-- Settles O44: the command is the write of PAGE and the response, and an s16 value reads back from 16 bits. -/
theorem setPageWritesPage : Obligations.SetPageWritesPage := by
  intro s p hp
  have readBack : (BitVec.ofInt 16 p).toInt = p := sext16_ofInt hp
  obtain ⟨-, sequencer, transport, hostSide⟩ := ({ s with page := BitVec.ofInt 16 p } : State).respond_quiet .ok 0
  exact ⟨_, rfl, readBack, ⟨rfl, rfl⟩, fun _ => rfl, rfl, rfl, sequencer, transport, hostSide⟩

/-- The encoding of SESSION as R22 lists it. -/
theorem Session.code_toNat (session : Session) :
    session.code.toNat =
      if session = .uninitialized then 0 else if session = .ready then 1 else if session = .asleep then 2 else 3 := by
  cases session <;> rfl

/-- Settles O45: each field of the response word is a field of `statusData`. -/
theorem readStatusAnswersRegisters : Obligations.ReadStatusAnswersRegisters := by
  intro s
  refine ⟨_, responseWord .ok (statusData s.session s.orient s.page), rfl, ⟨rfl, rfl⟩, fun _ => rfl,
    s.respond_quiet _ _, ?_, ?_, ?_, statusData_above _ _ _⟩
  · rw [responseWord_field _ _ (by omega), statusData_page]
  · rw [responseWord_field _ _ (by omega), statusData_orient, Orientation.code_toNat]
  · rw [responseWord_field _ _ (by omega), statusData_session, Session.code_toNat]

/-- Settles O46: each of the three commands is a `startSeq`, UPDATE's after SESSION is UPDATING. -/
theorem sequenceStartsAtFirstPrimitive : Obligations.SequenceStartsAtFirstPrimitive := by
  intro s i q session hi
  have hexec : exec i s = .next (({ s with session := session } : State).startSeq q) := by
    rcases hi with ⟨rfl, rfl, rfl⟩ | ⟨rfl, rfl, hready, rfl⟩ | ⟨rfl, rfl, hready, rfl⟩
    · rfl
    · exact if_pos hready
    · rw [← hready]; exact if_pos hready
  refine ⟨_, hexec, rfl, rfl, rfl, rfl, rfl, rfl, rfl, fun _ => rfl, rfl, rfl, ?_, ?_⟩
  · exact ⟨rfl, rfl, rfl, rfl, rfl⟩
  · exact ⟨rfl, rfl, rfl⟩

end Sys2Proof.Machine
end

section
/-!
PROOFS. UPDATE_SEQ (R91, R100): the events UPDATE starts are `updateTrace` of the framebuffer as it stands, they are
answered as planned, and the run of them ends the command.
-/

namespace Sys2Proof.Machine

/-- UPDATE in READY sets SESSION to UPDATING and starts its sequence (R100). -/
theorem exec_update_ready {s : State} (h : s.session = .ready) :
    exec .update s = .next (({ s with session := .updating } : State).startSeq .updateSeq) := if_pos h

/-- The transport answers UPDATE_SEQ as planned when its 11030 actions are answered ok and busy is released after `m`
asserted samples, within the bound. -/
theorem follows_updateTrace {s : State} {m : Nat} (ha : AcksOk s 11030) (hw : BusyFor s m) (hk : BoundAllows s m)
    (hp : s.polled = 0) : Follows s (updateTrace s.params s.fb m) := by
  rw [updateTrace_wait, ← List.append_assoc]
  refine .of_wait (noSample_updateTraceHead _ _) rfl (le_of_eq ?_) ha hw hk hp
  rw [List.append_nil]
  exact countP_fallible_updateTrace _ _ _

/-- UPDATE_SEQ in a busy block, every action ok and busy released within the bound, runs to its end. -/
theorem run_updateSeq {s : State} {m : Nat} (hb : s.portBusy = true) (hn : NoReset s) (ha : AcksOk s 11030)
    (hw : BusyFor s m) (hk : BoundAllows s m) :
    ∃ u, Finished (s.startSeq .updateSeq) u (updateTrace s.params s.fb m) := by
  have hr : Running (s.startSeq .updateSeq) := .startSeq hb (by simp)
  have hne : updateTrace s.params s.fb m ≠ [] := by simp [updateTrace, waitEvents]
  exact run_all hr hn (planRest_updateSeq s m) hne
    (follows_updateTrace (s := s.startSeq .updateSeq) ha hw hk (polled_startSeq _ _))

/-- Settles O48: the run of UPDATE_SEQ from the state UPDATE leaves, with SESSION UPDATING and the same framebuffer. -/
theorem updateStreamsFramebuffer : Obligations.UpdateStreamsFramebuffer := by
  intro s m hs hb hn ha hw hk
  obtain ⟨u, hu⟩ := run_updateSeq (s := { s with session := .updating }) hb hn ha hw hk
  exact ⟨_, _, u, exec_update_ready hs, rfl, hu.run, hu.session, ⟨hu.responses, hu.busy⟩, hu.seq, hu.trace,
    hu.kept.frame⟩

end Sys2Proof.Machine
end

section
/-!
PROOFS. The address of a physical position (R32, R68): rows of 104 pixels are rows of 13 whole cells, so cell and bit are
those of the linear pixel index.
-/

namespace Sys2Proof.Machine

/-- Settles O28: `yp * 104` is `yp * 13` whole cells, also where `xp` goes past the end of its row. -/
theorem addressIsLinearIndex : Obligations.AddressIsLinearIndex := by
  intro xp yp p _ hy h
  obtain ⟨-, hcell, hbit⟩ := (cellStage_some hy).1 h
  have hrow : yp * 104 + xp = xp + 8 * (yp * 13) := by omega
  rw [hrow]
  constructor
  · rw [hcell, Int.add_mul_ediv_left _ _ (by decide)]
  · rw [hbit, Int.add_mul_emod_self_left]

end Sys2Proof.Machine
end

section
/-!
PROOFS. The encoding (R46 to R51, R62): the decoder reads back what the encoder writes, and it refuses exactly the illegal
words.
-/

namespace Sys2Proof

open Sys2Proof.Machine

theorem Opcode.code_injective : Function.Injective Opcode.code := by
  intro op op' h
  rw [← Option.some_inj, ← Opcode.ofCode_code op, h, Opcode.ofCode_code op']

theorem operandsOf_opcode (w : CommandWord) (op : Opcode) : (operandsOf w op).opcode = op := by cases op <;> rfl

/-- The decoder in one equivalence: opcode, must-be-zero bits and operands (R47 to R51). -/
theorem decode_ok_iff {w : CommandWord} {i : Instr} :
    decode w = .ok i ↔
      opcField w = i.opcode.code ∧ w &&& i.opcode.format.reserved = 0 ∧ operandsOf w i.opcode = i := by
  constructor
  · intro h
    unfold decode at h
    split at h
    · cases h
    next op hop =>
      split at h
      next hz =>
        cases h
        rw [operandsOf_opcode]
        exact ⟨(Opcode.ofCode_some hop).symm, hz, rfl⟩
      next => cases h
  · rintro ⟨hc, hz, hi⟩
    simp only [decode, hc, Opcode.ofCode_code, hz, if_true, hi]

/-- Which words decode to the command of a given opcode (R50, R51). -/
theorem decode_ok_opcode_iff {w : CommandWord} {op : Opcode} :
    (∃ i, decode w = .ok i ∧ i.opcode = op) ↔ opcField w = op.code ∧ w &&& op.format.reserved = 0 := by
  constructor
  · rintro ⟨i, h, rfl⟩
    obtain ⟨hc, hz, -⟩ := decode_ok_iff.1 h
    exact ⟨hc, hz⟩
  · rintro ⟨hc, hz⟩
    have ho := operandsOf_opcode w op
    refine ⟨operandsOf w op, decode_ok_iff.2 ?_, ho⟩
    rw [ho]
    exact ⟨hc, hz, rfl⟩

/-! ## From a command to its word and back -/

theorem Orientation.ofCode_code (o : Orientation) : Orientation.ofCode o.code = o := by cases o <;> rfl

/-- The operands of a well-formed command are read back from its word (R48). -/
theorem operandsOf_encode {i : Instr} (h : i.wellFormed = true) : operandsOf (encode i) i.opcode = i := by
  cases i with
  | initializePanel | update | sleep | readStatus => rfl
  | setOrientation o => cases o <;> rfl
  | clear value => simp [operandsOf, Instr.opcode, encode, Instr.fields]
  | setPage p =>
    have hp : InS16 p := of_decide_eq_true h
    simp [operandsOf, Instr.opcode, encode, Instr.fields, sext16_ofInt hp]
  | drawPixel x y color =>
    obtain ⟨hx, hy⟩ : InS16 x ∧ InS16 y := of_decide_eq_true h
    simp [operandsOf, Instr.opcode, encode, Instr.fields, sext16_ofInt hx, sext16_ofInt hy]
  | rawWrite x y color =>
    obtain ⟨hx, hy⟩ : InU16 x ∧ InU16 y := of_decide_eq_true h
    simp [operandsOf, Instr.opcode, encode, Instr.fields, zext16_ofNat hx, zext16_ofNat hy]
  | getPixel x y =>
    obtain ⟨hx, hy⟩ : InS16 x ∧ InS16 y := of_decide_eq_true h
    simp [operandsOf, Instr.opcode, encode, Instr.fields, sext16_ofInt hx, sext16_ofInt hy]
  | readCell addr =>
    have ha : InU16 addr := of_decide_eq_true h
    simp [operandsOf, Instr.opcode, encode, Instr.fields, zext16_ofNat ha]

theorem opcField_encode (i : Instr) : opcField (encode i) = i.opcode.code := opcField_packWord _ _ _ _

/-- Settles O1: the word has the command's opcode, no reserved bit, and the command's operands. -/
theorem decodeEncodeRoundTrip : Obligations.DecodeEncodeRoundTrip := fun i h =>
  decode_ok_iff.2 ⟨opcField_encode i, encode_reserved i, operandsOf_encode h⟩

/-! ## From a word to its command and back -/

theorem extractLsb'_eq_zero {w : CommandWord} {start len : Nat}
    (h : ∀ k, start ≤ k → k < start + len → w.getLsbD k = false) : w.extractLsb' start len = 0 := by
  apply BitVec.eq_of_getLsbD_eq
  intro k hk
  rw [BitVec.getLsbD_extractLsb', h (start + k) (by omega) (by omega)]
  simp

theorem Orientation.code_ofCode (b : BitVec 2) : (Orientation.ofCode b).code = b := by
  revert b; decide

/-- `A8` is the orientation field when its upper six bits are zero (R46, R47). -/
theorem orientField_setWidth {w : CommandWord} (h : ∀ k, 50 ≤ k → k ≤ 55 → w.getLsbD k = false) :
    (orientField w).setWidth 8 = argField w := by
  apply BitVec.eq_of_getLsbD_eq
  intro k hk
  rw [BitVec.getLsbD_setWidth, orientField, argField, BitVec.getLsbD_extractLsb', BitVec.getLsbD_extractLsb']
  by_cases h2 : k < 2
  · simp [h2, hk]
  · simp [h2, h (48 + k) (by omega) (by omega)]

theorem ofInt_sext16 (v : BitVec 16) : BitVec.ofInt 16 (sext16 v) = v := BitVec.ofInt_toInt

theorem ofNat_zext16 (v : BitVec 16) : BitVec.ofNat 16 (zext16 v) = v := by simp [zext16]

/-- Where the must-be-zero bits are 0, the operands fill the fields the word has (R47, R48). -/
theorem fields_operandsOf {w : CommandWord} {op : Opcode}
    (hz : ∀ k, mustBeZero op.format k = true → w.getLsbD k = false) :
    (operandsOf w op).fields = (argField w, xField w, yField w) := by
  have arg (h : ∀ k, k < 48 + 8 → 48 ≤ k → mustBeZero op.format k = true) : argField w = 0 :=
    extractLsb'_eq_zero fun k h1 h2 => hz k (h k h2 h1)
  have x (h : ∀ k, k < 16 + 16 → 16 ≤ k → mustBeZero op.format k = true) : xField w = 0 :=
    extractLsb'_eq_zero fun k h1 h2 => hz k (h k h2 h1)
  have y (h : ∀ k, k < 0 + 16 → 0 ≤ k → mustBeZero op.format k = true) : yField w = 0 :=
    extractLsb'_eq_zero fun k h1 h2 => hz k (h k h2 h1)
  cases op with
  | initializePanel | update | sleep | readStatus =>
    rw [arg (by decide), x (by decide), y (by decide)]
    rfl
  | setOrientation =>
    have ho : (orientField w).setWidth 8 = argField w :=
      orientField_setWidth fun k h1 h2 => hz k (decide_eq_true (.inr ⟨h1, h2⟩))
    simp [operandsOf, Instr.fields, Orientation.code_ofCode, ho, x (by decide), y (by decide)]
  | setPage =>
    simp [operandsOf, Instr.fields, ofInt_sext16, arg (by decide), x (by decide)]
  | clear =>
    simp [operandsOf, Instr.fields, x (by decide), y (by decide)]
  | drawPixel => simp [operandsOf, Instr.fields, ofInt_sext16]
  | rawWrite => simp [operandsOf, Instr.fields, ofNat_zext16]
  | getPixel => simp [operandsOf, Instr.fields, ofInt_sext16, arg (by decide)]
  | readCell =>
    simp [operandsOf, Instr.fields, ofNat_zext16, arg (by decide), x (by decide)]

/-- `RSV` must be zero in every format (R46, R47). -/
theorem mustBeZero_rsv (f : Format) {k : Nat} (h1 : 32 ≤ k) (h2 : k ≤ 47) : mustBeZero f k = true := by
  cases f <;> simp [mustBeZero] <;> omega

/-- The word of the command a word decodes to is that word. -/
theorem encode_of_decode {w : CommandWord} {i : Instr} (h : decode w = .ok i) : encode i = w := by
  obtain ⟨hc, hr, hi⟩ := decode_ok_iff.1 h
  have hz := (Format.reserved_iff _ w).1 hr
  have hf : i.fields = (argField w, xField w, yField w) := by rw [← hi]; exact fields_operandsOf hz
  calc encode i = packWord (opcField w) (argField w) (xField w) (yField w) := by rw [encode, hf, hc]
    _ = w := (eq_packWord_fields w fun k h1 h2 => hz k (mustBeZero_rsv _ h1 h2)).symm

/-- Settles O2: the operands are in range, and they fill the fields the word has. -/
theorem encodeDecodeRoundTrip : Obligations.EncodeDecodeRoundTrip := fun _ _ h =>
  ⟨decode_wellFormed h, encode_of_decode h⟩

/-! ## Illegal words -/

/-- A word is legal when some opcode is its own and no bit of that opcode's format that must be zero is set. -/
theorem not_illegalWord_iff {w : CommandWord} :
    ¬IllegalWord w ↔ ∃ op : Opcode, opcField w = op.code ∧ w &&& op.format.reserved = 0 := by
  simp only [Format.reserved_iff]
  constructor
  · intro h
    rw [IllegalWord, not_or] at h
    obtain ⟨hdef, hres⟩ := h
    push Not at hdef hres
    obtain ⟨op, hop⟩ := hdef
    exact ⟨op, hop, fun k hk => by simpa using hres op k hop hk⟩
  · rintro ⟨op, hop, hz⟩ (hu | ⟨op', k, hop', hk, hset⟩)
    · exact hu op hop
    · obtain rfl : op = op' := Opcode.code_injective (hop.symm.trans hop')
      simp [hz k hk] at hset

/-- The decoder refuses exactly the illegal words. -/
theorem illegalWord_iff_decode_error {w : CommandWord} : IllegalWord w ↔ ∃ e, decode w = .error e := by
  rw [← not_iff_not, not_illegalWord_iff]
  simp only [← decode_ok_opcode_iff]
  cases hd : decode w with
  | ok i => simp
  | error e => simp

/-- Settles O3: legal is what some opcode's command decodes from, and the decoder gives that opcode's command. -/
theorem decoderRejectsExactlyIllegalWords : Obligations.DecoderRejectsExactlyIllegalWords := fun _ =>
  ⟨illegalWord_iff_decode_error, fun _ h => (decode_ok_iff.1 h).1⟩

/-! ## The opcode table -/

/-- The word of every command matches the command's row (R62). -/
theorem encode_tableRow (i : Instr) : encode i &&& i.opcode.tableMask = i.opcode.tableMatch := by
  cases i with
  | initializePanel => exact Laws.TableRow.initializePanel
  | update => exact Laws.TableRow.update
  | sleep => exact Laws.TableRow.sleep
  | readStatus => exact Laws.TableRow.readStatus
  | setOrientation o => exact Laws.TableRow.setOrientation o
  | setPage p => exact Laws.TableRow.setPage p
  | clear value => exact Laws.TableRow.clear value
  | drawPixel x y color => exact Laws.TableRow.drawPixel x y color
  | rawWrite x y color => exact Laws.TableRow.rawWrite x y color
  | getPixel x y => exact Laws.TableRow.getPixel x y
  | readCell addr => exact Laws.TableRow.readCell addr

theorem opcField_and (v w : CommandWord) : opcField (v &&& w) = opcField v &&& opcField w :=
  BitVec.extractLsb'_and

/-- A row's mask covers `OPC` and the format's must-be-zero bits; its match has the opcode there and zeros (R47, R62). -/
theorem Opcode.tableRow_covers (op : Opcode) :
    opcField op.tableMask = BitVec.allOnes 8 ∧ opcField op.tableMatch = op.code ∧
      op.tableMask &&& op.format.reserved = op.format.reserved ∧ op.tableMatch &&& op.format.reserved = 0 := by
  cases op <;> decide

/-- A word that matches a row has the row's opcode and zeros where its format must have them. -/
theorem fields_of_tableRow {w : CommandWord} {op : Opcode} (h : w &&& op.tableMask = op.tableMatch) :
    opcField w = op.code ∧ w &&& op.format.reserved = 0 := by
  obtain ⟨maskOpc, matchOpc, maskRes, matchRes⟩ := op.tableRow_covers
  constructor
  · rw [← matchOpc, ← h, opcField_and, maskOpc, BitVec.and_allOnes]
  · rw [← maskRes, ← BitVec.and_assoc, h, matchRes]

/-- Settles O4: a command's word matches its row, and a word that matches a row has the row's opcode and no reserved bit,
so it decodes to a command of that row and of no other. -/
theorem opcodeTableSelectsCommands : Obligations.OpcodeTableSelectsCommands := by
  constructor
  · intro w op
    constructor
    · rintro ⟨i, h, rfl⟩
      rw [← encode_of_decode h]
      exact encode_tableRow i
    · exact fun h => decode_ok_opcode_iff.2 (fields_of_tableRow h)
  · intro w op op' h h'
    apply Opcode.code_injective
    rw [← (fields_of_tableRow h).1, ← (fields_of_tableRow h').1]

/-- Settles O5: the decoder is run on each word. -/
theorem sampleWordsDecode : Obligations.SampleWordsDecode := by
  unfold Obligations.SampleWordsDecode
  decide

end Sys2Proof
end

section
/-!
PROOFS. The responses (R53 to R55, R110): what an illegal word is answered, which responses a step can give, and what
GET_PIXEL and READ_CELL answer.
-/

namespace Sys2Proof.Machine

/-- An idle port executes the word on offer (R96). -/
theorem step_idle_offer {s : State} {w : CommandWord} {ws : List CommandWord} (hn : s.resetStrikes = false)
    (hb : s.portBusy = false) (ho : s.offers = w :: ws) : step s = execWord w s.tick.accept := by
  simp [step, hn, hb, State.offered, ho]

/-- An illegal word is answered, and that is all (R50, R51). -/
theorem execWord_illegal {w : CommandWord} (hw : IllegalWord w) (s : State) :
    execWord w s = .next (s.respond .illegalCommand 0) := by
  obtain ⟨e, he⟩ := illegalWord_iff_decode_error.1 hw
  simp only [execWord, he]
  rfl

/-- Settles O7: the word is executed where the port accepts it, and the response is all its execution does. -/
theorem illegalWordAnsweredWithoutEffect : Obligations.IllegalWordAnsweredWithoutEffect := by
  intro s w ws hn hb ho hw
  obtain ⟨registers, sequencer, transport, params, -, -⟩ := s.tick.accept.respond_quiet .illegalCommand 0
  refine ⟨_, (step_idle_offer hn hb ho).trans (execWord_illegal hw _), ⟨rfl, rfl⟩, fun _ => rfl, registers, sequencer,
    transport, params, ?_⟩
  simp [ho]

theorem Status.code_toNat_le (st : Status) : st.code.toNat ≤ 5 := by cases st <;> decide

theorem Status.code_ne_zero {st : Status} (h : st.code ≠ 0#4) : st ≠ .ok := by rintro rfl; exact h rfl

/-- An event of a sequence responds with DATA 0 or not at all. -/
theorem EventEnd.response {s t : State} (h : EventEnd s t) :
    t.responses = s.responses ∨ ∃ st, Answers s t (responseWord st 0) := by
  cases h with
  | goesOn _ _ responses => exact .inl responses
  | finished _ _ responses busy => exact .inr ⟨.ok, responses, busy⟩
  | failed _ _ responses busy => exact .inr ⟨.transportFailure, responses, busy⟩
  | timedOut _ _ responses busy => exact .inr ⟨.panelTimeout, responses, busy⟩

theorem exec_response {i : Instr} {s t : State} (h : exec i s = .next t) :
    t.responses = s.responses ∨ ∃ st data, Answers s t (responseWord st data) ∧ (st ≠ .ok → data = 0) := by
  cases exec_ends h with
  | answered st data responses _ zero busy => exact .inr ⟨st, data, ⟨responses, busy⟩, zero⟩
  | started q which => rcases which with ⟨-, -, rfl⟩ | ⟨-, -, -, rfl⟩ | ⟨-, -, -, rfl⟩ <;> exact .inl rfl

/-- How a step responds: not at all, or with one response, whose DATA is 0 unless its STATUS is OK (R53, R54). -/
theorem step_response {s t : State} (h : step s = .next t) :
    t.responses = s.responses ∨ ∃ st data, Answers s t (responseWord st data) ∧ (st ≠ .ok → data = 0) := by
  cases step_cases h with
  | reset _ next => subst next; exact .inl rfl
  | event _ _ _ next =>
    subst next
    exact s.tick.sequence_step.ended.response.imp_right fun ⟨st, answers⟩ => ⟨st, 0, answers, fun _ => rfl⟩
  | waits _ _ _ next => subst next; exact .inl rfl
  | illegal _ _ _ _ _ _ _ next => subst next; exact .inr ⟨.illegalCommand, 0, ⟨rfl, rfl⟩, fun _ => rfl⟩
  | command _ _ _ _ _ _ _ next => exact exec_response (s := s.tick.accept) next

/-- Settles O19: the response of a step is a `responseWord`, and STATUS and DATA are read back from it. -/
theorem responsesAreLegal : Obligations.ResponsesAreLegal := by
  intro s t h hne
  obtain ⟨st, data, answers, zero⟩ := (step_response h).resolve_left hne
  refine ⟨_, answers, ?_, ?_⟩
  · rw [responseWord_status]
    exact st.code_toNat_le
  · rw [responseWord_status, responseWord_data]
    exact fun hst => zero (Status.code_ne_zero hst)

/-- GET_PIXEL's answer is the stored bit in DATA[0] (R55). -/
theorem responseWord_bit (v : Bool) :
    responseWord .ok (bitData v) = if v then 0x00000001#32 else 0x00000000#32 := by
  cases v <;> decide

theorem exec_getPixel_some {s : State} {x y : Int} {p : PixelAddr} (h : pixelTarget s.orient s.page x y = some p) :
    exec (.getPixel x y) s = .next (s.respond .ok (bitData (s.pixelBit p))) := by
  simp only [exec, execGetPixel, h]

theorem exec_getPixel_none {s : State} {x y : Int} (h : pixelTarget s.orient s.page x y = none) :
    exec (.getPixel x y) s = .next (s.respond .invalidCoordinate 0) := by
  simp only [exec, execGetPixel, h]
  rfl

/-- Settles O39, by the outcome of the pixel pipeline. -/
theorem getPixelAnswersStoredBit : Obligations.GetPixelAnswersStoredBit := by
  intro s x y
  cases h : pixelTarget s.orient s.page x y with
  | some p =>
    refine ⟨_, exec_getPixel_some h, fun _ => rfl, s.respond_quiet _ _, ?_, by simp⟩
    rintro _ ⟨⟩
    exact ⟨congrArg (· :: s.responses) (responseWord_bit _), rfl⟩
  | none =>
    exact ⟨_, exec_getPixel_none h, fun _ => rfl, s.respond_quiet _ _, by simp, fun _ => ⟨rfl, rfl⟩⟩

theorem exec_readCell_inside {s : State} {addr : Nat} (h : addr < 2756) :
    exec (.readCell addr) s = .next (s.respond .ok (cellData (s.fb.read addr))) := dif_pos h

theorem exec_readCell_outside {s : State} {addr : Nat} (h : ¬addr < 2756) :
    exec (.readCell addr) s = .next (s.respond .invalidCoordinate 0) := dif_neg h

/-- Settles O40, by the bound of the store. -/
theorem readCellAnswersCell : Obligations.ReadCellAnswersCell := by
  intro s addr
  by_cases h : addr < 2756
  · refine ⟨_, exec_readCell_inside h, fun _ => rfl, s.respond_quiet _ _, fun _ => ?_, by omega⟩
    rw [← responseWord_cell]
    exact ⟨rfl, rfl⟩
  · exact ⟨_, exec_readCell_outside h, fun _ => rfl, s.respond_quiet _ _, by omega, fun _ => ⟨rfl, rfl⟩⟩

end Sys2Proof.Machine
end

section
/-!
PROOFS. The assembler and the pseudo-instructions (R56, R57).
-/

namespace Sys2Proof.Machine

/-- The example lines of R56's table and their words. -/
theorem assemble_examples :
    (assemble "INITIALIZE").map encode = some 0x0100000000000000 ∧
    (assemble "UPDATE").map encode = some 0x0200000000000000 ∧
    (assemble "SLEEP").map encode = some 0x0300000000000000 ∧
    (assemble "READ_STATUS").map encode = some 0x0400000000000000 ∧
    (assemble "SET_ORIENTATION 2").map encode = some 0x1002000000000000 ∧
    (assemble "SET_PAGE -1").map encode = some 0x110000000000FFFF ∧
    (assemble "CLEAR 0xFF").map encode = some 0x20FF000000000000 ∧
    (assemble "DRAW_PIXEL 5, 10, 0").map encode = some 0x210000000005000A ∧
    (assemble "RAW_WRITE 104, 0, 1").map encode = some 0x2201000000680000 ∧
    (assemble "GET_PIXEL -1, 0").map encode = some 0x30000000FFFF0000 ∧
    (assemble "READ_CELL 2755").map encode = some 0x3100000000000AC3 := by decide

/-- The line written for a well-formed command assembles to it. -/
theorem assemble_written {i : Instr} {texts : List (Base × Int)} (hw : i.wellFormed = true)
    (ht : texts.map Prod.snd = operandsInOrder i) : assemble (writtenLine (mnemonicOf i.opcode) texts) = some i := by
  rw [assemble_writtenLine, withOperands_filter_eq_some]
  exact ⟨rfl, ht.symm, hw⟩

/-- A line whose operands do not fit its mnemonic is refused. -/
theorem assemble_unfit {op : Opcode} {texts : List (Base × Int)} (h : ¬OperandsFit op (texts.map Prod.snd)) :
    assemble (writtenLine (mnemonicOf op) texts) = none := by
  rw [assemble_writtenLine, withOperands_filter_eq_none h]

/-- The assembler's last step refuses what is not well formed. -/
theorem assemble_wellFormed {line : String} {i : Instr} (h : assemble line = some i) : i.wellFormed = true := by
  obtain ⟨op, -, hf⟩ := Option.bind_eq_some_iff.1 h
  exact (Option.filter_eq_some_iff.1 hf).2

/-- Settles O59: a written line is read back operand by operand, and what is accepted is well formed, so its word
decodes. -/
theorem assemblerFollowsR56 : Obligations.AssemblerFollowsR56 := by
  refine ⟨assemble_examples, fun _ _ => assemble_written, fun _ _ => assemble_unfit,
    fun _ rest hne hsp hm => assemble_unknown hne hsp hm rest, fun _ i h => ?_⟩
  have hw := assemble_wellFormed h
  exact ⟨hw, decodeEncodeRoundTrip i hw⟩

theorem intRange_of_length (a : Int) (n : Nat) :
    intRange a (a + n - 1) = (List.range n).map fun (k : Nat) => a + (k : Int) := by
  rw [intRange, show (a + n - 1 - a + 1).toNat = n by omega]

theorem length_flatMap_range {α : Type} {f : Nat → List α} {w : Nat} (hf : ∀ j, (f j).length = w) (h : Nat) :
    ((List.range h).flatMap f).length = h * w := by
  simp [List.length_flatMap, hf]

/-- Rows of equal length one after another: entry `i` of row `j` (row-major order). -/
theorem getElem?_flatMap_range {α : Type} {f : Nat → List α} {w : Nat} (hf : ∀ j, (f j).length = w) {h i j : Nat}
    (hi : i < w) (hj : j < h) : ((List.range h).flatMap f)[j * w + i]? = (f j)[i]? := by
  induction h with
  | zero => omega
  | succ h ih =>
    rw [List.range_succ, List.flatMap_append, List.flatMap_singleton]
    rcases Nat.lt_succ_iff_lt_or_eq.1 hj with hlt | rfl
    · have hin : j * w + i < ((List.range h).flatMap f).length := by
        calc j * w + i < (j + 1) * w := by rw [Nat.succ_mul]; omega
          _ ≤ h * w := Nat.mul_le_mul_right w hlt
          _ = _ := (length_flatMap_range hf h).symm
      rw [List.getElem?_append_left hin, ih hlt]
    · rw [List.getElem?_append_right (by rw [length_flatMap_range hf]; omega), length_flatMap_range hf,
        Nat.add_sub_cancel_left]

/-- Row `j` of a rectangle of `w` columns with its corner at `(x0, y0)`. -/
def flushRow (x0 y0 : Int) (w j : Nat) : List (Int × Int) :=
  (List.range w).map fun (i : Nat) => (x0 + (i : Int), y0 + (j : Int))

theorem length_flushRow (x0 y0 : Int) (w j : Nat) : (flushRow x0 y0 w j).length = w := by simp [flushRow]

theorem flushPixels_rows (x0 y0 : Int) (w h : Nat) :
    flushPixels x0 y0 (x0 + w - 1) (y0 + h - 1) = (List.range h).flatMap (flushRow x0 y0 w) := by
  simp only [flushPixels, intRange_of_length, List.flatMap_map, List.map_map]
  rfl

theorem length_flushPixels (x0 y0 : Int) (w h : Nat) :
    (flushPixels x0 y0 (x0 + w - 1) (y0 + h - 1)).length = w * h := by
  rw [flushPixels_rows, length_flatMap_range (length_flushRow x0 y0 w), Nat.mul_comm]

/-- The pixel in column `i` of row `j` of a FLUSH (R57). -/
theorem getElem?_flushPixels (x0 y0 : Int) {w h i j : Nat} (hi : i < w) (hj : j < h) :
    (flushPixels x0 y0 (x0 + w - 1) (y0 + h - 1))[j * w + i]? = some (x0 + i, y0 + j) := by
  rw [flushPixels_rows, getElem?_flatMap_range (length_flushRow x0 y0 w) hi hj]
  simp [flushRow, hi]

/-- Settles O60: the draws of a FLUSH are its pixels zipped with their colors. -/
theorem pseudoInstructionsExpand : Obligations.PseudoInstructionsExpand := by
  refine ⟨rfl, rfl, rfl, fun x0 y0 w h colors hlen => ?_⟩
  have hpixels := length_flushPixels x0 y0 w h
  refine ⟨_, if_pos (hlen.trans hpixels.symm), by simp [hpixels, hlen], fun i j c hi hj hc => ?_⟩
  rw [List.getElem?_zipWith, getElem?_flushPixels x0 y0 hi hj, hc]

end Sys2Proof.Machine
end

section
/-!
PROOFS. The pixel pipeline (R63 to R68): what its five stages answer, where the orientation transform leads, and what paging
discards.
-/

namespace Sys2Proof.Machine

/-- The orientation transform as R65 lists it. -/
theorem orientTransform_eq_iff {o : Orientation} {x y xp yp : Int} :
    orientTransform o x y = (xp, yp) ↔
      (o = .deg0 → xp = x ∧ yp = y) ∧ (o = .deg90 → xp = 104 - y - 1 ∧ yp = x) ∧
      (o = .deg180 → xp = 104 - x - 1 ∧ yp = 212 - y - 1) ∧ (o = .deg270 → xp = y ∧ yp = 212 - x - 1) := by
  cases o <;> simp [orientTransform, eq_comm]

/-- Settles O26: `pixelTarget_some` with the orientation and the page transform written out. -/
theorem pixelTargetFollowsPipeline : Obligations.PixelTargetFollowsPipeline := by
  intro o page x y p
  rw [pixelTarget_some]
  refine and_congr_right fun _ => ⟨?_, ?_⟩
  · rintro ⟨yp, hpage, hx, hcell, hbit⟩
    obtain ⟨h0, h90, h180, h270⟩ := orientTransform_eq_iff.1 (Prod.eta (orientTransform o x y)).symm
    exact ⟨_, _, yp, h0, h90, h180, h270, pageTransform_some.1 hpage, hx, hcell, hbit⟩
  · rintro ⟨xp, yo, yp, h0, h90, h180, h270, hpage, hx, hcell, hbit⟩
    rw [orientTransform_eq_iff.2 ⟨h0, h90, h180, h270⟩]
    exact ⟨yp, pageTransform_some.2 hpage, hx, hcell, hbit⟩

/-- Settles O27: the equations of the transform, with the logical bounds. -/
theorem orientTransformRanges : Obligations.OrientTransformRanges := by
  intro o x y xp yp hx hy h
  obtain ⟨h0, h90, h180, h270⟩ := orientTransform_eq_iff.1 h
  refine ⟨fun ho => ?_, fun ho => ?_, fun ho => ?_, fun ho => ?_⟩
  · have := h0 ho; omega
  · have := h90 ho; omega
  · have := h180 ho; omega
  · have := h270 ho; omega

/-- Settles O32: a physical row lies in 0 to 211, so a page of 1 or more moves it above the panel (R66). -/
theorem pagingDiscardsEverything : Obligations.PagingDiscardsEverything := by
  intro o page x y hpage
  refine pixelTarget_none.2 fun p h => ?_
  obtain ⟨hb, yp, hyp, -⟩ := pixelTarget_some.1 h
  have hrow := orientTransform_row (o := o) hb
  have := pageTransform_some.1 hyp
  omega

end Sys2Proof.Machine
end

section
/-!
PROOFS. Reachability with paging off (R70): each stored bit lies at one physical position, the orientation transform has
an inverse, and so a stored bit has at most one source among the coordinates that stay within their row.
-/

namespace Sys2Proof.Machine

/-- The physical column of a stored bit (R32). -/
def PixelAddr.column (p : PixelAddr) : Int := 8 * (p.cell.val % 13 : Nat) + (7 - p.bit.val)

/-- The physical row of a stored bit (R32). -/
def PixelAddr.row (p : PixelAddr) : Int := (p.cell.val / 13 : Nat)

theorem PixelAddr.column_bounds (p : PixelAddr) : 0 ≤ p.column ∧ p.column < 104 := by
  unfold column
  omega

theorem PixelAddr.row_bounds (p : PixelAddr) : 0 ≤ p.row ∧ p.row < 212 := by
  have := p.cell.isLt
  simp only [row, Config.cells] at *
  omega

/-- A position within its row is addressed by the one stored bit that lies there. -/
theorem cellStage_some_iff_position {xp yp : Int} {p : PixelAddr} (hx : xp < 104) (hy : 0 ≤ yp) :
    cellStage xp yp = some p ↔ xp = p.column ∧ yp = p.row := by
  rw [cellStage_some hy]
  unfold PixelAddr.column PixelAddr.row
  omega

/-- A position is discarded left of the panel, and where the store has no cell (R67, R68). -/
theorem cellStage_none {xp yp : Int} : cellStage xp yp = none ↔ xp < 0 ∨ 2756 ≤ xp / 8 + yp * 13 := by
  unfold cellStage pixelAddr
  split
  next h => simp [h]
  next h =>
    simp only [dite_eq_right_iff, reduceCtorEq, imp_false, Config.cells]
    omega

/-- With paging off an in-range coordinate goes from the orientation transform to the address. -/
theorem pixelTarget_inRange {o : Orientation} {page : BitVec 16} {x y : Int} (hp : page.toInt < 1)
    (hb : InLogicalBounds x y) :
    pixelTarget o page x y = cellStage (orientTransform o x y).1 (orientTransform o x y).2 := by
  have hpage : pageTransform page (orientTransform o x y).2 = some (orientTransform o x y).2 :=
    pageTransform_some.2 (.inl ⟨hp, rfl⟩)
  rw [pixelTarget, if_pos hb, hpage, Option.bind_some]

/-- With paging off an in-range coordinate is discarded by the x sign or for want of a cell. -/
theorem pixelTarget_inRange_none {o : Orientation} {page : BitVec 16} {x y : Int} (hp : page.toInt < 1)
    (hb : InLogicalBounds x y) :
    pixelTarget o page x y = none ↔
      (orientTransform o x y).1 < 0 ∨ 2756 ≤ (orientTransform o x y).1 / 8 + (orientTransform o x y).2 * 13 := by
  rw [pixelTarget_inRange hp hb, cellStage_none]

/-- The logical coordinate the orientation transform takes to the position of a stored bit. -/
def PixelAddr.source (p : PixelAddr) : Orientation → Int × Int
  | .deg0 => (p.column, p.row)
  | .deg90 => (p.row, 103 - p.column)
  | .deg180 => (103 - p.column, 211 - p.row)
  | .deg270 => (211 - p.row, p.column)

theorem orientTransform_eq_position_iff {o : Orientation} {x y : Int} {p : PixelAddr} :
    (orientTransform o x y).1 = p.column ∧ (orientTransform o x y).2 = p.row ↔
      x = (p.source o).1 ∧ y = (p.source o).2 := by
  cases o <;> simp only [orientTransform, PixelAddr.source] <;> omega

/-- With paging off, a coordinate that stays within its row (in ORIENT 3 this is y < 104) has a stored bit for its target
exactly when it is in range and the source of the bit. -/
theorem pixelTarget_some_iff_source {o : Orientation} {page : BitVec 16} {x y : Int} {p : PixelAddr}
    (hp : page.toInt < 1) (hy : o = .deg270 → y < 104) :
    pixelTarget o page x y = some p ↔ InLogicalBounds x y ∧ x = (p.source o).1 ∧ y = (p.source o).2 := by
  by_cases hb : InLogicalBounds x y
  · have hx : (orientTransform o x y).1 < 104 := by
      obtain ⟨_, _, _, _⟩ := hb
      cases o <;> simp only [orientTransform, true_imp_iff] at hy ⊢ <;> omega
    rw [pixelTarget_inRange hp hb, cellStage_some_iff_position hx (orientTransform_row hb).1,
      orientTransform_eq_position_iff, and_iff_right hb]
  · simp [pixelTarget, hb]

/-- A stored bit whose source is in range is the target of its source and of no other coordinate that stays within its
row. -/
theorem pixelTarget_source_unique {o : Orientation} {page : BitVec 16} {p : PixelAddr} (hp : page.toInt < 1)
    (hb : InLogicalBounds (p.source o).1 (p.source o).2) :
    ∃ x y : Int, (o = .deg270 → y < 104) ∧ pixelTarget o page x y = some p ∧
      ∀ x' y', (o = .deg270 → y' < 104) → pixelTarget o page x' y' = some p → x' = x ∧ y' = y := by
  have hrow : o = .deg270 → (p.source o).2 < 104 := by
    rintro rfl
    exact p.column_bounds.2
  exact ⟨_, _, hrow, (pixelTarget_some_iff_source hp hrow).2 ⟨hb, rfl, rfl⟩,
    fun _ _ hy h => ((pixelTarget_some_iff_source hp hy).1 h).2⟩

/-- Settles O29: in ORIENT 0 and 2 the source of every stored bit is in range, and the physical position of an in-range
coordinate has a cell. -/
theorem orient0And2AreBijective : Obligations.Orient0And2AreBijective := by
  intro o page ho hp
  refine ⟨fun p => ?_, fun x y hx hy => ?_⟩
  · have hcol := p.column_bounds
    have hrow := p.row_bounds
    have hb : InLogicalBounds (p.source o).1 (p.source o).2 := by
      rcases ho with rfl | rfl <;> simp only [PixelAddr.source] <;> omega
    have hne : o ≠ .deg270 := by rcases ho with rfl | rfl <;> decide
    simpa [hne] using pixelTarget_source_unique hp hb
  · refine Option.ne_none_iff_exists'.1 fun h => ?_
    rw [pixelTarget_inRange_none hp ⟨hx.1, hx.2, hy⟩] at h
    rcases ho with rfl | rfl <;> simp only [orientTransform] at h <;> omega

/-- Settles O30: in ORIENT 1 the physical column is 103 - y, the x sign discards y >= 104, and the physical row is x. -/
theorem orient1ReachesFirstRows : Obligations.Orient1ReachesFirstRows := by
  intro page hp
  refine ⟨fun x y hx hy => ?_, fun p => ⟨fun hcell => ?_, fun hcell x y h => ?_⟩⟩
  · rw [pixelTarget_inRange_none hp ⟨hx.1, hx.2, hy⟩]
    simp only [orientTransform]
    omega
  · have hcol := p.column_bounds
    have hrow : 0 ≤ p.row ∧ p.row < 104 := by unfold PixelAddr.row; omega
    have hb : InLogicalBounds (p.source .deg90).1 (p.source .deg90).2 := by simp only [PixelAddr.source]; omega
    simpa using pixelTarget_source_unique hp hb
  · obtain ⟨hb, -, haddr, -⟩ := (pixelTarget_unpaged hp).1 h
    simp only [orientTransform] at haddr
    omega

/-- Settles O31: in ORIENT 3 the physical row is 211 - x and the physical column y, which goes past the end of its row
from y = 104 on. -/
theorem orient3AliasesLastRows : Obligations.Orient3AliasesLastRows := by
  intro page hp
  refine ⟨fun p hcell => ?_, fun x y p h => ?_, fun x y hx hy => ?_, ?_, ?_⟩
  · have hcol := p.column_bounds
    have hrow : 108 ≤ p.row ∧ p.row < 212 := ⟨by unfold PixelAddr.row; omega, p.row_bounds.2⟩
    have hb : InLogicalBounds (p.source .deg270).1 (p.source .deg270).2 := by simp only [PixelAddr.source]; omega
    simpa using pixelTarget_source_unique hp hb
  · obtain ⟨hb, hxp, haddr, -⟩ := (pixelTarget_unpaged hp).1 h
    simp only [orientTransform] at hxp haddr
    omega
  · rw [pixelTarget_inRange_none hp ⟨hx.1, hx.2, hy⟩]
    simp only [orientTransform]
    omega
  · exact (pixelTarget_inRange hp (by decide)).trans (by decide)
  · exact (pixelTarget_inRange hp (by decide)).trans (by decide)

end Sys2Proof.Machine
end

section
/-!
PROOFS. The commands that write the framebuffer, in READY (R69 to R74): what each of them does, and that a painted pixel
reads back and stays as it is when it is painted again.
-/

namespace Sys2Proof.Machine

theorem exec_clear_ready {s : State} (hs : s.session = .ready) (value : Byte) :
    exec (.clear value) s = .next ((s.withFb (Memory.fill value)).respond .ok 0) := if_pos hs

theorem exec_clear_leaves {s t : State} {value : Byte} (hs : s.session = .ready) (h : exec (.clear value) s = .next t) :
    t.session = .ready ∧ t.fb = Memory.fill value := by
  obtain rfl := Host.Outcome.next.inj ((exec_clear_ready hs value).symm.trans h)
  exact ⟨hs, rfl⟩

theorem exec_drawPixel_some {s : State} {x y : Int} {p : PixelAddr} (hs : s.session = .ready)
    (h : pixelTarget s.orient s.page x y = some p) (color : Byte) :
    exec (.drawPixel x y color) s = .next ((s.writeBit p color).respond .ok 0) := by
  simp only [exec, execDrawPixel, hs, h, if_true]

theorem exec_drawPixel_none {s : State} {x y : Int} (hs : s.session = .ready)
    (h : pixelTarget s.orient s.page x y = none) (color : Byte) :
    exec (.drawPixel x y color) s = .next (s.respond .ok 0) := by
  simp only [exec, execDrawPixel, hs, h, if_true]

theorem exec_rawWrite_some {s : State} {x y : Nat} {p : PixelAddr} (hs : s.session = .ready)
    (h : rawTarget x y = some p) (color : Byte) :
    exec (.rawWrite x y color) s = .next ((s.writeBit p color).respond .ok 0) := by
  simp only [exec, execRawWrite, hs, h, if_true]

theorem exec_rawWrite_none {s : State} {x y : Nat} (hs : s.session = .ready) (h : rawTarget x y = none) (color : Byte) :
    exec (.rawWrite x y color) s = .next (s.respond .invalidCoordinate 0) := by
  simp only [exec, execRawWrite, hs, h, if_true]
  rfl

/-- A write of the framebuffer alone, with its response, is quiet. -/
theorem State.withFb_respond_quiet (s : State) (fb : Memory) (st : Status) (data : BitVec 28) :
    QuietFrame s ((s.withFb fb).respond st data) := s.respond_quiet st data

/-- The stored bit after a pixel write (R69). -/
theorem State.pixelBit_writeBit {s : State} (hm : s.fb.wf) (p : PixelAddr) (color : Byte) :
    (s.writeBit p color).pixelBit p = decide (color = 0) := by
  obtain ⟨-, hbit⟩ := State.writeBit_pixelWritten hm p color
  exact (hbit p.bit.val p.bit.isLt).trans (if_pos rfl)

/-- The cell after a pixel write. -/
theorem State.cell_writeBit {s : State} (hm : s.fb.wf) (p : PixelAddr) (color : Byte) :
    (s.writeBit p color).cell p.cell = paintBit (s.cell p.cell) p.bit color :=
  (Memory.read_write hm _ _ _).trans (if_pos rfl)

theorem paintBit_paintBit (old : Byte) (b : Fin 8) (color : Byte) :
    paintBit (paintBit old b color) b color = paintBit old b color := by
  refine BitVec.eq_of_getLsbD_eq fun k hk => ?_
  rw [paintBit_getLsbD _ _ _ hk]
  split
  next hb => rw [paintBit_getLsbD _ _ _ hk, if_pos hb]
  next => rfl

/-- A pixel write that is done again writes the cell's own value. -/
theorem State.writeBit_writeBit_fb {s : State} (hm : s.fb.wf) (p : PixelAddr) (color : Byte) :
    ((s.writeBit p color).writeBit p color).fb = (s.writeBit p color).fb := by
  have hwf : (s.writeBit p color).fb.wf := Memory.wf_write hm p.cell.isLt _
  rw [State.writeBit_fb (s.writeBit p color), State.cell_writeBit hm, paintBit_paintBit, ← State.cell_writeBit hm]
  exact Memory.write_read hwf p.cell.isLt

/-- Settles O33: the store CLEAR leaves is `Memory.fill`. -/
theorem clearFillsEveryCell : Obligations.ClearFillsEveryCell := fun s value hs =>
  ⟨_, exec_clear_ready hs value, ⟨rfl, rfl⟩, fun _ ha => Memory.read_fill value ha, s.withFb_respond_quiet _ _ _⟩

/-- Settles O34: `Memory.fill` does not read the store before it, and 0x00 is what an unlisted cell reads (R18). -/
theorem clearTwiceEqualsReset : Obligations.ClearTwiceEqualsReset := by
  intro s t u hs ht hu
  obtain ⟨ready, -⟩ := exec_clear_leaves hs ht
  obtain ⟨-, filled⟩ := exec_clear_leaves ready hu
  exact filled.trans (if_pos rfl)

/-- Settles O35, by the outcome of the pixel pipeline. -/
theorem drawPixelWritesOneBit : Obligations.DrawPixelWritesOneBit := by
  intro s x y color hm hs
  cases h : pixelTarget s.orient s.page x y with
  | some p =>
    refine ⟨_, exec_drawPixel_some hs h color, ⟨rfl, rfl⟩, s.withFb_respond_quiet _ _ _, ?_, by simp⟩
    rintro _ ⟨⟩
    exact State.writeBit_pixelWritten hm p color
  | none => exact ⟨_, exec_drawPixel_none hs h color, ⟨rfl, rfl⟩, s.respond_quiet _ _, by simp, fun _ _ => rfl⟩

/-- Settles O36: the first stage of the pipeline discards the coordinate. -/
theorem outOfBoundsDrawIsDiscarded : Obligations.OutOfBoundsDrawIsDiscarded := by
  intro s x y color hs hout
  have hdiscard : pixelTarget s.orient s.page x y = none := if_neg (by omega)
  exact ⟨_, exec_drawPixel_none hs hdiscard color, ⟨rfl, rfl⟩, fun _ => rfl, s.respond_quiet _ _⟩

/-- Settles O37: inside the panel RAW_WRITE has a target, which `rawTarget_some` names. -/
theorem rawWriteWritesOneBit : Obligations.RawWriteWritesOneBit := by
  intro s x y color hm hs hx hy
  obtain ⟨p, hp⟩ : ∃ p, rawTarget x y = some p := Option.ne_none_iff_exists'.1 (mt rawTarget_none.1 (by omega))
  obtain ⟨-, -, hcell, hbit⟩ := rawTarget_some.1 hp
  exact ⟨_, p, exec_rawWrite_some hs hp color, hcell, hbit, State.writeBit_pixelWritten hm p color, ⟨rfl, rfl⟩,
    s.withFb_respond_quiet _ _ _⟩

/-- Settles O38: outside the panel RAW_WRITE has no target. -/
theorem rawWriteRejectsOutside : Obligations.RawWriteRejectsOutside := fun s _ _ color hs hout =>
  ⟨_, exec_rawWrite_none hs (rawTarget_none.2 hout) color, ⟨rfl, rfl⟩, fun _ => rfl, s.respond_quiet _ _⟩

/-- Settles O41: DRAW_PIXEL leaves ORIENT and PAGE, so GET_PIXEL reads the bit it wrote. -/
theorem getPixelReadsBackDraw : Obligations.GetPixelReadsBackDraw := by
  intro s x y color hm hs hkept
  obtain ⟨p, hp⟩ := Option.ne_none_iff_exists'.1 hkept
  refine ⟨_, _, exec_drawPixel_some hs hp color, exec_getPixel_some hp, ?_, rfl⟩
  have hbit : ((s.writeBit p color).respond .ok 0).pixelBit p = decide (color = 0) := State.pixelBit_writeBit hm p color
  rw [hbit, State.respond_responses, responseWord_bit]
  simp only [decide_eq_true_eq]

/-- Settles O42: the first write leaves ORIENT, PAGE and SESSION, so the second has the same target or none again. -/
theorem pixelWriteIsIdempotent : Obligations.PixelWriteIsIdempotent := by
  rintro s i hm hs (⟨x, y, color, rfl⟩ | ⟨x, y, color, rfl⟩)
  · cases h : pixelTarget s.orient s.page x y with
    | some p =>
      exact ⟨_, _, exec_drawPixel_some hs h color,
        exec_drawPixel_some (s := (s.writeBit p color).respond .ok 0) hs h color, State.writeBit_writeBit_fb hm p color⟩
    | none =>
      exact ⟨_, _, exec_drawPixel_none hs h color, exec_drawPixel_none (s := s.respond .ok 0) hs h color, rfl⟩
  · cases h : rawTarget x y with
    | some p =>
      exact ⟨_, _, exec_rawWrite_some hs h color,
        exec_rawWrite_some (s := (s.writeBit p color).respond .ok 0) hs h color, State.writeBit_writeBit_fb hm p color⟩
    | none =>
      exact ⟨_, _, exec_rawWrite_none hs h color,
        exec_rawWrite_none (s := s.respond .invalidCoordinate 0) hs h color, rfl⟩

end Sys2Proof.Machine
end

section
/-!
PROOFS. The errors of a sequence (R79, R89, R113, R114): an action that fails ends it with TRANSPORT_FAILURE, and
PANEL_TIMEOUT comes from the WAIT_BUSY of INIT_SEQ or UPDATE_SEQ alone.
-/

namespace Sys2Proof.Machine

/-- A step that logs an event is an event of the sequence in progress. -/
theorem step_logs {s t : State} {e : Event} (h : step s = .next t) (ht : t.trace = e :: s.trace) :
    t = s.tick.sequence := by
  cases step_cases h with
  | reset _ next => simp [next] at ht
  | event _ _ _ next => exact next
  | waits _ _ _ next => simp [next] at ht
  | illegal _ _ _ _ _ _ _ next => simp [next] at ht
  | command _ _ _ _ _ _ _ next => simp [exec_trace next] at ht

/-- An event that logs a failed action is the failure that ends the sequence. -/
theorem EventEnd.of_failed {s t : State} {e : Event} (h : EventEnd s t) (ht : t.trace = e :: s.trace)
    (he : e.failed = true) :
    Answers s t (responseWord .transportFailure 0) ∧ t.seq = .none ∧ t.session = .uninitialized := by
  have unfailed : ¬(t.trace = s.trace ∨ ∃ e, e.failed = false ∧ t.trace = e :: s.trace) := by
    rw [ht]
    rintro (same | ⟨_, ok, logged⟩)
    · simp at same
    · cases logged
      simp [he] at ok
  cases h with
  | goesOn _ _ _ _ trace => exact absurd trace unfailed
  | finished _ _ _ _ trace => exact absurd trace unfailed
  | failed session seq responses busy => exact ⟨⟨responses, busy⟩, seq, session⟩
  | timedOut _ _ _ _ trace => exact absurd (.inr ⟨.readBusy true, rfl, trace⟩) unfailed

/-- Settles O20: the step is an event of the sequence, and of the ways an event ends only the failure logs a failed
action. -/
theorem failedActionEndsSequence : Obligations.FailedActionEndsSequence := by
  intro s t e h ht he
  obtain rfl := step_logs h ht
  obtain ⟨kept, -, ended⟩ := s.tick.sequence_step
  obtain ⟨answers, seq, session⟩ := ended.of_failed ht he
  exact ⟨answers, seq, session, kept.frame⟩

/-- What an event that answers PANEL_TIMEOUT has seen: an asserted sample in WAIT_BUSY, with the bound reached by it. -/
structure BoundReached (s t : State) : Prop where
  bound : ∃ k, s.params.busyTimeoutPolls = some k ∧ k ≤ s.pollCount + 1
  trace : t.trace = .readBusy true :: s.trace
  waiting : s.current = some .waitBusy

/-- A response tells its STATUS. -/
theorem status_of_response {a b : Status} {x y : BitVec 28} {rs : List ResponseWord}
    (h : responseWord a x :: rs = responseWord b y :: rs) : a = b :=
  (responseWord_inj (List.cons.inj h).1).1

/-- Of the ways an event ends only the bound reached answers PANEL_TIMEOUT. -/
theorem EventEnd.of_panelTimeout {s t : State} (h : EventEnd s t)
    (ht : t.responses = responseWord .panelTimeout 0 :: s.responses) : BoundReached s t := by
  cases h with
  | goesOn _ _ responses => simp [responses] at ht
  | finished _ _ responses => cases status_of_response (responses.symm.trans ht)
  | failed _ _ responses => cases status_of_response (responses.symm.trans ht)
  | timedOut _ _ _ _ trace waiting k bound reached => exact ⟨⟨k, bound, reached⟩, trace, waiting⟩

/-- A command answers PANEL_TIMEOUT in no step that executes it: its sequence has to run first. -/
theorem exec_ne_panelTimeout {i : Instr} {s t : State} (h : exec i s = .next t) :
    t.responses ≠ responseWord .panelTimeout 0 :: s.responses := by
  intro ht
  cases exec_ends h with
  | answered st data responses precise =>
    obtain ⟨-, noTimeout⟩ := precise
    exact noTimeout (status_of_response (responses.symm.trans ht))
  | started q which => rcases which with ⟨-, -, rfl⟩ | ⟨-, -, -, rfl⟩ | ⟨-, -, -, rfl⟩ <;> simp at ht

/-- Only an event of a sequence in progress answers PANEL_TIMEOUT. -/
theorem step_boundReached {s t : State} (h : step s = .next t)
    (ht : t.responses = responseWord .panelTimeout 0 :: s.responses) : BoundReached s.tick t := by
  cases step_cases h with
  | reset _ next => simp [next] at ht
  | event _ _ _ next =>
    subst next
    exact s.tick.sequence_step.ended.of_panelTimeout ht
  | waits _ _ _ next => simp [next] at ht
  | illegal _ _ _ _ _ _ _ next =>
    subst next
    cases status_of_response ht
  | command _ _ _ _ _ _ _ next => exact absurd ht (exec_ne_panelTimeout (s := s.tick.accept) next)

/-- Where the sequences have their WAIT_BUSY (R90 to R92). -/
theorem SeqId.wait_position {q : SeqId} {ps : Params} {i : Nat} (h : (q.prims ps)[i]? = some .waitBusy) :
    (q = .initSeq ∧ i = 12) ∨ (q = .updateSeq ∧ i = 6) := by
  have hmem := List.mem_of_getElem? h
  obtain ⟨hl, -⟩ := List.getElem?_eq_some_iff.1 h
  cases q with
  | none => simp [SeqId.prims] at hmem
  | sleepSeq => simp [SeqId.prims, sleepSeqPrims] at hmem
  | initSeq =>
    simp only [SeqId.prims, initSeqPrims, List.length_cons, List.length_nil] at hl h
    interval_cases i <;> simp_all
  | updateSeq =>
    simp only [SeqId.prims, updateSeqPrims, List.length_cons, List.length_nil] at hl h
    interval_cases i <;> simp_all

/-- Settles O22: the response comes from a WAIT_BUSY whose bound is reached, and the sequences have one at these steps
only. -/
theorem panelTimeoutCause : Obligations.PanelTimeoutCause := by
  rintro s t h ⟨responses, -⟩
  obtain ⟨bound, trace, waiting⟩ := step_boundReached h responses
  exact ⟨bound, trace, SeqId.wait_position waiting⟩

end Sys2Proof.Machine
end

section
/-!
PROOFS. INIT_SEQ and SLEEP_SEQ run to their end (R90, R92, R99, R101), and how many events of each kind the three
sequences have (R95).
-/

namespace Sys2Proof.Machine

/-- INITIALIZE starts its sequence in every SESSION (R99). -/
theorem exec_initializePanel (s : State) : exec .initializePanel s = .next (s.startSeq .initSeq) := rfl

/-- SLEEP in READY starts its sequence (R101). -/
theorem exec_sleep_ready {s : State} (h : s.session = .ready) : exec .sleep s = .next (s.startSeq .sleepSeq) := if_pos h

/-- INIT_SEQ in a busy block, every action ok and busy released within the bound, runs to its end. -/
theorem run_initSeq {s : State} {m : Nat} (hb : s.portBusy = true) (hn : NoReset s) (ha : AcksOk s 46)
    (hw : BusyFor s m) (hk : BoundAllows s m) : ∃ u, Finished (s.startSeq .initSeq) u (initTrace s.params m) := by
  have hr : Running (s.startSeq .initSeq) := .startSeq hb (by simp)
  have hf : Follows (s.startSeq .initSeq) (initTrace s.params m) :=
    .of_wait (noSample_initTraceHead _) (noSample_initTraceTail _) (countP_fallible_initTrace _ _).le ha hw hk
      (polled_startSeq _ _)
  exact run_all hr hn (planRest_initSeq s m) (by simp [initTrace, waitEvents]) hf

/-- SLEEP_SEQ in a busy block, every action ok, runs to its end. -/
theorem run_sleepSeq {s : State} (hb : s.portBusy = true) (hn : NoReset s) (ha : AcksOk s 10) :
    ∃ u, Finished (s.startSeq .sleepSeq) u (sleepTrace s.params) := by
  have hr : Running (s.startSeq .sleepSeq) := .startSeq hb (by simp)
  have hf : Follows (s.startSeq .sleepSeq) (sleepTrace s.params) :=
    .of_acks (noSample_sleepTrace _) (countP_fallible_sleepTrace _).le ha
  exact run_all hr hn (planRest_sleepSeq s 0) (by simp [sleepTrace, cmdEvents]) hf

/-- Settles O47: the run of INIT_SEQ from the state INITIALIZE leaves. -/
theorem initializeRunsInitSequence : Obligations.InitializeRunsInitSequence := by
  intro s m hb hn ha hw hk
  obtain ⟨u, hu⟩ := run_initSeq hb hn ha hw hk
  exact ⟨_, _, u, exec_initializePanel s, hu.run, hu.session, ⟨hu.responses, hu.busy⟩, hu.seq, hu.trace, hu.kept.frame⟩

/-- Settles O49: the run of SLEEP_SEQ from the state SLEEP leaves. -/
theorem sleepRunsSleepSequence : Obligations.SleepRunsSleepSequence := by
  intro s hs hb hn ha
  obtain ⟨u, hu⟩ := run_sleepSeq hb hn ha
  exact ⟨_, _, u, exec_sleep_ready hs, hu.run, hu.session, ⟨hu.responses, hu.busy⟩, hu.seq, hu.trace, hu.kept.frame⟩

/-- UPDATE_SEQ as its three commands and what follows each (R91). -/
theorem updateTrace_parts (p : Params) (fb : Memory) (m : Nat) :
    updateTrace p fb m = cmdEvents p.cmdDtm1 ++ streamEvents fillBytes ++ cmdEvents p.cmdDtm2 ++
      streamEvents (cellsInOrder fb) ++ cmdEvents p.cmdDisplayRefresh ++ ([.delay .refresh] ++ waitEvents m) := by
  rw [updateTrace, updateTraceHead, List.append_assoc _ [_]]

/-- A stream of 2756 bytes has 2756 writes and as many selections of the data line, and none of the command line (R86,
R87). -/
theorem streamEvents_sizes {bs : List Byte} (h : bs.length = 2756) :
    (streamEvents bs).countP Event.isWrite = 2756 ∧ (streamEvents bs).count (.setControl true true) = 2756 ∧
      (streamEvents bs).count (.setControl false true) = 0 := by
  refine ⟨?_, ?_, ?_⟩
  · rw [countP_streamEvents _ fun _ => rfl, h]; rfl
  · rw [List.count, countP_streamEvents _ fun _ => rfl, h]; rfl
  · rw [List.count, countP_streamEvents _ fun _ => rfl, h]; rfl

/-- WAIT_BUSY writes nothing (R89). -/
theorem countP_isWrite_waitEvents (m : Nat) : (waitEvents m).countP Event.isWrite = 0 := by
  rw [waitEvents, List.countP_append, countP_heldEvents]
  rfl

/-- Settles O50: each run adds the trace of its sequence, whose events are counted part by part. -/
theorem traceSizes : Obligations.TraceSizes := by
  refine ⟨fun s m hb hn ha hw hk => ?_, fun s m hs hb hn ha hw hk => ?_, fun s hs hb hn ha => ?_⟩
  · obtain ⟨u, hu⟩ := run_initSeq hb hn ha hw hk
    exact ⟨_, _, u, _, exec_initializePanel s, hu.run, ⟨hu.responses, hu.busy⟩, hu.trace, length_initTrace _ _,
      countP_isWrite_initTrace _ _, countP_sample_initTrace _ _, countP_isDelay_initTrace _ _⟩
  · obtain ⟨u, hu⟩ := run_updateSeq (s := { s with session := .updating }) hb hn ha hw hk
    obtain ⟨fillWrites, fillData, fillCommands⟩ := streamEvents_sizes length_fillBytes
    obtain ⟨cellWrites, cellData, cellCommands⟩ := streamEvents_sizes (length_cellsInOrder s.fb)
    refine ⟨_, _, u, _, exec_update_ready hs, hu.run, ⟨hu.responses, hu.busy⟩, hu.trace, length_updateTrace _ _ _,
      ?_, ?_, ?_, ?_, ?_, _, _, _, updateTrace_parts _ _ _, fillWrites, fillData, fillCommands, cellWrites, cellData,
      cellCommands, ?_⟩
    · rw [countP_updateTrace _ fun _ => rfl]; simp [Event.isWrite]
    · rw [List.count, countP_updateTrace _ fun _ => rfl]; simp [beq_eq_decide]
    · rw [List.count, countP_updateTrace _ fun _ => rfl]; simp [beq_eq_decide]
    · rw [countP_updateTrace _ fun _ => rfl]; simp [Event.sample]
    · rw [countP_updateTrace _ fun _ => rfl]; simp [Event.isDelay]
    · rw [List.countP_append, countP_isWrite_waitEvents]; rfl
  · obtain ⟨u, hu⟩ := run_sleepSeq hb hn ha
    exact ⟨_, _, u, _, exec_sleep_ready hs, hu.run, ⟨hu.responses, hu.busy⟩, hu.trace, length_sleepTrace _, rfl, rfl, rfl⟩

end Sys2Proof.Machine
end

section
/-!
PROOFS. WAIT_BUSY (R89, R94, R114): released, the bound reached, or held for as long as busy is asserted; from its own
start and as part of INITIALIZE and UPDATE.
-/

namespace Sys2Proof.Machine

/-- Settles O51: the three runs of a WAIT_BUSY from its start. -/
theorem waitBusyPollsUntilReleased : Obligations.WaitBusyPollsUntilReleased := by
  intro s hi hb hn hc hp h0
  have hr : Running s := hi.running hb
  refine ⟨fun m hw hk => ?_, fun k hk hh => ?_, fun m hk hh => ?_⟩
  · obtain ⟨u, run, stepIdx, trace, kept⟩ := run_released hr hc hp h0 hn hw hk
    exact ⟨_, u, run, stepIdx, trace, kept.frame⟩
  · obtain ⟨u, run, answers, session, seq, trace, kept⟩ := run_expired hr hc hp h0 hn hk hh
    exact ⟨_, u, run, answers, session, seq, trace, kept.frame⟩
  · have run : runSteps (2 * m) s = .next (s.waited m) := run_waited m hr hc hp hn hh (by simp [hk])
    exact ⟨_, _, run, hb, rfl, rfl, by simp [h0], rfl⟩

/-- A sequence whose `n` events before its WAIT_BUSY are answered ok and whose WAIT_BUSY reaches the bound `k + 1`. -/
theorem run_to_bound {s : State} {head tail : List Event} {n k : Nat} (hr : Running s) (hn : NoReset s)
    (hp : planRest s 0 = head ++ (waitEvents 0 ++ tail)) (hl : head.length = n) (hh : NoSample head)
    (ha : AcksOk s (head.countP Event.fallible)) (h0 : s.polled = 0) (hk : s.params.busyTimeoutPolls = some (k + 1))
    (hb : BusyHeld s (k + 1)) :
    ∃ u, runSteps (n + (2 * k + 1)) s = .next u ∧ Answers s u (responseWord .panelTimeout 0) ∧
      u.session = .uninitialized ∧ u.seq = .none ∧
      u.trace = .readBusy true :: ((head ++ heldEvents k).reverse ++ s.trace) ∧ SequenceFrame s u := by
  obtain ⟨m', w, hw, hc, hph, hpc, levels⟩ := run_to_wait hr hn hp hh ha h0
  have hbw : BusyHeld w (k + 1) := fun j hj => (levels j).trans (hb j hj)
  obtain ⟨u, run, ⟨responses, busy⟩, session, seq, trace, kept⟩ :=
    run_expired hw.running hc hph hpc hw.noReset (hw.kept.params ▸ hk) hbw
  refine ⟨u, hl ▸ runSteps_trans hw.run run, ⟨hw.responses ▸ responses, busy⟩, session, seq, ?_,
    (hw.kept.trans kept).frame⟩
  rw [trace, hw.trace, List.reverse_append, List.append_assoc]

/-- Settles O52: INIT_SEQ up to its WAIT_BUSY is 26 events, and the bound is reached 2k + 1 events later. -/
theorem initializeTimesOut : Obligations.InitializeTimesOut := by
  intro s k hb hn ha hk hh
  have hr : Running (s.startSeq .initSeq) := .startSeq hb (by simp)
  have hp := (planRest_initSeq s 0).trans (initTrace_wait s.params 0)
  obtain ⟨u, run, ended⟩ :=
    run_to_bound (n := 26) hr hn hp rfl (noSample_initTraceHead _) ha (polled_startSeq _ _) hk hh
  rw [show 26 + (2 * k + 1) = 27 + 2 * k by omega] at run
  exact ⟨_, u, exec_initializePanel s, run, ended⟩

/-- Settles O53: UPDATE_SEQ up to its WAIT_BUSY is 11031 events, and the bound is reached 2k + 1 events later. -/
theorem updateTimesOut : Obligations.UpdateTimesOut := by
  intro s k hs hb hn ha hk hh
  have hr : Running (({ s with session := .updating } : State).startSeq .updateSeq) :=
    .startSeq (s := { s with session := .updating }) hb (by simp)
  have hp := (planRest_updateSeq { s with session := .updating } 0).trans (updateTrace_wait s.params s.fb 0)
  rw [← countP_fallible_updateTraceHead s.params s.fb] at ha
  obtain ⟨u, run, ended⟩ := run_to_bound hr hn hp (length_updateTraceHead _ _) (noSample_updateTraceHead _ _) ha
    (polled_startSeq _ _) hk hh
  rw [show 11031 + (2 * k + 1) = 11032 + 2 * k by omega] at run
  exact ⟨_, u, exec_update_ready hs, run, ended⟩

/-- Settles O54: INIT_SEQ comes to its WAIT_BUSY, which without a bound goes on for every asserted sample. -/
theorem initializeHangsWhileBusy : Obligations.InitializeHangsWhileBusy := by
  intro s n hb hn ha hk hh
  have hp := (planRest_initSeq s 0).trans (initTrace_wait s.params 0)
  obtain ⟨m', w, hw, hc, hph, hpc, levels⟩ :=
    run_to_wait (.startSeq hb (by simp)) hn hp (noSample_initTraceHead _) ha (polled_startSeq _ _)
  have hkw : w.params.busyTimeoutPolls = none := hw.kept.params ▸ hk
  have run : runSteps (2 * n) w = .next (w.waited n) :=
    run_waited n hw.running hc hph hw.noReset (fun j hj => (levels j).trans (hh j hj)) (by simp [hkw])
  have hidx : w.stepIdx = 12 := by
    rcases SeqId.wait_position hc with ⟨-, hi⟩ | ⟨hq, -⟩
    · exact hi
    · simp [hw.seq] at hq
  exact ⟨_, _, exec_initializePanel s, runSteps_trans hw.run run, hw.running.busy, hw.responses, hw.seq, hidx,
    by simp [hpc]⟩

end Sys2Proof.Machine
end

section
/-!
PROOFS. The first failing action of a sequence (R79, R93, R118).
-/

namespace Sys2Proof.Machine

/-- The first part of a sequence without samples has none either. -/
theorem NoSample.of_append {pre post : List Event} (h : NoSample (pre ++ post)) : NoSample pre := by
  rw [NoSample, List.filter_append] at h
  exact (List.append_eq_nil_iff.1 h).1

/-- A sequence of the events `es`, answered as planned up to its first failing action (R79, R118). -/
theorem run_until_failure {s : State} {m : Nat} {es pre post : List Event} {e : Event} (hr : Running s) (hn : NoReset s)
    (hp : planRest s m = es) (hes : es = pre ++ e :: post) (hf : Follows s pre) (he : e.fallible = true)
    (ha : s.ackAt (pre.countP Event.fallible) = false) :
    ∃ u, runSteps (pre.length + 1) s = .next u ∧ Answers s u (responseWord .transportFailure 0) ∧
      u.session = .uninitialized ∧ u.seq = .none ∧ u.trace = e.asFailed :: (pre.reverse ++ s.trace) ∧
      SequenceFrame s u := by
  obtain ⟨u, run, seq, session, answers, kept, trace⟩ := run_fail hr hn (hp.trans hes) hf he ha
  exact ⟨u, run, answers, session, seq, trace, kept.frame⟩

/-- Settles O55: the sequence a command starts is answered as planned up to its first failing action, which ends it. -/
theorem firstFailureCutsTrace : Obligations.FirstFailureCutsTrace := by
  intro s t i m es pre post e hi hes he hb hn ha hfail hw hexec
  rcases hi with ⟨rfl, rfl⟩ | ⟨rfl, hready, rfl⟩ | ⟨rfl, hready, rfl⟩
  · obtain rfl : s.startSeq .initSeq = t := by simpa using (exec_initializePanel s).symm.trans hexec
    have hf : Follows (s.startSeq .initSeq) pre :=
      .of_prefix (noSample_initTraceHead _) (noSample_initTraceTail _) ((initTrace_wait _ _).symm.trans hes) ha
        (polled_startSeq _ _) hw
    exact run_until_failure (.startSeq hb (by simp)) hn (planRest_initSeq s m) hes hf he hfail
  · obtain rfl : ({ s with session := .updating } : State).startSeq .updateSeq = t := by
      simpa using (exec_update_ready hready).symm.trans hexec
    have hf : Follows (({ s with session := .updating } : State).startSeq .updateSeq) pre :=
      .of_prefix (tail := []) (noSample_updateTraceHead _ _) rfl ((updateTrace_wait _ _ _).symm.trans hes) ha
        (polled_startSeq _ _) hw
    exact run_until_failure (.startSeq (s := { s with session := .updating }) hb (by simp)) hn (planRest_updateSeq _ m)
      hes hf he hfail
  · obtain rfl : s.startSeq .sleepSeq = t := by simpa using (exec_sleep_ready hready).symm.trans hexec
    have hpre : NoSample pre := .of_append (hes ▸ noSample_sleepTrace s.params)
    exact run_until_failure (.startSeq hb (by simp)) hn (planRest_sleepSeq s 0) hes (.of_acks hpre le_rfl ha) he hfail

end Sys2Proof.Machine
end

section
/-!
PROOFS. The controller (R96 to R98, R104, R112, R128): what an idle port does with and without an offer, the session
state machine, the gate of the commands that need READY, and what READ_STATUS can read.
-/

namespace Sys2Proof.Machine

/-- A word that decodes is executed as its command (R96). -/
theorem execWord_decoded {w : CommandWord} {i : Instr} (hd : decode w = .ok i) (s : State) :
    execWord w s = exec i s := by
  simp only [execWord, hd]

/-- Settles O6: the port accepts the word, and what it executes is the decoded command. -/
theorem stepRunsDecodedCommand : Obligations.StepRunsDecodedCommand := by
  intro s w ws i hn hb ho hd
  have accepted : s.tick.accept = { s with portBusy := true, offers := ws, resetLine := s.resetLine.tail } := by
    simp only [State.tick, State.accept, ho, List.tail_cons]
  rw [step_idle_offer hn hb ho, execWord_decoded hd, accepted]

/-- An idle port with nothing on offer only uses up its sample of the reset input (R128). -/
theorem step_idle_waits {s : State} (hn : s.resetStrikes = false) (hb : s.portBusy = false) (ho : s.offers = []) :
    step s = .next s.tick := by
  simp [step, hn, hb, State.offered, ho]

/-- Settles O9: the reset input, which alone is used up, is no state of the block. -/
theorem idlePortWaits : Obligations.IdlePortWaits := fun _ hn hb ho =>
  ⟨_, step_idle_waits hn hb ho, hb, rfl, fun _ => rfl, ⟨rfl, rfl, rfl⟩, ⟨rfl, rfl, rfl, rfl, rfl⟩,
    ⟨rfl, rfl, rfl, rfl, rfl⟩⟩

/-- Of the ways an event ends only the end of the sequence answers OK (R97, R105). -/
theorem EventEnd.session_of_ok {s t : State} (h : EventEnd s t) (ht : Answers s t (responseWord .ok 0)) :
    t.session = s.seq.sessionAfter s.session := by
  obtain ⟨answer, -⟩ := ht
  cases h with
  | goesOn _ _ responses => simp [responses] at answer
  | finished session => exact session
  | failed _ _ responses => cases status_of_response (responses.symm.trans answer)
  | timedOut _ _ responses => cases status_of_response (responses.symm.trans answer)

/-- An event that answers another status than OK leaves SESSION UNINITIALIZED (R105). -/
theorem EventEnd.session_of_error {s t : State} {st : Status} (h : EventEnd s t) (ht : Answers s t (responseWord st 0))
    (hst : st ≠ .ok) : t.session = .uninitialized := by
  obtain ⟨answer, -⟩ := ht
  cases h with
  | goesOn _ _ responses => simp [responses] at answer
  | finished _ _ responses => exact absurd (status_of_response (answer.symm.trans responses)) hst
  | failed session => exact session
  | timedOut session => exact session

/-- While the sequence goes on SESSION stays (R97). -/
theorem EventEnd.session_of_busy {s t : State} (h : EventEnd s t) (ht : t.portBusy = true) : t.session = s.session := by
  cases h with
  | goesOn session => exact session
  | finished _ _ _ busy | failed _ _ _ busy | timedOut _ _ _ busy => simp [busy] at ht

/-- Only UPDATE, in READY, changes SESSION where it is executed (R97). -/
theorem exec_session {i : Instr} {s t : State} (h : exec i s = .next t) :
    t.session = s.session ∨ (i = .update ∧ s.session = .ready) := by
  cases exec_ends h with
  | answered _ _ _ _ _ _ session => exact .inl session
  | started q which =>
    rcases which with ⟨-, -, rfl⟩ | ⟨update, -, ready, -⟩ | ⟨-, -, -, rfl⟩
    · exact .inl rfl
    · exact .inr ⟨update, ready⟩
    · exact .inl rfl

/-- The one offer on which an idle port changes SESSION: UPDATE in READY (R97). -/
def State.OffersUpdate (s : State) : Prop :=
  s.session = .ready ∧ ∃ w, s.offers.head? = some w ∧ decode w = .ok .update

theorem step_idle_session {s t : State} (hn : s.resetStrikes = false) (hb : s.portBusy = false) (h : step s = .next t)
    (hu : ¬s.OffersUpdate) : t.session = s.session := by
  cases step_cases h with
  | reset strikes => simp [hn] at strikes
  | event _ busy => simp [hb] at busy
  | waits _ _ _ next => subst next; rfl
  | illegal _ _ _ _ _ _ _ next => subst next; rfl
  | command _ _ w ws offers i good next =>
    refine (exec_session next).resolve_right ?_
    rintro ⟨rfl, ready⟩
    exact hu ⟨ready, w, by simp [offers], good⟩

theorem step_idle_update {s t : State} (hn : s.resetStrikes = false) (hb : s.portBusy = false) (h : step s = .next t)
    (hu : s.OffersUpdate) : t.session = .updating ∧ t.seq = .updateSeq := by
  obtain ⟨ready, w, offered, good⟩ := hu
  obtain ⟨ws, ho⟩ := List.head?_eq_some_iff.1 offered
  have hstep := (step_idle_offer hn hb ho).trans
    ((execWord_decoded good _).trans (exec_update_ready (s := s.tick.accept) ready))
  obtain rfl := Host.Outcome.next.inj (hstep.symm.trans h)
  exact ⟨rfl, rfl⟩

/-- Settles O16: block reset, the way an event ends, or the command an idle port accepts decides SESSION. -/
theorem sessionFollowsStateMachine : Obligations.SessionFollowsStateMachine := by
  intro s t hi h
  refine ⟨fun strikes => ?_, fun hn hb => ?_, fun hn hb =>
    ⟨step_idle_update hn hb h, step_idle_session hn hb h⟩⟩
  · obtain rfl : s.tick.blockReset = t := by simpa [step, strikes] using h
    rfl
  · obtain ⟨-, rfl⟩ := (step_busy_iff hn hb).1 h
    have ended : EventEnd s.tick s.tick.sequence := s.tick.sequence_step.ended
    have finished : Answers s s.tick.sequence 0x00000000#32 →
        s.tick.sequence.session = s.seq.sessionAfter s.session := ended.session_of_ok
    refine ⟨fun hq ok => ?_, fun hq ok => ?_, fun hq ok => ?_, ?_, ended.session_of_busy⟩
    · rw [finished ok, hq]; rfl
    · exact ⟨hi.updating.2 hq, by rw [finished ok, hq]; rfl⟩
    · exact ⟨hi.sleeping hq, by rw [finished ok, hq]; rfl⟩
    · rintro (failed | timedOut)
      · exact ended.session_of_error (st := .transportFailure) failed (by simp)
      · exact ended.session_of_error (st := .panelTimeout) timedOut (by simp)

/-- Outside READY a gated command is answered, and that is all (R98, R112). -/
theorem exec_not_ready {i : Instr} {s : State} (hg : needsReady i = true) (hs : s.session ≠ .ready) :
    exec i s = .next (s.respond .panelNotReady 0) := by
  cases i with
  | update | sleep | clear | drawPixel | rawWrite => exact if_neg hs
  | initializePanel | readStatus | setOrientation | setPage | getPixel | readCell => cases hg

/-- A command that the gate does not stop starts its sequence, or answers with another status than PANEL_NOT_READY
(R98). -/
theorem exec_past_gate {i : Instr} {s t : State} (hg : needsReady i = true → s.session = .ready)
    (h : exec i s = .next t) :
    t.responses = s.responses ∨
      ∃ st data, t.responses = responseWord st data :: s.responses ∧ st ≠ .panelNotReady := by
  have responds {u : State} {st : Status} {data : BitVec 28} (answered : exec i s = .next (u.respond st data))
      (same : u.responses = s.responses := by rfl) (hst : st ≠ .panelNotReady := by simp) :
      t.responses = s.responses ∨
        ∃ st data, t.responses = responseWord st data :: s.responses ∧ st ≠ .panelNotReady := by
    obtain rfl := Host.Outcome.next.inj (answered.symm.trans h)
    exact .inr ⟨st, data, by simp [same], hst⟩
  cases i with
  | initializePanel => obtain rfl := Host.Outcome.next.inj ((exec_initializePanel s).symm.trans h); exact .inl rfl
  | update => obtain rfl := Host.Outcome.next.inj ((exec_update_ready (hg rfl)).symm.trans h); exact .inl rfl
  | sleep => obtain rfl := Host.Outcome.next.inj ((exec_sleep_ready (hg rfl)).symm.trans h); exact .inl rfl
  | readStatus | setOrientation | setPage => exact responds rfl
  | clear => exact responds (exec_clear_ready (hg rfl) _)
  | drawPixel x y color =>
    cases hp : pixelTarget s.orient s.page x y with
    | some => exact responds (exec_drawPixel_some (hg rfl) hp color)
    | none => exact responds (exec_drawPixel_none (hg rfl) hp color)
  | rawWrite x y color =>
    cases hp : rawTarget x y with
    | some => exact responds (exec_rawWrite_some (hg rfl) hp color)
    | none => exact responds (exec_rawWrite_none (hg rfl) hp color)
  | getPixel x y =>
    cases hp : pixelTarget s.orient s.page x y with
    | some => exact responds (exec_getPixel_some hp)
    | none => exact responds (exec_getPixel_none hp)
  | readCell addr =>
    by_cases ha : addr < 2756
    · exact responds (exec_readCell_inside ha)
    · exact responds (exec_readCell_outside ha)

/-- Settles O23: the gate gives the answer, and past the gate no command does. -/
theorem gatedCommandsNeedReady : Obligations.GatedCommandsNeedReady := by
  intro i s
  constructor
  · rintro ⟨hg, hs⟩
    exact ⟨_, exec_not_ready hg hs, ⟨rfl, rfl⟩, fun _ => rfl, s.respond_quiet _ _⟩
  · rintro t h ⟨answer, -⟩
    by_contra passed
    have hg : needsReady i = true → s.session = .ready := by simpa using passed
    rcases exec_past_gate hg h with same | ⟨st, data, responses, hst⟩
    · simp [same] at answer
    · exact hst (status_of_response (b := .panelNotReady) (y := 0) (responses.symm.trans answer))

/-- The code 3 is UPDATING's alone (R22). -/
theorem Session.code_ne_three {session : Session} (h : session ≠ .updating) : session.code ≠ 3#2 := by
  cases session with
  | updating => contradiction
  | uninitialized | ready | asleep => decide

/-- Settles O25: a word is executed by an idle port only, and an idle block is not UPDATING. -/
theorem statusNeverReadsUpdating : Obligations.StatusNeverReadsUpdating := by
  intro s t w ws hi hn hb ho hd h
  have hstep : step s = .next (s.tick.accept.respond .ok (statusData s.session s.orient s.page)) :=
    (step_idle_offer hn hb ho).trans (execWord_decoded hd _)
  obtain rfl := Host.Outcome.next.inj (hstep.symm.trans h)
  refine ⟨_, rfl, ?_⟩
  rw [responseWord_field _ _ (by omega), statusData_session]
  exact Session.code_ne_three (hi.not_updating hb)

end Sys2Proof.Machine
end

section
/-!
PROOFS. The errors of the commands (R109, R111, R113, R116, R119): none of them stops the machine, TRANSPORT_FAILURE comes
from a failed action alone, and INVALID_COORDINATE from its three causes.
-/

namespace Sys2Proof.Machine

/-- Settles O15: the one fault needs a busy port with no sequence in progress, which the invariant excludes. -/
theorem invariantStatesStep : Obligations.InvariantStatesStep := fun _ hi => step_next hi.busy.1

/-- Of the ways an event ends only the failed action answers TRANSPORT_FAILURE. -/
theorem EventEnd.of_transportFailure {s t : State} (h : EventEnd s t)
    (ht : t.responses = responseWord .transportFailure 0 :: s.responses) :
    ∃ e, t.trace = e :: s.trace ∧ e.failed = true := by
  cases h with
  | goesOn _ _ responses => simp [responses] at ht
  | finished _ _ responses => cases status_of_response (responses.symm.trans ht)
  | failed _ _ _ _ trace =>
    obtain ⟨e, failed, logged⟩ := trace
    exact ⟨e, logged, failed⟩
  | timedOut _ _ responses => cases status_of_response (responses.symm.trans ht)

/-- A command answers TRANSPORT_FAILURE in no step that executes it: it performs no action there. -/
theorem exec_ne_transportFailure {i : Instr} {s t : State} (h : exec i s = .next t) :
    t.responses ≠ responseWord .transportFailure 0 :: s.responses := by
  intro ht
  cases exec_ends h with
  | answered st data responses precise =>
    obtain ⟨noFailure, -⟩ := precise
    exact noFailure (status_of_response (responses.symm.trans ht))
  | started q which => rcases which with ⟨-, -, rfl⟩ | ⟨-, -, -, rfl⟩ | ⟨-, -, -, rfl⟩ <;> simp at ht

/-- A step that answers TRANSPORT_FAILURE is an event of a sequence in progress and logs a failed action. -/
theorem step_transportFailure {s t : State} (h : step s = .next t)
    (ht : t.responses = responseWord .transportFailure 0 :: s.responses) :
    s.portBusy = true ∧ s.seq ≠ .none ∧ ∃ e, t.trace = e :: s.trace ∧ e.failed = true := by
  cases step_cases h with
  | reset _ next => simp [next] at ht
  | event _ busy seq next =>
    subst next
    exact ⟨busy, seq, s.tick.sequence_step.ended.of_transportFailure ht⟩
  | waits _ _ _ next => simp [next] at ht
  | illegal _ _ _ _ _ _ _ next =>
    subst next
    cases status_of_response ht
  | command _ _ _ _ _ _ _ next => exact absurd ht (exec_ne_transportFailure (s := s.tick.accept) next)

/-- A sequence in progress is one of the three (R25). -/
theorem SeqId.eq_of_ne_none {q : SeqId} (hq : q ≠ .none) : q = .initSeq ∨ q = .updateSeq ∨ q = .sleepSeq := by
  cases q with
  | none => contradiction
  | initSeq | updateSeq | sleepSeq => simp

/-- Settles O21: the answer comes from an event that logs a failed action, and such an event gives the answer (O20). -/
theorem transportFailureCause : Obligations.TransportFailureCause := by
  intro s t _ h
  refine ⟨⟨?_, ?_⟩, ?_⟩
  · rintro ⟨responses, -⟩
    obtain ⟨-, -, logged⟩ := step_transportFailure h responses
    exact logged
  · rintro ⟨e, logged, failed⟩
    obtain ⟨answers, -⟩ := failedActionEndsSequence s t e h logged failed
    exact answers
  · rintro ⟨responses, -⟩
    obtain ⟨busy, seq, -⟩ := step_transportFailure h responses
    exact ⟨busy, SeqId.eq_of_ne_none seq⟩

/-- The three causes of INVALID_COORDINATE (R111); RAW_WRITE's is behind the gate of R98 (R116). -/
def InvalidCoordinateCause (i : Instr) (s : State) : Prop :=
  (∃ x y color, i = .rawWrite x y color ∧ s.session = .ready ∧ (104 ≤ x ∨ 212 ≤ y)) ∨
    (∃ x y, i = .getPixel x y ∧ pixelTarget s.orient s.page x y = none) ∨
    ∃ addr, i = .readCell addr ∧ 2756 ≤ addr

/-- Where there is a cause the response is all the command does. -/
theorem exec_of_invalidCoordinateCause {i : Instr} {s : State} (hc : InvalidCoordinateCause i s) :
    exec i s = .next (s.respond .invalidCoordinate 0) := by
  rcases hc with ⟨x, y, color, rfl, hs, hout⟩ | ⟨x, y, rfl, hp⟩ | ⟨addr, rfl, ha⟩
  · exact exec_rawWrite_none hs (rawTarget_none.2 hout) color
  · exact exec_getPixel_none hp
  · exact exec_readCell_outside (by omega)

/-- The STATUS a command answers is the one its execution responds with. -/
theorem exec_status {i : Instr} {s t u : State} {st st' : Status} {data data' : BitVec 28} (h : exec i s = .next t)
    (ht : t.responses = responseWord st data :: s.responses) (responds : exec i s = .next (u.respond st' data'))
    (same : u.responses = s.responses) : st' = st := by
  obtain rfl := Host.Outcome.next.inj (responds.symm.trans h)
  rw [State.respond_responses, same] at ht
  exact status_of_response ht

/-- A command that starts a sequence does not answer in the same step. -/
theorem exec_starts_ne_response {i : Instr} {s t u : State} {q : SeqId} {r : ResponseWord} (h : exec i s = .next t)
    (starts : exec i s = .next (u.startSeq q)) (same : u.responses = s.responses) : t.responses ≠ r :: s.responses := by
  obtain rfl := Host.Outcome.next.inj (starts.symm.trans h)
  simp [same]

/-- A command answers INVALID_COORDINATE for one of the three causes. -/
theorem invalidCoordinateCause_of_exec {i : Instr} {s t : State} (h : exec i s = .next t)
    (ht : t.responses = responseWord .invalidCoordinate 0 :: s.responses) : InvalidCoordinateCause i s := by
  by_contra hc
  have hg : needsReady i = true → s.session = .ready := by
    intro gated
    by_contra hs
    cases exec_status h ht (exec_not_ready gated hs) rfl
  cases i with
  | initializePanel => exact exec_starts_ne_response h (exec_initializePanel s) rfl ht
  | update => exact exec_starts_ne_response h (exec_update_ready (hg rfl)) rfl ht
  | sleep => exact exec_starts_ne_response h (exec_sleep_ready (hg rfl)) rfl ht
  | readStatus => cases exec_status h ht (u := s) rfl rfl
  | setOrientation o => cases exec_status h ht (u := { s with orient := o }) rfl rfl
  | setPage p => cases exec_status h ht (u := { s with page := BitVec.ofInt 16 p }) rfl rfl
  | clear value => cases exec_status h ht (exec_clear_ready (hg rfl) value) rfl
  | drawPixel x y color =>
    cases hp : pixelTarget s.orient s.page x y with
    | some => cases exec_status h ht (exec_drawPixel_some (hg rfl) hp color) rfl
    | none => cases exec_status h ht (exec_drawPixel_none (hg rfl) hp color) rfl
  | rawWrite x y color =>
    cases hp : rawTarget x y with
    | some => cases exec_status h ht (exec_rawWrite_some (hg rfl) hp color) rfl
    | none => exact hc (.inl ⟨x, y, color, rfl, hg rfl, rawTarget_none.1 hp⟩)
  | getPixel x y =>
    cases hp : pixelTarget s.orient s.page x y with
    | some => cases exec_status h ht (exec_getPixel_some hp) rfl
    | none => exact hc (.inr (.inl ⟨x, y, rfl, hp⟩))
  | readCell addr =>
    by_cases ha : addr < 2756
    · cases exec_status h ht (exec_readCell_inside ha) rfl
    · exact hc (.inr (.inr ⟨addr, rfl, by omega⟩))

/-- Settles O24: each cause gives the answer and no more, and no command answers so without one. -/
theorem invalidCoordinateCauses : Obligations.InvalidCoordinateCauses := by
  intro i s t h
  have cause : Answers s t (responseWord .invalidCoordinate 0) → InvalidCoordinateCause i s :=
    fun ⟨responses, _⟩ => invalidCoordinateCause_of_exec h responses
  have effect (hc : InvalidCoordinateCause i s) : s.respond .invalidCoordinate 0 = t :=
    Host.Outcome.next.inj ((exec_of_invalidCoordinateCause hc).symm.trans h)
  refine ⟨⟨cause, fun hc => ?_⟩, fun answers => ?_⟩
  · rw [← effect hc]
    exact ⟨rfl, rfl⟩
  · rw [← effect (cause answers)]
    exact ⟨fun _ => rfl, s.respond_quiet _ _⟩

end Sys2Proof.Machine
end

section
/-!
PROOFS. Block reset (R127), and that the sequence commands respond whatever their actions are answered (R139): a plan is
answered ok to its end, or one of its actions is the first to fail.
-/

namespace Sys2Proof.Machine

/-- Where block reset strikes, the step is block reset and nothing else (R127, R135). -/
theorem step_reset {s : State} (h : s.resetStrikes = true) : step s = .next s.tick.blockReset := if_pos h

/-- Settles O10: block reset writes the values of the table, and `tick` only uses up the sample of the reset input. -/
theorem blockResetSetsEverything : Obligations.BlockResetSetsEverything := fun _ h =>
  ⟨_, step_reset h, fun _ _ => rfl, rfl, rfl, rfl, rfl, rfl, rfl, rfl, rfl, ⟨rfl, rfl, rfl, rfl, rfl⟩, rfl, rfl⟩

/-- A sequence responds within its events, with OK or TRANSPORT_FAILURE, when each first part of it whose actions are
answered ok is answered as planned (R79, R93, R139). -/
theorem run_responds {s : State} {m : Nat} {es : List Event} (hr : Running s) (hn : NoReset s) (hp : planRest s m = es)
    (hne : es ≠ [])
    (hf : ∀ pre rest, es = pre ++ rest → AcksOk s (pre.countP Event.fallible) → Follows s pre) :
    ∃ k u, k ≤ es.length ∧ runSteps k s = .next u ∧
      (Answers s u (responseWord .ok 0) ∨ Answers s u (responseWord .transportFailure 0)) ∧ SequenceFrame s u := by
  rcases first_failure es s with acks | ⟨pre, e, post, split, he, acks, fails⟩
  · obtain ⟨u, hu⟩ := run_all hr hn hp hne (hf es [] (List.append_nil es).symm acks)
    exact ⟨_, u, le_rfl, hu.run, .inl ⟨hu.responses, hu.busy⟩, hu.kept.frame⟩
  · obtain ⟨u, run, answers, -, -, -, frame⟩ :=
      run_until_failure hr hn hp split (hf pre (e :: post) split acks) he fails
    exact ⟨_, u, by simp [split], run, .inr answers, frame⟩

/-- Settles O56: each command starts a sequence that responds, with the busy wait of INITIALIZE and UPDATE released within
the bound, and no busy wait in SLEEP. -/
theorem sequenceCommandsRespond : Obligations.SequenceCommandsRespond := by
  intro s i m n hb hn hi
  rcases hi with ⟨rfl, rfl, hw, hk⟩ | ⟨rfl, hready, rfl, hw, hk⟩ | ⟨rfl, hready, rfl⟩
  · obtain ⟨k, u, hle, ended⟩ := run_responds (.startSeq hb (by simp)) hn (planRest_initSeq s m)
      (by simp [initTrace, waitEvents]) fun pre rest hes acks =>
        .of_prefix (noSample_initTraceHead _) (noSample_initTraceTail _) ((initTrace_wait _ _).symm.trans hes) acks
          (polled_startSeq _ _) fun _ => ⟨hw, hk⟩
    exact ⟨k, _, u, length_initTrace _ _ ▸ hle, exec_initializePanel s, ended⟩
  · obtain ⟨k, u, hle, ended⟩ := run_responds (.startSeq (s := { s with session := .updating }) hb (by simp)) hn
      (planRest_updateSeq _ m) (by simp [updateTrace, waitEvents]) fun pre rest hes acks =>
        .of_prefix (tail := []) (noSample_updateTraceHead _ _) rfl ((updateTrace_wait _ _ _).symm.trans hes) acks
          (polled_startSeq _ _) fun _ => ⟨hw, hk⟩
    exact ⟨k, _, u, length_updateTrace _ _ _ ▸ hle, exec_update_ready hready, ended⟩
  · obtain ⟨k, u, hle, ended⟩ := run_responds (.startSeq hb (by simp)) hn (planRest_sleepSeq s 0)
      (by simp [sleepTrace, cmdEvents]) fun pre rest hes acks =>
        .of_acks (.of_append (hes ▸ noSample_sleepTrace s.params)) le_rfl acks
    exact ⟨k, _, u, hle, exec_sleep_ready hready, ended⟩

end Sys2Proof.Machine
end

section
/-!
PROOFS. INITIALIZE twice (R140): each run starts INIT_SEQ at its first primitive with the same parameters and framebuffer,
so two runs answered alike end alike.
-/

namespace Sys2Proof.Machine

/-- An idle block after the step that accepts INITIALIZE (R96, R99). -/
def State.initializing (s : State) : State := s.tick.accept.startSeq .initSeq

/-- The step of an idle port that is offered INITIALIZE. -/
theorem step_offered_initialize {s : State} {ws : List CommandWord} (hn : NoReset s) (hb : s.portBusy = false)
    (ho : s.offers = 0x0100000000000000#64 :: ws) : step s = .next s.initializing :=
  calc step s
    _ = execWord 0x0100000000000000#64 s.tick.accept := step_idle_offer hn.strikes hb ho
    _ = exec .initializePanel s.tick.accept := execWord_decoded (by decide) _
    _ = .next s.initializing := exec_initializePanel _

theorem State.initializing_running (s : State) : Running s.initializing := .startSeq rfl (by simp)

theorem State.initializing_noReset {s : State} (hn : NoReset s) : NoReset s.initializing := hn.tail rfl

/-- Nothing INIT_SEQ reads at its start but the parameters and the framebuffer is left from before (R25). -/
theorem State.initializing_alike {s t : State} (params : t.params = s.params) (fb : t.fb = s.fb) :
    Alike s.initializing t.initializing := ⟨rfl, rfl, rfl, rfl, rfl, params, fb⟩

/-- The transport answers INIT_SEQ as planned when its 46 actions are answered ok and busy is released after `m` asserted
samples, within the bound. -/
theorem State.initializing_follows {s : State} {m : Nat} (ha : AcksOk s 46) (hw : BusyFor s m) (hk : BoundAllows s m) :
    Follows s.initializing (initTrace s.params m) :=
  .of_wait (noSample_initTraceHead _) (noSample_initTraceTail _) (countP_fallible_initTrace _ _).le ha hw hk
    (polled_startSeq _ _)

/-- An idle port that is offered INITIALIZE, its actions answered ok and busy released within the bound, runs INIT_SEQ to
its end (R90, R99). -/
theorem run_offered_initialize {s : State} {ws : List CommandWord} {m : Nat} (hn : NoReset s) (hb : s.portBusy = false)
    (ho : s.offers = 0x0100000000000000#64 :: ws) (ha : AcksOk s 46) (hw : BusyFor s m) (hk : BoundAllows s m) :
    ∃ n t, runSteps n s = .next t ∧ Finished s.initializing t (initTrace s.params m) := by
  obtain ⟨t, ht⟩ := run_initSeq (s := s.tick.accept) rfl (hn.tail rfl) ha hw hk
  exact ⟨_, t, runSteps_trans (runSteps_one (step_offered_initialize hn hb ho)) ht.run, ht⟩

/-- INIT_SEQ uses up 46 answers and `m + 1` levels (R95). -/
theorem Finished.initialize_answers {s t : State} {m : Nat} (h : Finished s.initializing t (initTrace s.params m)) :
    (∀ k, t.ackAt k = s.ackAt (k + 46)) ∧ ∀ k, t.busyAt k = s.busyAt (k + (m + 1)) :=
  ⟨countP_fallible_initTrace s.params m ▸ h.acks, countP_sample_initTrace s.params m ▸ h.levels⟩

/-- Settles O57: both runs finish, and the second starts like the first and is answered alike. -/
theorem initializeTwiceEqualsOnce : Obligations.InitializeTwiceEqualsOnce := by
  intro s m hb hn ho ha hw held released hk
  have firstAcks : AcksOk s 46 := fun k h => ha k (by omega)
  obtain ⟨n, t, firstRun, ht⟩ := run_offered_initialize hn hb ho firstAcks hw hk
  obtain ⟨acks, levels⟩ := ht.initialize_answers
  have params : t.params = s.params := ht.kept.params
  have offers : t.offers = [0x0100000000000000#64] := ht.kept.offers.trans (congrArg List.tail ho)
  have secondAcks : AcksOk t 46 := fun k h => (acks k).trans (ha _ (by omega))
  have secondBusy : BusyFor t m := by
    refine ⟨fun k h => ?_, ?_⟩
    · rw [levels, Nat.add_comm]
      exact held k h
    · rw [levels, show m + (m + 1) = 2 * m + 1 by omega]
      exact released
  have secondBound : BoundAllows t m := fun k h => hk k (params ▸ h)
  obtain ⟨k, u, secondRun, hu⟩ := run_offered_initialize ht.noReset ht.busy offers secondAcks secondBusy secondBound
  have follows := State.initializing_follows secondAcks secondBusy secondBound
  rw [params] at hu follows
  have alike : Alike t u :=
    run_alike _ (State.initializing_alike params ht.kept.fb) s.initializing_running t.initializing_running
      (State.initializing_noReset hn) (State.initializing_noReset ht.noReset) (planRest_initSeq _ m)
      (State.initializing_follows firstAcks hw hk) follows ht.run hu.run
  exact ⟨n, t, k, u, firstRun, secondRun, ht.responses, hu.responses, ht.session, ht.kept.frame.1, hu.kept.frame.1,
    ⟨hu.kept.orient, hu.kept.page, hu.session.trans ht.session.symm⟩,
    ⟨alike.seq, alike.stepIdx, alike.streamIdx, alike.pollCount, alike.phase⟩,
    ht.kept.orient, ht.kept.page, ht.busy, hu.busy, ht.trace, hu.trace⟩

end Sys2Proof.Machine
end
